-- ==== Sys2Proof/Word.lean ====
section
/-!
DEFINITION. The words of the core (spec/30_encoding.md R70 to R75): a LogicalAddress and a packed raw pattern are
14 bits, a byte is 8 bits, a line level is one bit, a selector word has the width of its format.  Bit 0 is the least
significant bit of every value (spec/00_scope.md R11).  A LineSnapshot is `BitVec W`, W being a parameter of the build.
-/

namespace Sys2Proof

/-- A LogicalAddress, "14-bit unsigned value, 0..16383" (R72). -/
abbrev Addr := BitVec 14

/-- A packed raw pattern, the index into `AIT` (R73). -/
abbrev Packed := BitVec 14

/-- A byte, in logical or in line form (R74). -/
abbrev Byte := BitVec 8

/-- `AIT_ENTRIES` and `IMAGE_SIZE`: this many table entries and image bytes (R7). -/
def imageSize : Nat := 16384

theorem imageSize_eq : imageSize = 16384 := by decide

/-- Every LogicalAddress is an offset into an image, and every packed pattern an index into the table. -/
theorem toNat_lt_imageSize (a : Addr) : a.toNat < imageSize := by rw [imageSize_eq]; exact a.isLt

end Sys2Proof
end

