-- ==== Sys2Proof/Config.lean ====
section
/-!
DEFINITION. What a build of the core fixes (spec/00_scope.md R8) and the free values of the model.

The parameters are OPEN in the spec: a model takes each as an argument.  Here they are the fields of `Config`, a
configuration is part of the machine's state (`State.cfg`, which no step writes), and a statement about every state is
a statement about every configuration (log 1).  Which configurations are admitted (R9) is `Config.admitted` in
WellFormed.lean.
-/

namespace Sys2Proof

/-- A 16384-byte image, written as the bytes that are not 0, by offset: an offset that is not listed holds 0 (log 19).
So every list is an image of exactly 16384 bytes, as spec/20_memory.md R57 asks ("by type"). -/
abbrev Image := List Host.Cell

/-- `SWITCH_SOURCE` (R8): which mechanism changes the current image. -/
inductive SwitchSource where
  | button
  | address
deriving DecidableEq, Repr

/-- `SWITCH_VARIANT` (R8): which of the two switch FSM variants is built. -/
inductive SwitchVariant where
  | immediate
  | twoPhase
deriving DecidableEq, Repr

/-- `IPG_VARIANT` (R8): which interrupt-pulse mechanism is built. -/
inductive IpgVariant where
  | none
  | autonomous
  | inline
deriving DecidableEq, Repr

/-- `TRIG_ORDER` (R8): whether the triggering access reads the old or the new image. -/
inductive TrigOrder where
  | fetchThenSwitch
  | switchThenFetch
deriving DecidableEq, Repr

/-- `SYNC_EDGE` (R8): which transition of the sync line is observed. -/
inductive SyncEdge where
  | falling
  | rising
  | both
deriving DecidableEq, Repr

/-- The parameters of R8, by the spec's names.  A line index is a natural. -/
structure Config where
  /-- `W`: the width of a LineSnapshot. -/
  w : Nat
  /-- `ADDR_LINE[i]`: the input line that carries logical address bit i. -/
  addrLine : Vector Nat 14
  /-- `DATA_LINE[i]`: the output line the host reads as logical data bit i. -/
  dataLine : Vector Nat 8
  /-- `PACK_POS[k]`: the line whose sampled bit becomes bit k of the packed raw pattern. -/
  packPos : Vector Nat 14
  /-- `DATA_SLOT[j]`: the output line that receives bit j of a driven byte. -/
  dataSlot : Vector Nat 8
  /-- `L_RD`: the read-access strobe, active low. -/
  lRd : Nat
  /-- `HAS_WE`: whether the write-enable input exists. -/
  hasWe : Bool
  /-- `L_WE`: the write-enable input, active low, read only when `HAS_WE`. -/
  lWe : Nat
  /-- `L_BTN`: the button input, active high. -/
  lBtn : Nat
  /-- `L_INT`: the periodic interrupt input. -/
  lInt : Nat
  /-- `ROM_LOGICAL[b]`, one image a bank; their number is `N`. -/
  rom : List Image
  /-- `SWITCH_SOURCE`. -/
  switchSource : SwitchSource
  /-- `SWITCH_VARIANT`. -/
  switchVariant : SwitchVariant
  /-- `IPG_VARIANT`. -/
  ipgVariant : IpgVariant
  /-- `Q`: the qualification period, in Context B ticks. -/
  q : Nat
  /-- `SETTLE_DELAY`, in Context B ticks. -/
  settleDelay : Nat
  /-- `LABEL_DISPLAY`, in Context B ticks. -/
  labelDisplay : Nat
  /-- `RESET_HOLD`, in Context B ticks. -/
  resetHold : Nat
  /-- `ANNOUNCE_LOGICAL`: the announcement image, logical form. -/
  announce : Image
  /-- `LABEL_OFFSET`. -/
  labelOffset : Nat
  /-- `LABEL_LEN`. -/
  labelLen : Nat
  /-- `LABEL_PATCH(b)`, one byte string a bank. -/
  labelPatch : List (List Byte)
  /-- `TRIG_TABLE`: (address, bank) pairs. -/
  trigTable : List (Addr × Nat)
  /-- `TRIG_ORDER`. -/
  trigOrder : TrigOrder
  /-- `PULSE_PERIOD`, in IPG ticks. -/
  pulsePeriod : Nat
  /-- `PULSE_WIDTH`, in IPG ticks. -/
  pulseWidth : Nat
  /-- `SYNC_EDGE`. -/
  syncEdge : SyncEdge
  /-- `NMI_COND`: the predicate holds of the addresses listed here (log 19). -/
  nmiCond : List Addr
deriving DecidableEq, Repr

/-- `N`, the number of banks (R8). -/
def Config.n (c : Config) : Nat := c.rom.length

/-- The agents that take steps (R3). -/
inductive Agent where
  | startup
  | engine
  | switch
  | ipg
  | host
deriving DecidableEq, Repr, Inhabited

/-- One turn of a run: the levels HOST puts on the input lines (bit L is line L), and the agent that then steps (R14:
"Between any two steps the HOST may change any input line.  Agents interleave in any order").  A turn of HOST itself
only changes the lines. -/
structure Turn where
  agent : Agent
  lines : Nat
deriving DecidableEq, Repr, Inhabited

/-- FREE VALUE (log 6): the turn HOST and the scheduler choose, by the number of turns already taken, when the state
lists none.  It has no body, so nothing can be proved of it: HOST is "an unconstrained environment" (spec/70 R230) and
"the model lets any enabled agent take the next step" (R236). -/
opaque Config.hostTurn : Nat → Turn

/-- The reference configuration REFCFG of spec/95_test_vectors.md section 2.1, with the defaults of R8 and, for the
durations and tables, the illustrations of files 42, 43 and 95.  The images are empty (all zero).  DESIGN CHOICE
(logs 1 and 2), unsafe: the spec gives the hardware no wiring, and REFCFG is its own made-up example. -/
def Config.refcfg : Config where
  w := 32
  addrLine := ⟨#[9, 10, 11, 12, 13, 14, 16, 15, 18, 20, 22, 21, 19, 17], rfl⟩
  dataLine := ⟨#[0, 1, 2, 4, 6, 7, 5, 3], rfl⟩
  packPos := ⟨#[9, 10, 11, 12, 13, 14, 15, 16, 17, 18, 19, 20, 21, 22], rfl⟩
  dataSlot := ⟨#[0, 1, 2, 3, 4, 5, 6, 7], rfl⟩
  lRd := 8
  hasWe := false
  lWe := 23
  lBtn := 24
  lInt := 26
  rom := [[], []]
  switchSource := .button
  switchVariant := .immediate
  ipgVariant := .none
  q := 3
  settleDelay := 2
  labelDisplay := 4
  resetHold := 2
  announce := []
  labelOffset := 0x0100
  labelLen := 2
  labelPatch := [[0x42, 0x30], [0x42, 0x31]]
  trigTable := [(0x0008, 1), (0x1708, 1), (0x0700, 0)]
  trigOrder := .fetchThenSwitch
  pulsePeriod := 8
  pulseWidth := 3
  syncEdge := .falling
  nmiCond := [0x0038]

/-- The idle snapshot word of spec/95_test_vectors.md section 2.2 (`RD_N`, `WE_N` and `INT_IN` high, `BTN` low). -/
def Config.idleLines : Nat := 0x04800100

end Sys2Proof
end

