-- ==== Sys2Proof/Syntax.lean ====
section
/-!
DEFINITION. The operations of the core: one constructor for each row of spec/opcode_table.json, which is the operation
map of spec/30_encoding.md R81.  A letter of a row's pattern (a bit that may take either value) is an operand of the
constructor, so that a word and its operation determine each other; R83 says no operation depends on it.
-/

namespace Sys2Proof

/-- The state bits `ss` of `SW.TICK`'s pattern `v1ssb0`: the three states with a running timer (R75, R151).  The code
11 is reserved (R82) and cannot be written down. -/
inductive TimedState where
  | swSettle
  | labelShow
  | finalHold
deriving DecidableEq, Repr

inductive Instr where
  /-- `AIT.BUILD`, BOOT `001`. -/
  | aitBuild
  /-- `ROM.PRECONV`, BOOT `010`. -/
  | romPreconv
  /-- `CORE.INIT`, BOOT `011`. -/
  | coreInit
  /-- `ENG.LAUNCH`, BOOT `100`. -/
  | engLaunch
  /-- `IPG.START`, BOOT `101`. -/
  | ipgStart
  /-- `BRE.POLL`, ENG `001w`. -/
  | brePoll (we : Bool)
  /-- `BRE.SERVE`, ENG `0001`. -/
  | breServe
  /-- `BRE.SKIPWR`, ENG `0000`. -/
  | breSkipwr
  /-- `BRE.HOLD`, ENG `010w`. -/
  | breHold (we : Bool)
  /-- `BRE.RELEASE`, ENG `011w`. -/
  | breRelease (we : Bool)
  /-- `BRE.SKIPHOLD`, ENG `100w`. -/
  | breSkiphold (we : Bool)
  /-- `BRE.SKIPEND`, ENG `101w`. -/
  | breSkipend (we : Bool)
  /-- `SW.IDLE`, SWF `v0000x`. -/
  | swIdle (v x : Bool)
  /-- `SW.DETECT`, SWF `v0001x`. -/
  | swDetect (v x : Bool)
  /-- `SW.COUNT`, SWF `v00110`. -/
  | swCount (v : Bool)
  /-- `SW.BOUNCE`, SWF `v0010x`. -/
  | swBounce (v x : Bool)
  /-- `SW.QUALIFY`, SWF `000111`. -/
  | swQualify
  /-- `SW.QLABEL`, SWF `100111`. -/
  | swQlabel
  /-- `SW.HOLD`, SWF `v0101x`. -/
  | swHold (v x : Bool)
  /-- `SW.UNPRESS`, SWF `v0100x`. -/
  | swUnpress (v x : Bool)
  /-- `SW.TICK`, SWF `v1ssb0`. -/
  | swTick (v : Bool) (ss : TimedState) (btn : Bool)
  /-- `SW.RELEASE`, SWF `0100b1`. -/
  | swRelease (btn : Bool)
  /-- `SW.SHOWLABEL`, SWF `1100b1`. -/
  | swShowlabel (btn : Bool)
  /-- `SW.REALSWITCH`, SWF `1101b1`. -/
  | swRealswitch (btn : Bool)
  /-- `SW.FINALREL`, SWF `1110b1`. -/
  | swFinalrel (btn : Bool)
  /-- `IPG.OFF`, IPG `00ex`. -/
  | ipgOff (e x : Bool)
  /-- `IPG.WAIT`, IPG `010x`. -/
  | ipgWait (x : Bool)
  /-- `IPG.SYNC`, IPG `011x`. -/
  | ipgSync (x : Bool)
  /-- `IPG.HOLD`, IPG `10e0`. -/
  | ipgHold (e : Bool)
  /-- `IPG.END`, IPG `10e1`. -/
  | ipgEnd (e : Bool)
deriving DecidableEq, Repr

end Sys2Proof
end

