-- ==== Sys2Proof/WellFormed.lean ====
section
/-!
DEFINITION. Which operations have a word (spec/30_encoding.md R82) and which configurations are admitted
(spec/00_scope.md R9, with the types R8 gives each parameter; log 14).
-/

namespace Sys2Proof

/-- `LabelShow` and `FinalHold` exist only in the two-phase variant: their codes with `v = 0` are reserved (R82).
Every other term is an operation with a word. -/
def Instr.wellFormed : Instr → Bool
  | .swTick v ss _ =>
    match ss with
    | .swSettle => true
    | .labelShow => v
    | .finalHold => v
  | .aitBuild | .romPreconv | .coreInit | .engLaunch | .ipgStart => true
  | .brePoll _ | .breServe | .breSkipwr | .breHold _ | .breRelease _ | .breSkiphold _ | .breSkipend _ => true
  | .swIdle _ _ | .swDetect _ _ | .swCount _ | .swBounce _ _ | .swQualify | .swQlabel | .swHold _ _ => true
  | .swUnpress _ _ | .swRelease _ | .swShowlabel _ | .swRealswitch _ | .swFinalrel _ => true
  | .ipgOff _ _ | .ipgWait _ | .ipgSync _ | .ipgHold _ | .ipgEnd _ => true

/-- The lines R9(e) names: each input the build has, and the eight data lines. -/
def Config.namedLines (c : Config) : List Nat :=
  c.addrLine.toList ++ c.dataLine.toList ++ [c.lRd]
    ++ (if c.hasWe then [c.lWe] else [])
    ++ (if c.switchSource = .button then [c.lBtn] else [])
    ++ (if c.ipgVariant = .autonomous then [c.lInt] else [])

/-- R9(c): `PACK_POS` is injective and its image equals the image of `ADDR_LINE`. -/
def Config.packOk (c : Config) : Bool :=
  decide c.packPos.toList.Nodup
    && c.packPos.toList.all (fun l => c.addrLine.toList.contains l)
    && c.addrLine.toList.all (fun l => c.packPos.toList.contains l)

/-- R9(d): `DATA_SLOT` is injective and its image equals the image of `DATA_LINE`. -/
def Config.slotOk (c : Config) : Bool :=
  decide c.dataSlot.toList.Nodup
    && c.dataSlot.toList.all (fun l => c.dataLine.toList.contains l)
    && c.dataLine.toList.all (fun l => c.dataSlot.toList.contains l)

/-- R9(a), R9(b), R9(e): the named lines are pairwise distinct (so each map is injective) and below `W`. -/
def Config.linesOk (c : Config) : Bool :=
  decide c.namedLines.Nodup && c.namedLines.all (fun l => decide (l < c.w))

/-- R9(h): every target of `TRIG_TABLE` is a bank, and no address appears twice. -/
def Config.trigOk (c : Config) : Bool :=
  c.trigTable.all (fun e => decide (e.2 < c.n)) && decide (c.trigTable.map Prod.fst).Nodup

/-- R8: `LABEL_LEN` is at least 1, the patch lies inside the image, and each bank has a patch of that length. -/
def Config.labelOk (c : Config) : Bool :=
  decide (1 ≤ c.labelLen) && decide (c.labelOffset + c.labelLen ≤ imageSize)
    && decide (c.labelPatch.length = c.n) && c.labelPatch.all (fun p => decide (p.length = c.labelLen))

/-- R8 and R9(i): `N >= 1`, `Q >= 2`, every delay at least 1, `1 <= PULSE_WIDTH < PULSE_PERIOD`. -/
def Config.countsOk (c : Config) : Bool :=
  decide (1 ≤ c.n) && decide (2 ≤ c.q) && decide (1 ≤ c.settleDelay) && decide (1 ≤ c.labelDisplay)
    && decide (1 ≤ c.resetHold) && decide (1 ≤ c.pulseWidth) && decide (c.pulseWidth < c.pulsePeriod)

/-- R9(g): the two-phase variant requires the button.  (R9(f) holds by the type of `SWITCH_SOURCE`.) -/
def Config.variantOk (c : Config) : Bool :=
  decide (c.switchVariant = .twoPhase → c.switchSource = .button)

/-- R9: a configuration is admitted only if all of these hold; "the model refuses any other". -/
def Config.admitted (c : Config) : Bool :=
  c.packOk && c.slotOk && c.linesOk && c.trigOk && c.labelOk && c.countsOk && c.variantOk

end Sys2Proof
end

