-- ==== Sys2Proof/Decode.lean ====
section
/-!
DEFINITION. The selector formats (spec/30_encoding.md R76 to R79), the decoder over them (R81, R82) and the encoder.
A selector word has the exact width of its format.  The decoder is total and rejects a reserved word by name.
-/

namespace Sys2Proof

/-- The four selector formats (R70). -/
inductive Format where
  | boot
  | eng
  | swf
  | ipg
deriving DecidableEq, Repr

/-- A selector: a format and a word of that format's width (R76 to R79). -/
inductive Selector where
  | boot (w : BitVec 3)
  | eng (w : BitVec 4)
  | swf (w : BitVec 6)
  | ipg (w : BitVec 4)
deriving DecidableEq, Repr

/-- The selector values no row of R81 matches (R82), by name. -/
inductive Reserved where
  /-- BOOT 0, 6 and 7. -/
  | bootOrdinal (w : BitVec 3)
  /-- ENG with `st = 11`. -/
  | engState (w : BitVec 4)
  /-- SWF with `st = 011` or `st = 111`. -/
  | swfState (w : BitVec 6)
  /-- SWF with `v = 0` and `st = 101` or `st = 110`: states of the two-phase variant only. -/
  | swfVariant (w : BitVec 6)
  /-- IPG with `st = 11`. -/
  | ipgState (w : BitVec 4)
  /-- A byte with a bit set above its format's width. -/
  | tooWide (b : Byte)
deriving DecidableEq, Repr

/-- BOOT: the ordinal of the startup step (R79). -/
def decodeBoot (w : BitVec 3) : Except Reserved Instr :=
  if w = 0b001#3 then .ok .aitBuild
  else if w = 0b010#3 then .ok .romPreconv
  else if w = 0b011#3 then .ok .coreInit
  else if w = 0b100#3 then .ok .engLaunch
  else if w = 0b101#3 then .ok .ipgStart
  else .error (.bootOrdinal w)

/-- ENG: `st` in bits 3:2, `rd` in bit 1, `we` in bit 0 (R76). -/
def decodeEng (w : BitVec 4) : Except Reserved Instr :=
  let st := w.extractLsb' 2 2
  let rd := w.getLsbD 1
  let we := w.getLsbD 0
  if st = 0b00#2 then
    if rd then .ok (.brePoll we) else if we then .ok .breServe else .ok .breSkipwr
  else if st = 0b01#2 then
    if rd then .ok (.breRelease we) else .ok (.breHold we)
  else if st = 0b10#2 then
    if rd then .ok (.breSkipend we) else .ok (.breSkiphold we)
  else .error (.engState w)

/-- SWF: `v` in bit 5, `st` in bits 4:2, `btn` in bit 1, `x` in bit 0 (R77).  The reserved states come first, since the
pattern of `SW.TICK` covers some of them (R82). -/
def decodeSwf (w : BitVec 6) : Except Reserved Instr :=
  let v := w.getLsbD 5
  let st := w.extractLsb' 2 3
  let btn := w.getLsbD 1
  let x := w.getLsbD 0
  if st = 0b011#3 ∨ st = 0b111#3 then .error (.swfState w)
  else if v = false ∧ (st = 0b101#3 ∨ st = 0b110#3) then .error (.swfVariant w)
  else if st = 0b000#3 then
    if btn then .ok (.swDetect v x) else .ok (.swIdle v x)
  else if st = 0b001#3 then
    if btn then
      if x then (if v then .ok .swQlabel else .ok .swQualify) else .ok (.swCount v)
    else .ok (.swBounce v x)
  else if st = 0b010#3 then
    if btn then .ok (.swHold v x) else .ok (.swUnpress v x)
  else if st = 0b100#3 then
    if x then (if v then .ok (.swShowlabel btn) else .ok (.swRelease btn)) else .ok (.swTick v .swSettle btn)
  else if st = 0b101#3 then
    if x then .ok (.swRealswitch btn) else .ok (.swTick v .labelShow btn)
  else
    if x then .ok (.swFinalrel btn) else .ok (.swTick v .finalHold btn)

/-- IPG: `st` in bits 3:2, `e` in bit 1, `x` in bit 0 (R78). -/
def decodeIpg (w : BitVec 4) : Except Reserved Instr :=
  let st := w.extractLsb' 2 2
  let e := w.getLsbD 1
  let x := w.getLsbD 0
  if st = 0b00#2 then .ok (.ipgOff e x)
  else if st = 0b01#2 then
    if e then .ok (.ipgSync x) else .ok (.ipgWait x)
  else if st = 0b10#2 then
    if x then .ok (.ipgEnd e) else .ok (.ipgHold e)
  else .error (.ipgState w)

/-- The decoder: the one operation a selector names (R81), or the reserved value it is (R82). -/
def decode : Selector → Except Reserved Instr
  | .boot w => decodeBoot w
  | .eng w => decodeEng w
  | .swf w => decodeSwf w
  | .ipg w => decodeIpg w

/-- A byte read as a selector of one format: the bits above the format's width are 0. -/
def Format.select : Format → Byte → Except Reserved Selector
  | .boot, b => if b.toNat < 8 then .ok (.boot (b.setWidth 3)) else .error (.tooWide b)
  | .eng, b => if b.toNat < 16 then .ok (.eng (b.setWidth 4)) else .error (.tooWide b)
  | .swf, b => if b.toNat < 64 then .ok (.swf (b.setWidth 6)) else .error (.tooWide b)
  | .ipg, b => if b.toNat < 16 then .ok (.ipg (b.setWidth 4)) else .error (.tooWide b)

/-- The decoder over bytes: total, for every format and every byte. -/
def decodeByte (f : Format) (b : Byte) : Except Reserved Instr :=
  match f.select b with
  | .ok s => decode s
  | .error r => .error r

/-- One bit as a word. -/
abbrev bit (b : Bool) : BitVec 1 := BitVec.ofBool b

/-- The code of a timed state, bits 4:2 of SWF (R75). -/
def TimedState.code : TimedState → BitVec 3
  | .swSettle => 0b100#3
  | .labelShow => 0b101#3
  | .finalHold => 0b110#3

/-- The encoder, row by row from the patterns of R81 (most significant bit first). -/
def encode : Instr → Selector
  | .aitBuild => .boot 0b001#3
  | .romPreconv => .boot 0b010#3
  | .coreInit => .boot 0b011#3
  | .engLaunch => .boot 0b100#3
  | .ipgStart => .boot 0b101#3
  | .brePoll we => .eng (0b001#3 ++ bit we)
  | .breServe => .eng 0b0001#4
  | .breSkipwr => .eng 0b0000#4
  | .breHold we => .eng (0b010#3 ++ bit we)
  | .breRelease we => .eng (0b011#3 ++ bit we)
  | .breSkiphold we => .eng (0b100#3 ++ bit we)
  | .breSkipend we => .eng (0b101#3 ++ bit we)
  | .swIdle v x => .swf (bit v ++ 0b0000#4 ++ bit x)
  | .swDetect v x => .swf (bit v ++ 0b0001#4 ++ bit x)
  | .swCount v => .swf (bit v ++ 0b00110#5)
  | .swBounce v x => .swf (bit v ++ 0b0010#4 ++ bit x)
  | .swQualify => .swf 0b000111#6
  | .swQlabel => .swf 0b100111#6
  | .swHold v x => .swf (bit v ++ 0b0101#4 ++ bit x)
  | .swUnpress v x => .swf (bit v ++ 0b0100#4 ++ bit x)
  | .swTick v ss btn => .swf (bit v ++ ss.code ++ bit btn ++ 0b0#1)
  | .swRelease btn => .swf (0b0100#4 ++ bit btn ++ 0b1#1)
  | .swShowlabel btn => .swf (0b1100#4 ++ bit btn ++ 0b1#1)
  | .swRealswitch btn => .swf (0b1101#4 ++ bit btn ++ 0b1#1)
  | .swFinalrel btn => .swf (0b1110#4 ++ bit btn ++ 0b1#1)
  | .ipgOff e x => .ipg (0b00#2 ++ bit e ++ bit x)
  | .ipgWait x => .ipg (0b010#3 ++ bit x)
  | .ipgSync x => .ipg (0b011#3 ++ bit x)
  | .ipgHold e => .ipg (0b10#2 ++ bit e ++ 0b0#1)
  | .ipgEnd e => .ipg (0b10#2 ++ bit e ++ 0b1#1)

/-- A row of spec/opcode_table.json: its format and its `mask` and `match`. -/
structure Row where
  format : Format
  mask : Nat
  pattern : Nat
deriving DecidableEq, Repr

/-- The table's row of each operation, in its order. -/
def rowOf : Instr → Row
  | .aitBuild => ⟨.boot, 0x7, 0x1⟩
  | .romPreconv => ⟨.boot, 0x7, 0x2⟩
  | .coreInit => ⟨.boot, 0x7, 0x3⟩
  | .engLaunch => ⟨.boot, 0x7, 0x4⟩
  | .ipgStart => ⟨.boot, 0x7, 0x5⟩
  | .brePoll _ => ⟨.eng, 0xE, 0x2⟩
  | .breServe => ⟨.eng, 0xF, 0x1⟩
  | .breSkipwr => ⟨.eng, 0xF, 0x0⟩
  | .breHold _ => ⟨.eng, 0xE, 0x4⟩
  | .breRelease _ => ⟨.eng, 0xE, 0x6⟩
  | .breSkiphold _ => ⟨.eng, 0xE, 0x8⟩
  | .breSkipend _ => ⟨.eng, 0xE, 0xA⟩
  | .swIdle _ _ => ⟨.swf, 0x1E, 0x0⟩
  | .swDetect _ _ => ⟨.swf, 0x1E, 0x2⟩
  | .swCount _ => ⟨.swf, 0x1F, 0x6⟩
  | .swBounce _ _ => ⟨.swf, 0x1E, 0x4⟩
  | .swQualify => ⟨.swf, 0x3F, 0x7⟩
  | .swQlabel => ⟨.swf, 0x3F, 0x27⟩
  | .swHold _ _ => ⟨.swf, 0x1E, 0xA⟩
  | .swUnpress _ _ => ⟨.swf, 0x1E, 0x8⟩
  | .swTick _ _ _ => ⟨.swf, 0x11, 0x10⟩
  | .swRelease _ => ⟨.swf, 0x3D, 0x11⟩
  | .swShowlabel _ => ⟨.swf, 0x3D, 0x31⟩
  | .swRealswitch _ => ⟨.swf, 0x3D, 0x35⟩
  | .swFinalrel _ => ⟨.swf, 0x3D, 0x39⟩
  | .ipgOff _ _ => ⟨.ipg, 0xC, 0x0⟩
  | .ipgWait _ => ⟨.ipg, 0xE, 0x4⟩
  | .ipgSync _ => ⟨.ipg, 0xE, 0x6⟩
  | .ipgHold _ => ⟨.ipg, 0xD, 0x8⟩
  | .ipgEnd _ => ⟨.ipg, 0xD, 0x9⟩

/-- How many bits of a byte the row of an operation fixes: those of its mask, and those above its format's width,
which are 0. -/
def Row.fixedBits (r : Row) : Nat :=
  ((List.range 8).filter (fun k => r.mask.testBit k)).length +
    match r.format with
    | .boot => 5
    | .eng => 4
    | .swf => 2
    | .ipg => 4

/-- How well a row fits a word: the bits it fixes, and more than any of that when the word is the row's own pattern
(every free bit 0). -/
def Row.fit (r : Row) (w : Nat) : Nat := r.fixedBits + if r.pattern = w then 8 else 0

/-- Of two readings of a word, the one whose row fits it better; the first on a tie. -/
def betterFit (w : Nat) (a b : Option Instr) : Option Instr :=
  match a, b with
  | none, b => b
  | a, none => a
  | some i, some j => if (rowOf i).fit w < (rowOf j).fit w then some j else some i

/-- The decoder's answer as an option. -/
def decodeByte? (f : Format) (b : Byte) : Option Instr :=
  match decodeByte f b with
  | .ok i => some i
  | .error _ => none

/-- The instruction read from a word of the opcode table, `nbits` being the number of bits the table gives its row.
A word does not tell its format, and the four formats share values: 3, 4 and 6 bits name the format (ENG before IPG);
a whole byte is read in the format whose row fits it best, the order being BOOT, IPG, ENG, SWF on a tie (DESIGN CHOICE,
log 12, safe; the machine itself never guesses a format: each agent has its own). -/
def decodeTableWord (nbits w : Nat) : Option Instr :=
  if w < 256 then
    let b := BitVec.ofNat 8 w
    if nbits = 3 then decodeByte? .boot b
    else if nbits = 4 then betterFit w (decodeByte? .eng b) (decodeByte? .ipg b)
    else if nbits = 6 then decodeByte? .swf b
    else
      betterFit w (betterFit w (decodeByte? .boot b) (decodeByte? .ipg b))
        (betterFit w (decodeByte? .eng b) (decodeByte? .swf b))
  else none

end Sys2Proof
end

