-- ==== Sys2Proof/Machine/State.lean ====
section
/-!
DEFINITION. The state of the core (spec/10_state.md), the reasons a step can stop, and the reset state (R39, R215).
All of it is plain data.  Registers and states carry the spec's names; a line level is a `Bool` (true = high).
-/

namespace Sys2Proof.Machine

/-- `ENG_STATE` (R25). -/
inductive EngState where
  | waiting
  | driving
  | skipping
deriving DecidableEq, Repr

/-- `SW_STATE` (R26). -/
inductive SwState where
  | idle
  | debouncing
  | swHold
  | swSettle
  | labelShow
  | finalHold
deriving DecidableEq, Repr

/-- `IPG_STATE` (R27). -/
inductive IpgState where
  | stopped
  | armed
  | asserted
deriving DecidableEq, Repr

/-- `BTN_STATE` (R28). -/
inductive BtnState where
  | released
  | pressed
deriving DecidableEq, Repr

/-- `TMR_ACT` (R30): the target action of the one-shot timer. -/
inductive TmrAct where
  | releaseReset
  | realSwitch
  | finalRelease
deriving DecidableEq, Repr

/-- The step STARTUP performs next (R100): S1 to S5 in order, each once, then none. -/
inductive BootStep where
  | s1
  | s2
  | s3
  | s4
  | s5
  | done
deriving DecidableEq, Repr

/-- PulseTiming (R35): the pair the launch operation latches. -/
structure PulseTiming where
  period : Nat
  width : Nat
deriving DecidableEq, Repr

/-- A table memory: (index, entry) pairs in canonical form (`Memory.wf`), what an unlisted index reads as being the
spec's reset contents (`aitUnlisted`). -/
abbrev TableMem := List (Nat × Addr)

/-- A byte memory: (address, byte) pairs in canonical form (`Memory.wf`), what an unlisted address reads as being the
spec's reset contents (`imgUnlisted`). -/
abbrev ByteMem := List Host.Cell

structure State where
  /-- The configuration of the build (R8): fixed for the machine, written by no step. -/
  cfg : Config
  /-- The boot step STARTUP performs next (R100). -/
  boot : BootStep
  /-- `ENG_LIVE` (R102). -/
  engLive : Bool
  /-- `AIT` (R51): the entries that differ from what the spec gives after startup (R97). -/
  ait : TableMem
  /-- `IMG` (R52, R53): slot s at 16384 s; the bytes that differ from what the spec gives after startup (R39). -/
  img : ByteMem
  /-- `ENG_STATE` (R25). -/
  engState : EngState
  /-- `SNAP` (R21), W bits. -/
  snap : Nat
  /-- `RAW` (R21). -/
  raw : Packed
  /-- `LADDR` (R21). -/
  laddr : Addr
  /-- `OUTBYTE` (R21), line form. -/
  outByte : Byte
  /-- `NMI_PREV` (R28). -/
  nmiPrev : Bool
  /-- `DATA_OUT` (R34): bit j is the level of line `DATA_SLOT[j]`. -/
  dataOut : Byte
  /-- `CUR_IMG` (R29): a bank 0..N-1, or N for the label slot. -/
  curImg : Nat
  /-- `SW_STATE` (R26). -/
  swState : SwState
  /-- `BTN_STATE` (R28). -/
  btnState : BtnState
  /-- `DB_CNT` (R22). -/
  dbCnt : Nat
  /-- `PEND_IDX` (R22). -/
  pendIdx : Nat
  /-- `TMR_ARMED` (R28, R30). -/
  tmrArmed : Bool
  /-- `TMR_REM` (R30). -/
  tmrRem : Nat
  /-- `TMR_ACT` (R30). -/
  tmrAct : TmrAct
  /-- `RESET_OUT` (R34): high holds the host halted. -/
  resetOut : Bool
  /-- `IPG_STATE` (R27). -/
  ipgState : IpgState
  /-- `W_CNT` (R23). -/
  wCnt : Nat
  /-- `INT_PREV` (R23). -/
  intPrev : Bool
  /-- `NMI_OUT` (R34): high is idle, low is asserted. -/
  nmiOut : Bool
  /-- PulseTiming as the launch latched it (R35); `none` while the generator has not been launched. -/
  pulseTiming : Option PulseTiming
  /-- The levels of the physical input lines (R31 to R33, R50): bit L is line L.  HOST sets them. -/
  lines : Nat
  /-- The model's own: the turns already chosen, oldest first (log 6). -/
  sched : List Turn
  /-- The model's own: how many turns have been taken; `Config.hostTurn` is applied to it (log 6). -/
  turnNo : Nat
deriving DecidableEq, Repr

/-- The model's own faults.  The hardware has none (spec/60_exceptions.md R190). -/
inductive Fault where
  /-- Raised by a serve that reads a byte of the label slot no label build has written ("unspecified", R39; U19: "a
  read before the write would be a fault of the model, and no rule performs one").  Safe: the model stops. -/
  | unspecifiedByte (slot : Nat) (offset : Nat)
  /-- Raised by a serve from a slot that does not exist (R56 requires `s <= N`, `s < N` unless two-phase).  Safe: the
  model stops. -/
  | noSuchSlot (slot : Nat)
deriving DecidableEq, Repr

/-- Why the model does not take a step at all. -/
inductive Refusal where
  /-- Raised by `exec` for an instruction without a meaning; no arm answers so.  Safe. -/
  | notModelled (mnemonic : String)
  /-- Raised by `step` and by `AIT.BUILD` for a configuration R9 does not admit ("the model refuses any other").
  Safe. -/
  | illFormedConfig
  /-- Raised by `step` when control state and snapshot form a selector no row matches (R82: unreachable; "a decoder
  over raw bits should refuse them").  Safe. -/
  | reservedSelector (r : Reserved)
deriving DecidableEq, Repr

/-- The reset state of a build with configuration `c` (R39, R215): the state once S1 to S5 have run, S5 having taken
the snapshot `lines`.  Both memories hold the reset contents, so nothing is listed.  The registers R39 leaves
unspecified (`SNAP`, `RAW`, `LADDR`, `OUTBYTE`, `DATA_OUT`, `PEND_IDX`, `TMR_REM`, `TMR_ACT`, and `INT_PREV` where S5
does not write it) hold 0: DESIGN CHOICE (logs 3 and 4), unsafe. -/
def State.resetOf (c : Config) (lines : Nat) : State where
  cfg := c
  boot := .done
  engLive := true
  ait := []
  img := []
  engState := .waiting
  snap := 0
  raw := 0
  laddr := 0
  outByte := 0
  nmiPrev := false
  dataOut := 0
  curImg := 0
  swState := .idle
  btnState := .released
  dbCnt := 0
  pendIdx := 0
  tmrArmed := false
  tmrRem := 0
  tmrAct := .releaseReset
  resetOut := false
  ipgState := if c.ipgVariant = .autonomous then .armed else .stopped
  wCnt := 0
  intPrev := if c.ipgVariant = .autonomous then (BitVec.ofNat c.w lines).getLsbD c.lInt else false
  nmiOut := true
  pulseTiming := if c.ipgVariant = .autonomous then some ⟨c.pulsePeriod, c.pulseWidth⟩ else none
  lines := lines
  sched := []
  turnNo := 0

/-- The reset state of the machine: that of the reference build, launched with the lines idle (logs 1, 2, 4). -/
def State.reset : State := State.resetOf Config.refcfg Config.idleLines

end Sys2Proof.Machine
end

