-- ==== Sys2Proof/Machine/Operands.lean ====
section
/-!
DEFINITION. The pure functions of a configuration that operations use (spec/30_encoding.md R80): scatter, pack, the
table's closed form, preconv, place, the images, the label and the trigger table.
-/

namespace Sys2Proof.Machine

/-- The n-bit word whose bit i is `f i`. -/
def ofBits : (n : Nat) → (Nat → Bool) → BitVec n
  | 0, _ => 0#0
  | n + 1, f => BitVec.cons (f n) (ofBits n f)

/-- `scatter(a)` (R91): bit `ADDR_LINE[i]` is `a[i]`, every other bit 0. -/
def scatter (c : Config) (a : Addr) : BitVec c.w :=
  ofBits c.w (fun l => a.getLsbD (c.addrLine.toList.idxOf l))

/-- `pack(s)` (R92): bit k is `s[PACK_POS[k]]`. -/
def pack (c : Config) (s : BitVec c.w) : Packed :=
  ofBits 14 (fun k => s.getLsbD (c.packPos.toList.getD k 0))

/-- `sigma(k)` (R93): the i with `ADDR_LINE[i] = PACK_POS[k]`. -/
def sigma (c : Config) (k : Nat) : Nat :=
  c.addrLine.toList.idxOf (c.packPos.toList.getD k 0)

/-- The closed form of the table (R97): bit i of the entry at r is bit `sigma^-1(i)` of r. -/
def aitEntry (c : Config) (r : Packed) : Addr :=
  ofBits 14 (fun i => r.getLsbD (c.packPos.toList.idxOf (c.addrLine.toList.getD i 0)))

/-- `ADDR_MASK` (R92): the word with exactly the bits `ADDR_LINE[0..13]` set. -/
def addrMask (c : Config) : BitVec c.w :=
  ofBits c.w (fun l => c.addrLine.toList.contains l)

/-- `P(i)` (R98): the j with `DATA_SLOT[j] = DATA_LINE[i]`. -/
def dataPerm (c : Config) (i : Nat) : Nat :=
  c.dataSlot.toList.idxOf (c.dataLine.toList.getD i 0)

/-- `preconv(b)` (R98): bit `P(i)` of the result is `b[i]`; so bit j is the bit i with `DATA_LINE[i] = DATA_SLOT[j]`. -/
def preconv (c : Config) (b : Byte) : Byte :=
  ofBits 8 (fun j => b.getLsbD (c.dataLine.toList.idxOf (c.dataSlot.toList.getD j 0)))

/-- `place(b)` (R74): bit `DATA_SLOT[j]` is `b[j]`, every other bit 0. -/
def place (c : Config) (b : Byte) : BitVec c.w :=
  ofBits c.w (fun l => b.getLsbD (c.dataSlot.toList.idxOf l))

/-- `DATA_MASK` (R74): the word with exactly the bits `DATA_SLOT[0..7]` set. -/
def dataMask (c : Config) : BitVec c.w :=
  ofBits c.w (fun l => c.dataSlot.toList.contains l)

/-- The byte of an image at an offset (log 19). -/
def imageByte (m : Image) (a : Nat) : Byte :=
  match m with
  | [] => 0
  | (k, v) :: m => if k = a then v else imageByte m a

/-- `ROM_LOGICAL[b][a]` (R8). -/
def romLogical (c : Config) (b : Nat) (a : Addr) : Byte :=
  imageByte (c.rom.getD b []) a.toNat

/-- `label_logical(b)[a]` (R152): the patch of bank b inside its window, the announcement image elsewhere. -/
def labelLogical (c : Config) (b : Nat) (a : Addr) : Byte :=
  if c.labelOffset ≤ a.toNat ∧ a.toNat < c.labelOffset + c.labelLen then
    (c.labelPatch.getD b []).getD (a.toNat - c.labelOffset) 0
  else imageByte c.announce a.toNat

/-- `label(b)[a]` (R152): the line-form label image. -/
def label (c : Config) (b : Nat) (a : Addr) : Byte :=
  preconv c (labelLogical c b a)

/-- `trig(a, c)` (R122): the target bank of the entry whose address is a, or the current bank when none is. -/
def trig (c : Config) (a : Addr) (cur : Nat) : Nat :=
  match c.trigTable.find? (fun e => e.1 == a) with
  | some e => e.2
  | none => cur

/-- `NMI_COND(a)` (R8, R121). -/
def nmiCond (c : Config) (a : Addr) : Bool :=
  c.nmiCond.contains a

/-- Where byte `off` of slot s lies in the byte memory. -/
def imgAddr (s off : Nat) : Nat := imageSize * s + off

/-- What an unlisted table index reads as: the reset contents (R39, R97). -/
def aitUnlisted (c : Config) (r : Nat) : Option Addr :=
  some (aitEntry c (BitVec.ofNat 14 r))

/-- What an unlisted image address reads as: for a bank the reset contents `preconv(ROM_LOGICAL[b][a])`, for the label
slot (and beyond the slots) no value (R39). -/
def imgUnlisted (c : Config) (a : Nat) : Option Byte :=
  if a / imageSize < c.n then
    some (preconv c (romLogical c (a / imageSize) (BitVec.ofNat 14 (a % imageSize))))
  else none

/-- The slots of the image store (R36, R53): N banks, and the label slot in the two-phase variant. -/
def slotCount (c : Config) : Nat :=
  if c.switchVariant = .twoPhase then c.n + 1 else c.n

/-- `edge(p, c)` (R173). -/
def edge (e : SyncEdge) (p c : Bool) : Bool :=
  match e with
  | .falling => p && !c
  | .rising => !p && c
  | .both => p != c

/-- `(CUR_IMG + 1) mod N` (R80 (f)). -/
def nextBank (c : Config) (cur : Nat) : Nat := (cur + 1) % c.n

end Sys2Proof.Machine
end

