-- ==== Sys2Proof/Machine/Flags.lean ====
section
/-!
DEFINITION. Sampling, and every condition bit a selector is formed from (spec/30_encoding.md R76 to R78).  The core has
no condition codes (spec/10_state.md R28); its three flags are the fields `btnState`, `nmiPrev` and `tmrArmed`, which
operations write directly.
-/

namespace Sys2Proof.Machine

/-- `sample()` (R13): all W input lines at one instant. -/
def sample (s : State) : BitVec s.cfg.w := BitVec.ofNat s.cfg.w s.lines

/-- `s[L]`: the level of one line in the snapshot of this step. -/
def level (s : State) (l : Nat) : Bool := (sample s).getLsbD l

/-- `strobe(s)` (R111): the read-access strobe is asserted, `s[L_RD] = 0`. -/
def strobe (s : State) : Bool := !level s s.cfg.lRd

/-- The `we` bit of the ENG selector (R76): `s[L_WE]` when `HAS_WE`, else 1. -/
def weLevel (s : State) : Bool := if s.cfg.hasWe then level s s.cfg.lWe else true

/-- `wr(s)` (R111): `HAS_WE` and the write-enable line is asserted. -/
def wr (s : State) : Bool := !weLevel s

/-- `btn` (R77). -/
def btn (s : State) : Bool := level s s.cfg.lBtn

/-- `INT_IN` (R33). -/
def intIn (s : State) : Bool := level s s.cfg.lInt

/-- The `v` bit of the SWF selector (R77). -/
def variantBit (s : State) : Bool := s.cfg.switchVariant == .twoPhase

/-- The `x` bit of the SWF selector (R77): qualification in `Debouncing`, expiry in the timed states, else 0. -/
def swExpiry (s : State) : Bool :=
  match s.swState with
  | .idle => false
  | .debouncing => decide (s.cfg.q ≤ s.dbCnt + 1)
  | .swHold => false
  | .swSettle => decide (s.tmrRem = 1)
  | .labelShow => decide (s.tmrRem = 1)
  | .finalHold => decide (s.tmrRem = 1)

/-- The `e` bit of the IPG selector (R78): a transition in `Armed` and `Asserted`; 0 in `Stopped`. -/
def syncSeen (s : State) : Bool :=
  match s.ipgState with
  | .stopped => false
  | .armed => edge s.cfg.syncEdge s.intPrev (intIn s)
  | .asserted => edge s.cfg.syncEdge s.intPrev (intIn s)

/-- The `x` bit of the IPG selector (R78): `W_CNT + 1 >= PULSE_WIDTH`. -/
def widthDone (s : State) : Bool := decide (s.cfg.pulseWidth ≤ s.wCnt + 1)

end Sys2Proof.Machine
end

