-- ==== Sys2Proof/Machine/Ops.lean ====
section
/-!
DEFINITION. The named operations over memories and registers.

The core raises no exception and has no trap entry and no return (spec/60_exceptions.md R190, R200, R201), so there is
no such operation here.  What has the shape of a handler is the deferred action of Context B: `State.arm` (R150).
-/

namespace Sys2Proof.Machine

/-- The canonical form: indices strictly rising and below `size`, and no entry equal to what its index reads as when it
is not listed. -/
def Memory.wf {α : Type} [DecidableEq α] (unlisted : Nat → Option α) (size : Nat) : List (Nat × α) → Bool
  | [] => true
  | (k, v) :: m =>
    decide (k < size) && decide (unlisted k ≠ some v) && m.all (fun e => decide (k < e.1)) && Memory.wf unlisted size m

/-- Reading one entry. -/
def Memory.read {α : Type} (unlisted : Nat → Option α) : List (Nat × α) → Nat → Option α
  | [], a => unlisted a
  | (k, v) :: m, a => if k = a then some v else Memory.read unlisted m a

/-- Taking an index out of the list. -/
def Memory.erase {α : Type} : List (Nat × α) → Nat → List (Nat × α)
  | [], _ => []
  | (k, v) :: m, a => if k = a then Memory.erase m a else (k, v) :: Memory.erase m a

/-- Putting an entry into the list at its place. -/
def Memory.insert {α : Type} : List (Nat × α) → Nat → α → List (Nat × α)
  | [], a, v => [(a, v)]
  | (k, w) :: m, a, v =>
    if a < k then (a, v) :: (k, w) :: m
    else if a = k then (a, v) :: m
    else (k, w) :: Memory.insert m a v

/-- `MemWrite` (R12): writing what the index reads as when unlisted takes it out of the list. -/
def Memory.write {α : Type} [DecidableEq α] (unlisted : Nat → Option α) (m : List (Nat × α)) (a : Nat) (v : α) :
    List (Nat × α) :=
  if unlisted a = some v then Memory.erase m a else Memory.insert m a v

/-- The loop `for a in 0 .. n-1: m[base + a] <- f(a)`. -/
def Memory.fill {α : Type} [DecidableEq α] (unlisted : Nat → Option α) (base : Nat) (f : Nat → α) :
    Nat → List (Nat × α) → List (Nat × α)
  | 0, m => m
  | n + 1, m => Memory.write unlisted (Memory.fill unlisted base f n m) (base + n) (f n)

/-- The loop `for a in 0 .. n-1: m[base + a] <- g(m[base + a])`, in place. -/
def Memory.mapInPlace {α : Type} [DecidableEq α] (unlisted : Nat → Option α) (base : Nat) (g : α → α) :
    Nat → List (Nat × α) → List (Nat × α)
  | 0, m => m
  | n + 1, m =>
    let m := Memory.mapInPlace unlisted base g n m
    match Memory.read unlisted m (base + n) with
    | some v => Memory.write unlisted m (base + n) (g v)
    | none => m

/-- The loop of `AIT.BUILD` (R94) over the first n addresses: `AIT[pack(scatter(a))] <- a`. -/
def buildTable (c : Config) : Nat → TableMem → TableMem
  | 0, m => m
  | n + 1, m =>
    Memory.write (aitUnlisted c) (buildTable c n m) (pack c (scatter c (BitVec.ofNat 14 n))).toNat (BitVec.ofNat 14 n)

/-- The loop of `ROM.PRECONV` (R99) over the first n banks: every byte of each, in place. -/
def preconvBanks (c : Config) : Nat → ByteMem → ByteMem
  | 0, m => m
  | n + 1, m => Memory.mapInPlace (imgUnlisted c) (imgAddr n 0) (preconv c) imageSize (preconvBanks c n m)

/-- `MemRead(AIT, r, 1)` (R56), the lookup of R96.  Every index reads as an entry. -/
def lookup (s : State) (r : Packed) : Addr :=
  (Memory.read (aitUnlisted s.cfg) s.ait r.toNat).getD 0

/-- Byte `off` of slot `slot`, or `none` where it has no value. -/
def imgRead (s : State) (slot : Nat) (off : Addr) : Option Byte :=
  Memory.read (imgUnlisted s.cfg) s.img (imgAddr slot off.toNat)

/-- `MemRead(IMG[c], a, 1)` (R56, R113): the slot must exist and the byte have a value. -/
def fetchByte (s : State) (slot : Nat) (a : Addr) : Except Fault Byte :=
  if slot < slotCount s.cfg then
    match imgRead s slot a with
    | some b => .ok b
    | none => .error (.unspecifiedByte slot a.toNat)
  else .error (.noSuchSlot slot)

/-- `arm(d, act)` (R150). -/
def State.arm (s : State) (d : Nat) (act : TmrAct) : State :=
  { s with tmrArmed := true, tmrRem := d, tmrAct := act }

/-- `inline_pulse(a)` (R121): `NMI_OUT` and `NMI_PREV` after it.  Deassertion wins over assertion (R199). -/
def inlinePulse (s : State) (a : Addr) : Bool × Bool :=
  if s.nmiPrev then (true, false)
  else if nmiCond s.cfg a then (false, true)
  else (s.nmiOut, s.nmiPrev)

/-- The write of every byte of the label slot (R147): `IMG[N][a] <- label(b)[a]`. -/
def State.buildLabel (s : State) (b : Nat) : State :=
  let byteAt (a : Nat) : Byte := label s.cfg b (BitVec.ofNat 14 a)
  { s with img := Memory.fill (imgUnlisted s.cfg) (imgAddr s.cfg.n 0) byteAt imageSize s.img }

/-- The output lines as a W-bit word: `place(DATA_OUT)` on the data slots (R74, R115). -/
def dataLines (s : State) : BitVec s.cfg.w := place s.cfg s.dataOut

/-- The byte a host reads: bit i from line `DATA_LINE[i]` (R232). -/
def hostByte (s : State) : Byte :=
  ofBits 8 (fun i => (dataLines s).getLsbD (s.cfg.dataLine.toList.getD i 0))

end Sys2Proof.Machine
end

