-- ==== Sys2Proof/Machine/Engine.lean ====
section
/-!
DEFINITION. The operations of ENGINE (spec/41_bus_response_engine.md).  The condition of an operation is what its
selector says; the operand bits are don't-cares (R83).
-/

namespace Sys2Proof.Machine

/-- What every ENGINE operation but the serve does: `SNAP <- s`, then the next control state. -/
def engineTo (s : State) (e : EngState) : State := { s with snap := (sample s).toNat, engState := e }

/-- `BRE.POLL` (R112). -/
def execBrePoll (_we : Bool) (s : State) : Host.Outcome State Fault Refusal :=
  .next (engineTo s .waiting)

/-- The image the serve of address a fetches from (R114): the selector is read once, after the trigger when
`TRIG_ORDER = switch_then_fetch`. -/
def serveSlot (s : State) (a : Addr) : Nat :=
  if s.cfg.switchSource = .address ∧ s.cfg.trigOrder = .switchThenFetch then trig s.cfg a s.curImg else s.curImg

/-- The image selected after the serve of address a (R114, R122): the trigger acts in either order. -/
def servedImg (s : State) (a : Addr) : Nat :=
  if s.cfg.switchSource = .address then trig s.cfg a s.curImg else s.curImg

/-- `NMI_OUT` and `NMI_PREV` after the serve of address a (R114): `inline_pulse` in the inline variant only. -/
def servedPulse (s : State) (a : Addr) : Bool × Bool :=
  if s.cfg.ipgVariant = .inline then inlinePulse s a else (s.nmiOut, s.nmiPrev)

/-- The writes of a serve that fetched byte b of address a (R114).  The drive writes the eight data slots, and no other
line, in one write (R115); the selector is written indivisibly (R60). -/
def served (s : State) (a : Addr) (b : Byte) : State :=
  { s with
    snap := (sample s).toNat, raw := pack s.cfg (sample s), laddr := a, outByte := b
    dataOut := b, curImg := servedImg s a
    nmiOut := (servedPulse s a).1, nmiPrev := (servedPulse s a).2
    engState := .driving }

/-- `BRE.SERVE` (R114): resolve, fetch, drive. -/
def execBreServe (s : State) : Host.Outcome State Fault Refusal :=
  let a := lookup s (pack s.cfg (sample s))
  match fetchByte s (serveSlot s a) a with
  | .ok b => .next (served s a b)
  | .error f => .fault f

/-- `BRE.SKIPWR` (R116). -/
def execBreSkipwr (s : State) : Host.Outcome State Fault Refusal :=
  .next (engineTo s .skipping)

/-- `BRE.HOLD` (R117). -/
def execBreHold (_we : Bool) (s : State) : Host.Outcome State Fault Refusal :=
  .next (engineTo s .driving)

/-- `BRE.RELEASE` (R118): `DATA_OUT` keeps the last byte driven. -/
def execBreRelease (_we : Bool) (s : State) : Host.Outcome State Fault Refusal :=
  .next (engineTo s .waiting)

/-- `BRE.SKIPHOLD` (R119). -/
def execBreSkiphold (_we : Bool) (s : State) : Host.Outcome State Fault Refusal :=
  .next (engineTo s .skipping)

/-- `BRE.SKIPEND` (R120). -/
def execBreSkipend (_we : Bool) (s : State) : Host.Outcome State Fault Refusal :=
  .next (engineTo s .waiting)

end Sys2Proof.Machine
end

