-- ==== Sys2Proof/Machine/Pulse.lean ====
section
/-!
DEFINITION. The operations of IPG, the reference sequencer of spec/43_interrupt_pulse.md (R174 to R178; log 16).  The
condition of an operation is what its selector says; the operand bits are don't-cares (R83).
-/

namespace Sys2Proof.Machine

/-- `IPG.OFF` (R174): nothing changes, not even `INT_PREV`. -/
def execIpgOff (_e _x : Bool) (s : State) : Host.Outcome State Fault Refusal :=
  .next s

/-- `IPG.WAIT` (R175). -/
def execIpgWait (_x : Bool) (s : State) : Host.Outcome State Fault Refusal :=
  .next { s with intPrev := intIn s, ipgState := .armed }

/-- `IPG.SYNC` (R176). -/
def execIpgSync (_x : Bool) (s : State) : Host.Outcome State Fault Refusal :=
  .next { s with nmiOut := false, wCnt := 0, intPrev := intIn s, ipgState := .asserted }

/-- `IPG.HOLD` (R177). -/
def execIpgHold (_e : Bool) (s : State) : Host.Outcome State Fault Refusal :=
  .next { s with wCnt := s.wCnt + 1, intPrev := intIn s, ipgState := .asserted }

/-- `IPG.END` (R178). -/
def execIpgEnd (_e : Bool) (s : State) : Host.Outcome State Fault Refusal :=
  .next { s with nmiOut := true, wCnt := 0, intPrev := intIn s, ipgState := .armed }

end Sys2Proof.Machine
end

