-- ==== Sys2Proof/Machine/Startup.lean ====
section
/-!
DEFINITION. The five boot steps of STARTUP (spec/40_line_maps_and_tables.md sections 2 to 4, spec/43 R172).
-/

namespace Sys2Proof.Machine

/-- `AIT.BUILD` (R94).  It is not defined for a configuration R9 does not admit (95 section 3.1), and refused there. -/
def execAitBuild (s : State) : Host.Outcome State Fault Refusal :=
  if s.cfg.admitted then .next { s with ait := buildTable s.cfg imageSize s.ait }
  else .refused .illFormedConfig

/-- `ROM.PRECONV` (R99): every byte of every bank, in place; the label slot is not written (log 11). -/
def execRomPreconv (s : State) : Host.Outcome State Fault Refusal :=
  .next { s with img := preconvBanks s.cfg s.cfg.n s.img }

/-- `CORE.INIT` (R101): every element with a stated reset value; the unspecified ones are left unwritten. -/
def execCoreInit (s : State) : Host.Outcome State Fault Refusal :=
  .next { s with
    curImg := 0, engState := .waiting, nmiPrev := false
    resetOut := false, nmiOut := true
    swState := .idle, btnState := .released, dbCnt := 0, tmrArmed := false
    ipgState := .stopped, wCnt := 0 }

/-- `ENG.LAUNCH` (R102): ENGINE may step from now on. -/
def execEngLaunch (s : State) : Host.Outcome State Fault Refusal :=
  .next { s with engLive := true }

/-- `IPG.START` (R172): in the autonomous variant, launch the sequencer and latch its timing (R35, log 15); in the
others, nothing. -/
def execIpgStart (s : State) : Host.Outcome State Fault Refusal :=
  if s.cfg.ipgVariant = .autonomous then
    .next { s with
      nmiOut := true, wCnt := 0, intPrev := intIn s, ipgState := .armed
      pulseTiming := some ⟨s.cfg.pulsePeriod, s.cfg.pulseWidth⟩ }
  else .next s

end Sys2Proof.Machine
end

