-- ==== Sys2Proof/Machine/Switch.lean ====
section
/-!
DEFINITION. The operations of SWITCH (spec/42_switch_fsm.md).  The condition of an operation is what its selector says;
the operand bits are don't-cares (R83).
-/

namespace Sys2Proof.Machine

/-- `SW.IDLE` (R142): nothing changes. -/
def execSwIdle (_v _x : Bool) (s : State) : Host.Outcome State Fault Refusal :=
  .next { s with swState := .idle }

/-- `SW.DETECT` (R143). -/
def execSwDetect (_v _x : Bool) (s : State) : Host.Outcome State Fault Refusal :=
  .next { s with dbCnt := 1, swState := .debouncing }

/-- `SW.COUNT` (R144). -/
def execSwCount (_v : Bool) (s : State) : Host.Outcome State Fault Refusal :=
  .next { s with dbCnt := s.dbCnt + 1, swState := .debouncing }

/-- `SW.BOUNCE` (R145). -/
def execSwBounce (_v _x : Bool) (s : State) : Host.Outcome State Fault Refusal :=
  .next { s with dbCnt := 0, swState := .idle }

/-- `SW.QUALIFY` (R146): assert reset and advance the bank, in one step. -/
def execSwQualify (s : State) : Host.Outcome State Fault Refusal :=
  .next { s with
    resetOut := true, curImg := nextBank s.cfg s.curImg
    btnState := .pressed, dbCnt := 0, swState := .swHold }

/-- `SW.QLABEL` (R147): assert reset, build the label of the upcoming bank and select the label slot, in one step. -/
def execSwQlabel (s : State) : Host.Outcome State Fault Refusal :=
  let p := nextBank s.cfg s.curImg
  .next { s.buildLabel p with
    resetOut := true, pendIdx := p, curImg := s.cfg.n
    btnState := .pressed, dbCnt := 0, swState := .swHold }

/-- `SW.HOLD` (R148): nothing changes. -/
def execSwHold (_v _x : Bool) (s : State) : Host.Outcome State Fault Refusal :=
  .next { s with swState := .swHold }

/-- `SW.UNPRESS` (R149). -/
def execSwUnpress (_v _x : Bool) (s : State) : Host.Outcome State Fault Refusal :=
  .next { s.arm s.cfg.settleDelay .releaseReset with btnState := .released, swState := .swSettle }

/-- `SW.TICK` (R151): `SW_STATE` is unchanged. -/
def execSwTick (_v : Bool) (_ss : TimedState) (_btn : Bool) (s : State) : Host.Outcome State Fault Refusal :=
  .next { s with tmrRem := s.tmrRem - 1 }

/-- `SW.RELEASE` (R153). -/
def execSwRelease (_btn : Bool) (s : State) : Host.Outcome State Fault Refusal :=
  .next { s with resetOut := false, tmrArmed := false, swState := .idle }

/-- `SW.SHOWLABEL` (R154). -/
def execSwShowlabel (_btn : Bool) (s : State) : Host.Outcome State Fault Refusal :=
  .next { s.arm s.cfg.labelDisplay .realSwitch with resetOut := false, swState := .labelShow }

/-- `SW.REALSWITCH` (R155). -/
def execSwRealswitch (_btn : Bool) (s : State) : Host.Outcome State Fault Refusal :=
  .next { s.arm s.cfg.resetHold .finalRelease with resetOut := true, curImg := s.pendIdx, swState := .finalHold }

/-- `SW.FINALREL` (R156). -/
def execSwFinalrel (_btn : Bool) (s : State) : Host.Outcome State Fault Refusal :=
  .next { s with resetOut := false, tmrArmed := false, swState := .idle }

end Sys2Proof.Machine
end

