-- ==== Sys2Proof/Machine/Dispatch.lean ====
section
/-!
DEFINITION. One arm per operation (spec/30_encoding.md R81), each a direct call of its meaning.
-/

namespace Sys2Proof.Machine

def exec (i : Instr) (s : State) : Host.Outcome State Fault Refusal :=
  match i with
  | .aitBuild => Sys2Proof.Machine.execAitBuild s
  | .romPreconv => Sys2Proof.Machine.execRomPreconv s
  | .coreInit => Sys2Proof.Machine.execCoreInit s
  | .engLaunch => Sys2Proof.Machine.execEngLaunch s
  | .ipgStart => Sys2Proof.Machine.execIpgStart s
  | .brePoll we => Sys2Proof.Machine.execBrePoll we s
  | .breServe => Sys2Proof.Machine.execBreServe s
  | .breSkipwr => Sys2Proof.Machine.execBreSkipwr s
  | .breHold we => Sys2Proof.Machine.execBreHold we s
  | .breRelease we => Sys2Proof.Machine.execBreRelease we s
  | .breSkiphold we => Sys2Proof.Machine.execBreSkiphold we s
  | .breSkipend we => Sys2Proof.Machine.execBreSkipend we s
  | .swIdle v x => Sys2Proof.Machine.execSwIdle v x s
  | .swDetect v x => Sys2Proof.Machine.execSwDetect v x s
  | .swCount v => Sys2Proof.Machine.execSwCount v s
  | .swBounce v x => Sys2Proof.Machine.execSwBounce v x s
  | .swQualify => Sys2Proof.Machine.execSwQualify s
  | .swQlabel => Sys2Proof.Machine.execSwQlabel s
  | .swHold v x => Sys2Proof.Machine.execSwHold v x s
  | .swUnpress v x => Sys2Proof.Machine.execSwUnpress v x s
  | .swTick v ss btn => Sys2Proof.Machine.execSwTick v ss btn s
  | .swRelease btn => Sys2Proof.Machine.execSwRelease btn s
  | .swShowlabel btn => Sys2Proof.Machine.execSwShowlabel btn s
  | .swRealswitch btn => Sys2Proof.Machine.execSwRealswitch btn s
  | .swFinalrel btn => Sys2Proof.Machine.execSwFinalrel btn s
  | .ipgOff e x => Sys2Proof.Machine.execIpgOff e x s
  | .ipgWait x => Sys2Proof.Machine.execIpgWait x s
  | .ipgSync x => Sys2Proof.Machine.execIpgSync x s
  | .ipgHold e => Sys2Proof.Machine.execIpgHold e s
  | .ipgEnd e => Sys2Proof.Machine.execIpgEnd e s

end Sys2Proof.Machine
end

