-- ==== Sys2Proof/Machine/Fetch.lean ====
section
/-!
DEFINITION. How the next operation is chosen: the turn, the selector an agent forms (spec/30_encoding.md R76 to R79),
and the placing of a selector for the next step.  The core fetches no instruction (spec/10_state.md R24): an agent's
next operation is decided by its control state and one snapshot.
-/

namespace Sys2Proof.Machine

/-- The turn that comes next: the oldest one listed, or the free value when none is (log 6). -/
def State.nextTurn (s : State) : Turn :=
  match s.sched with
  | t :: _ => t
  | [] => Config.hostTurn s.turnNo

/-- HOST puts the turn's levels on the lines, and the turn is spent. -/
def State.takeTurn (s : State) : State :=
  { s with lines := s.nextTurn.lines, sched := s.sched.tail, turnNo := s.turnNo + 1 }

/-- The ordinal of a boot step (R79). -/
def BootStep.ordinal : BootStep → Option (BitVec 3)
  | .s1 => some 1
  | .s2 => some 2
  | .s3 => some 3
  | .s4 => some 4
  | .s5 => some 5
  | .done => none

/-- The boot step after this one (R100). -/
def BootStep.succ : BootStep → BootStep
  | .s1 => .s2
  | .s2 => .s3
  | .s3 => .s4
  | .s4 => .s5
  | .s5 => .done
  | .done => .done

/-- The code of `ENG_STATE` (R75). -/
def EngState.code : EngState → BitVec 2
  | .waiting => 0b00
  | .driving => 0b01
  | .skipping => 0b10

/-- The code of `SW_STATE` (R75). -/
def SwState.code : SwState → BitVec 3
  | .idle => 0b000
  | .debouncing => 0b001
  | .swHold => 0b010
  | .swSettle => 0b100
  | .labelShow => 0b101
  | .finalHold => 0b110

/-- The code of `IPG_STATE` (R75). -/
def IpgState.code : IpgState → BitVec 2
  | .stopped => 0b00
  | .armed => 0b01
  | .asserted => 0b10

/-- The `ENG` selector (R76). -/
def engSelector (s : State) : BitVec 4 :=
  s.engState.code ++ bit (level s s.cfg.lRd) ++ bit (weLevel s)

/-- The `SWF` selector (R77). -/
def swfSelector (s : State) : BitVec 6 :=
  bit (variantBit s) ++ s.swState.code ++ bit (btn s) ++ bit (swExpiry s)

/-- The `IPG` selector (R78). -/
def ipgSelector (s : State) : BitVec 4 :=
  s.ipgState.code ++ bit (syncSeen s) ++ bit (widthDone s)

/-- The selector an agent forms from the state, or none where it has no step: STARTUP after S5 (R100), ENGINE before
`ENG.LAUNCH` (R102), SWITCH before S5 ends (R100) or with `SWITCH_SOURCE = address` (file 42, opening), IPG unless
`IPG_VARIANT = autonomous` (file 43, opening), and HOST, which only sets lines (R3). -/
def selectorOf (s : State) : Agent → Option Selector
  | .startup => s.boot.ordinal.map Selector.boot
  | .engine => if s.engLive then some (.eng (engSelector s)) else none
  | .switch => if s.boot = .done ∧ s.cfg.switchSource = .button then some (.swf (swfSelector s)) else none
  | .ipg => if s.cfg.ipgVariant = .autonomous then some (.ipg (ipgSelector s)) else none
  | .host => none

/-- STARTUP moves on by its own order (R100); the other agents do not. -/
def State.passBoot (s : State) : Agent → State
  | .startup => { s with boot := s.boot.succ }
  | .engine => s
  | .switch => s
  | .ipg => s
  | .host => s

/-- The idle word with one line at a given level. -/
def setLine (word l : Nat) (b : Bool) : Nat :=
  if b then word ||| 2 ^ l else word ^^^ (word &&& 2 ^ l)

/-- The agent whose selector has this format. -/
def Selector.agent : Selector → Agent
  | .boot _ => .startup
  | .eng _ => .engine
  | .swf _ => .switch
  | .ipg _ => .ipg

/-- The boot step with an ordinal. -/
def bootOf (w : BitVec 3) : BootStep :=
  if w = 1 then .s1 else if w = 2 then .s2 else if w = 3 then .s3 else if w = 4 then .s4
  else if w = 5 then .s5 else .done

/-- The engine state with a code. -/
def engOf (w : BitVec 2) : EngState :=
  if w = 1 then .driving else if w = 2 then .skipping else .waiting

/-- The switch state with a code. -/
def swOf (w : BitVec 3) : SwState :=
  if w = 1 then .debouncing else if w = 2 then .swHold else if w = 4 then .swSettle
  else if w = 5 then .labelShow else if w = 6 then .finalHold else .idle

/-- The generator state with a code. -/
def ipgOf (w : BitVec 2) : IpgState :=
  if w = 1 then .armed else if w = 2 then .asserted else .stopped

/-- The levels of the previous and the current sample with which `edge` answers e. -/
def edgeLevels (k : SyncEdge) (e : Bool) : Bool × Bool :=
  match k with
  | .falling => (true, !e)
  | .rising => (false, e)
  | .both => (true, !e)

/-- The control state, the build's variant and the levels of the lines with which the agent of a selector forms that
selector at the next step, and its turn put first (log 13).  An ENG word with `we = 0` needs `HAS_WE`; an SWF word needs
the button and its variant; an IPG word needs the autonomous variant.  A bit that is formed as 0 in the word's state
(`x` in `Idle` and `SwHold`, `e` in `Stopped`) stays 0. -/
def State.placeSelector (s : State) (w : Selector) : State :=
  let idle := Config.idleLines
  match w with
  | .boot o => { s with boot := bootOf o, sched := ⟨.startup, idle⟩ :: s.sched }
  | .eng o =>
    let lines := setLine (setLine idle s.cfg.lRd (o.getLsbD 1)) s.cfg.lWe (o.getLsbD 0)
    { s with
      cfg := { s.cfg with hasWe := s.cfg.hasWe || !o.getLsbD 0 }
      engLive := true, engState := engOf (o.extractLsb' 2 2)
      sched := ⟨.engine, lines⟩ :: s.sched }
  | .swf o =>
    let lines := setLine idle s.cfg.lBtn (o.getLsbD 1)
    { s with
      cfg := { s.cfg with
        switchSource := .button
        switchVariant := if o.getLsbD 5 then .twoPhase else .immediate }
      boot := .done, swState := swOf (o.extractLsb' 2 3)
      dbCnt := if o.getLsbD 0 then s.cfg.q - 1 else 0
      tmrRem := if o.getLsbD 0 then 1 else 2
      sched := ⟨.switch, lines⟩ :: s.sched }
  | .ipg o =>
    let ends := edgeLevels s.cfg.syncEdge (o.getLsbD 1)
    let lines := setLine idle s.cfg.lInt ends.2
    { s with
      cfg := { s.cfg with ipgVariant := .autonomous }
      ipgState := ipgOf (o.extractLsb' 2 2), intPrev := ends.1
      wCnt := if o.getLsbD 0 then s.cfg.pulseWidth - 1 else 0
      sched := ⟨.ipg, lines⟩ :: s.sched }

end Sys2Proof.Machine
end

