-- ==== Sys2Proof/Machine/Step.lean ====
section
/-!
DEFINITION. One step: a turn is taken, its agent forms its selector, the selector is decoded and the one operation it
names is performed (spec/00_scope.md R14, spec/30_encoding.md R81).
-/

namespace Sys2Proof.Machine

/-- One step of the machine.  A configuration R9 does not admit is refused.  A turn of an agent that has no step now
only changes the lines (log 7). -/
def step (s : State) : Host.Outcome State Fault Refusal :=
  if s.cfg.admitted then
    let s1 := s.takeTurn
    let g := s.nextTurn.agent
    match selectorOf s1 g with
    | none => .next s1
    | some w =>
      match decode w with
      | .ok i => exec i (s1.passBoot g)
      | .error r => .refused (.reservedSelector r)
  else .refused .illFormedConfig

/-- The state in which the next step forms and performs the operation of a table word: what the agent of the word's
format needs to form it, and its turn (log 13).  A word the decoder refuses changes nothing. -/
def State.withFetchWord (s : State) (nbits w : Nat) : State :=
  match decodeTableWord nbits w with
  | some i => s.placeSelector (encode i)
  | none => s

end Sys2Proof.Machine
end

