-- ==== Sys2Proof/Safety.lean ====
section
/-!
DEFINITION. The terms claims are stated in: runs over given turns, infinite runs and weak fairness, the invariant of the
core (spec/10_state.md R39, R40), and the named premises on the host (spec/70_reset_and_hazards.md section 3).
-/

namespace Sys2Proof.Machine

/-- Agent `g`, in state `s`, performs `i`: the selector it forms decodes to `i` (spec/30_encoding.md R76 to R81). -/
def Performs (g : Agent) (s : State) (i : Instr) : Prop :=
  ∃ w, selectorOf s g = some w ∧ decode w = .ok i

/-- A run of exactly the turns given, oldest first. -/
def runTurns (ts : List Turn) (s : State) : Host.Outcome State Fault Refusal :=
  Sys2Proof.core.run ts.length { s with sched := ts }

/-- The level of line `l` in a word of levels, as a snapshot of width `W` shows it. -/
def wordLevel (c : Config) (word l : Nat) : Bool := (BitVec.ofNat c.w word).getLsbD l

/-- The button samples SWITCH takes in a list of turns, in order. -/
def buttonSamples (c : Config) (ts : List Turn) : List Bool :=
  (ts.filter (fun t => t.agent == .switch)).map (fun t => wordLevel c t.lines c.lBtn)

/-- The sync-line samples IPG takes in a list of turns, in order. -/
def syncSamples (c : Config) (ts : List Turn) : List Bool :=
  (ts.filter (fun t => t.agent == .ipg)).map (fun t => wordLevel c t.lines c.lInt)

/-- Whether a transition of the observed polarity is seen at tick `n` of a list of samples, `prev` being the sample
before the first (R173). -/
def edgeAt (k : SyncEdge) (prev : Bool) (samples : List Bool) (n : Nat) : Bool :=
  match samples[n]? with
  | some cur => edge k (if n = 0 then prev else samples.getD (n - 1) prev) cur
  | none => false

/-- The states with a running timer (R40(b)). -/
def SwState.timed : SwState → Bool
  | .swSettle | .labelShow | .finalHold => true
  | .idle | .debouncing | .swHold => false

/-- The states in which the host is held in reset (R40(c)). -/
def SwState.holdsReset : SwState → Bool
  | .swHold | .swSettle | .finalHold => true
  | .idle | .debouncing | .labelShow => false

/-- The states in which the label slot may be selected (R40(a)). -/
def SwState.mayLabel : SwState → Bool
  | .swHold | .swSettle | .labelShow => true
  | .idle | .debouncing | .finalHold => false

/-- The deferred action that belongs to a state (R150). -/
def SwState.action : SwState → Option TmrAct
  | .swSettle => some .releaseReset
  | .labelShow => some .realSwitch
  | .finalHold => some .finalRelease
  | .idle | .debouncing | .swHold => none

/-- Startup has passed `CORE.INIT`: S3 has been performed. -/
def BootStep.initialised : BootStep → Bool
  | .s4 | .s5 | .done => true
  | .s1 | .s2 | .s3 => false

/-- The images have not been preconverted yet: S2 has not been performed. -/
def BootStep.logicalImages : BootStep → Bool
  | .s1 | .s2 => true
  | .s3 | .s4 | .s5 | .done => false

/-- ENGINE has been launched: S4 has been performed (R102). -/
def BootStep.engineLive : BootStep → Bool
  | .s5 | .done => true
  | .s1 | .s2 | .s3 | .s4 => false

/-- The invariants of steady operation, R40 (a) to (f), with the ranges other rules give: R22, R25, R26, R30, R122,
R150, R154, R204. -/
structure Steady (s : State) : Prop where
  /-- R40(a). -/
  curImg_le : s.curImg ≤ s.cfg.n
  /-- R40(a): the label slot is selected only in the two-phase variant and in these states. -/
  label_only : s.curImg = s.cfg.n → s.cfg.switchVariant = .twoPhase ∧ s.swState.mayLabel = true
  /-- R53, R67, R154: in those states of the two-phase variant the label of the upcoming bank is selected, complete. -/
  label_shown : s.cfg.switchVariant = .twoPhase → s.swState.mayLabel = true →
    s.curImg = s.cfg.n ∧ s.pendIdx < s.cfg.n ∧ ∀ a, imgRead s s.cfg.n a = some (label s.cfg s.pendIdx a)
  /-- R40(b). -/
  timer_armed : s.tmrArmed = s.swState.timed
  /-- R30, R150: an armed timer has at least one tick to run and the action of its state. -/
  timer_due : s.swState.timed = true → 1 ≤ s.tmrRem ∧ s.swState.action = some s.tmrAct
  /-- R40(c). -/
  reset_held : s.resetOut = s.swState.holdsReset
  /-- R40(d). -/
  button_pressed : s.btnState = .pressed ↔ s.swState = .swHold
  /-- R40(e). -/
  counting : s.swState = .debouncing → 1 ≤ s.dbCnt ∧ s.dbCnt < s.cfg.q
  /-- R40(e), in the form every step keeps: the count is cleared on leaving `Debouncing` (R145 to R147). -/
  not_counting : s.swState ≠ .debouncing → s.dbCnt = 0
  /-- R40(f), autonomous variant. -/
  pulse_autonomous : s.cfg.ipgVariant = .autonomous → (s.nmiOut = false ↔ s.ipgState = .asserted)
  /-- R40(f), inline variant. -/
  pulse_inline : s.cfg.ipgVariant = .inline → (s.nmiOut = false ↔ s.nmiPrev = true)
  /-- With no pulse mechanism the line stays idle (R34). -/
  pulse_none : s.cfg.ipgVariant = .none → s.nmiOut = true
  /-- R204(c): the range of `W_CNT`. -/
  width_range : s.wCnt < s.cfg.pulseWidth
  /-- R25: `Skipping` is reachable only when `HAS_WE`. -/
  skip_only_we : s.engState = .skipping → s.cfg.hasWe = true
  /-- R122: with `SWITCH_SOURCE = address` there is no switch FSM. -/
  no_switch : s.cfg.switchSource = .address → s.swState = .idle
  /-- R26: these states exist only in the two-phase variant. -/
  two_phase_only : s.swState = .labelShow ∨ s.swState = .finalHold → s.cfg.switchVariant = .twoPhase

/-- The invariant of the core, from power-on: an admitted configuration, memories in canonical form, the tables as far
as startup has built them (R39, R97, R99), the launches in their order (R100), and R40 from `CORE.INIT` on. -/
structure Inv (s : State) : Prop where
  admitted : s.cfg.admitted = true
  table_wf : Memory.wf (aitUnlisted s.cfg) imageSize s.ait = true
  images_wf : Memory.wf (imgUnlisted s.cfg) (imageSize * slotCount s.cfg) s.img = true
  snap_width : s.snap < 2 ^ s.cfg.w
  live : s.engLive = s.boot.engineLive
  table : s.boot ≠ .s1 → ∀ r, lookup s r = aitEntry s.cfg r
  images : ∀ b < s.cfg.n, ∀ a, imgRead s b a =
    some (if s.boot.logicalImages then romLogical s.cfg b a else preconv s.cfg (romLogical s.cfg b a))
  stopped : s.boot ≠ .done ∨ s.cfg.ipgVariant ≠ .autonomous → s.ipgState = .stopped
  launched : s.boot = .done → s.cfg.ipgVariant = .autonomous →
    s.ipgState ≠ .stopped ∧ s.pulseTiming = some ⟨s.cfg.pulsePeriod, s.cfg.pulseWidth⟩
  steady : s.boot.initialised = true → Steady s

/-- The state before S1 (spec/70 R218): nothing has been performed, and the images lie in their buffers in logical
form.  Everything else may hold any value its type and `Inv` allow. -/
def PoweredOn (s : State) : Prop := Inv s ∧ s.boot = .s1

/-- `ADDR_STABLE` of R224, for the snapshot of one state: the address lines carry `a`. -/
def Carries (s : State) (a : Addr) : Prop := sample s &&& addrMask s.cfg = scatter s.cfg a

/-- The levels a turn puts on the lines show a read of address `a`: strobe asserted, not a write (`WE_VALID`, R222),
address on its lines (`ADDR_STABLE`, R224). -/
def ReadOf (c : Config) (a : Addr) (t : Turn) : Prop :=
  wordLevel c t.lines c.lRd = false ∧ (c.hasWe = true → wordLevel c t.lines c.lWe = true) ∧
    BitVec.ofNat c.w t.lines &&& addrMask c = scatter c a

/-- The levels a turn puts on the lines show a write cycle: strobe and write enable asserted (R111, R222). -/
def WriteOf (c : Config) (t : Turn) : Prop :=
  c.hasWe = true ∧ wordLevel c t.lines c.lRd = false ∧ wordLevel c t.lines c.lWe = false

/-- The input lines some agent of the build reads (spec/30 R71); the others are don't-cares (R13, R83). -/
def readLines (c : Config) : List Nat :=
  c.addrLine.toList ++ [c.lRd] ++ (if c.hasWe then [c.lWe] else [])
    ++ (if c.switchSource = .button then [c.lBtn] else [])
    ++ (if c.ipgVariant = .autonomous then [c.lInt] else [])

/-- The strobe is asserted in the levels of a turn. -/
def StrobeHeld (c : Config) (t : Turn) : Prop := wordLevel c t.lines c.lRd = false

/-- The ENGINE samples of these turns begin no read cycle.  `asserted` says whether the strobe was asserted at the
ENGINE sample before: then a sample that still asserts it continues that cycle; otherwise one that asserts it must show
a write (R111), or it begins a read. -/
def beginsNoRead (c : Config) : Bool → List Turn → Bool
  | _, [] => true
  | asserted, t :: ts =>
    if t.agent = .engine then
      if wordLevel c t.lines c.lRd then beginsNoRead c false ts
      else (asserted || (c.hasWe && !wordLevel c t.lines c.lWe)) && beginsNoRead c true ts
    else beginsNoRead c asserted ts

/-- Button samples that end no debouncing episode in a press: no run of Q asserted ones, and the last one (if any)
released, so that no run goes on after them (R159, R226). -/
def NoPress (c : Config) (samples : List Bool) : Prop :=
  ¬(List.replicate c.q true <:+: samples) ∧ samples.getLast? ≠ some true

/-- The Context B ticks from the sample that ends the hold to the return to `Idle` (R149, R153 to R156). -/
def delays (c : Config) : Nat :=
  c.settleDelay + if c.switchVariant = .twoPhase then c.labelDisplay + c.resetHold else 0

/-- The button samples of one complete press (R159): what comes before it, how many samples beyond the threshold it is
held, and the levels in the timed states, where the button is not observed (R151). -/
structure Press where
  before : List Bool
  beyond : Nat
  timed : List Bool
deriving DecidableEq, Repr

/-- Only bounce before the press, and one sample a tick of the delays. -/
def Press.wf (c : Config) (p : Press) : Prop := NoPress c p.before ∧ p.timed.length = delays c

/-- The samples of a press, in order: `Q + beyond` asserted ones, and the released one that ends the hold. -/
def Press.samples (c : Config) (p : Press) : List Bool :=
  p.before ++ List.replicate (c.q + p.beyond) true ++ false :: p.timed

/-! ## Infinite runs and weak fairness (spec/70_reset_and_hazards.md R235, R236)

Fairness is a premise that a claim takes, never part of `step`: every interleaving is a run (log 20). -/

/-- The state with one turn chosen: the next step takes it. -/
def State.given (s : State) (u : Turn) : State := { s with sched := [u] }

/-- An infinite run (R235): `turn n` is the turn taken at step `n`, `r n` the state before it.  Which turns these are
is open: any agent may take the next step (R236), with any levels on the lines (R230). -/
def InfiniteRun (turn : Nat → Turn) (r : Nat → State) : Prop :=
  ∀ n, step ((r n).given (turn n)) = .next (r (n + 1))

/-- Weak fairness (R14, R236): an agent that from some moment on always has a step takes one after that moment.  It
gives no bound. -/
def WeaklyFair (turn : Nat → Turn) (r : Nat → State) : Prop :=
  ∀ (g : Agent) (n : Nat), (∀ m, n ≤ m → selectorOf (r m) g ≠ none) → ∃ m, n ≤ m ∧ (turn m).agent = g

/-- Step `n` of the run is a step of agent `g`: its turn, and an operation it performs. -/
def Steps (turn : Nat → Turn) (r : Nat → State) (g : Agent) (n : Nat) : Prop :=
  (turn n).agent = g ∧ ∃ i, Performs g ((r n).given (turn n)).takeTurn i

/-- From turn `k` on the button reads released until SWITCH has sampled it (R236: "a button that is eventually
released"). -/
def ReleasedFrom (c : Config) (turn : Nat → Turn) (k : Nat) : Prop :=
  ∀ m, k ≤ m → (∀ j, k ≤ j → j < m → (turn j).agent ≠ .switch) → wordLevel c (turn m).lines c.lBtn = false

end Sys2Proof.Machine
end

