-- ==== Sys2Proof/Certificates/Slice0/Obligations.lean ====
section
/-!
DEFINITION. The statements for the provers, from the numbered rules of spec/.  "Under the invariant" is `Inv`
(Safety.lean), itself stated to hold at reset and to be kept by every step.  A statement about an operation says when
its agent performs it (`Performs`) and gives the whole next state: what the record equation does not name is unchanged.
-/

open Sys2Proof Sys2Proof.Machine

/-! ## Encoding -/

/-- Decoding the word of a well-formed operation gives that operation, at every value of its operands (R76 to R82). -/
def Obligations.DecodeOfEncode : Prop :=
  ∀ i : Instr, i.wellFormed = true → decode (encode i) = .ok i

/-- A word names at most one operation, and that operation's word is it: no bit of a word is dropped (R81, R82). -/
def Obligations.EncodeOfDecode : Prop :=
  ∀ (w : Selector) (i : Instr), decode w = .ok i → encode i = w ∧ i.wellFormed = true

/-- The decoder refuses exactly the selector values R82 lists. -/
def Obligations.ReservedSelectorsRefused : Prop :=
  (∀ w : BitVec 3, (∃ r, decode (.boot w) = .error r) ↔ w = 0 ∨ w = 6 ∨ w = 7) ∧
  (∀ w : BitVec 4, (∃ r, decode (.eng w) = .error r) ↔ w.extractLsb' 2 2 = 0b11#2) ∧
  (∀ w : BitVec 6, (∃ r, decode (.swf w) = .error r) ↔
    w.extractLsb' 2 3 = 0b011#3 ∨ w.extractLsb' 2 3 = 0b111#3 ∨
      (w.getLsbD 5 = false ∧ (w.extractLsb' 2 3 = 0b101#3 ∨ w.extractLsb' 2 3 = 0b110#3))) ∧
  (∀ w : BitVec 4, (∃ r, decode (.ipg w) = .error r) ↔ w.extractLsb' 2 2 = 0b11#2)

/-- Words written out from R76 to R79 and R81 decode to the operations they stand for (spec/95 sections 3.3 to 4). -/
def Obligations.SpecWordsDecode : Prop :=
  decode (.boot 0b001#3) = .ok .aitBuild ∧ decode (.boot 0b101#3) = .ok .ipgStart ∧
  decode (.eng 0b0001#4) = .ok .breServe ∧ decode (.eng 0b0111#4) = .ok (.breRelease true) ∧
  decode (.swf 0b000111#6) = .ok .swQualify ∧ decode (.swf 0b100111#6) = .ok .swQlabel ∧
  decode (.swf 0b110100#6) = .ok (.swTick true .labelShow false) ∧
  decode (.swf 0b110001#6) = .ok (.swShowlabel false) ∧
  decode (.ipg 0b0110#4) = .ok (.ipgSync false) ∧ decode (.ipg 0b1001#4) = .ok (.ipgEnd false)

/-- Under the invariant no agent forms a reserved selector (R82: "None is reachable"). -/
def Obligations.FormedSelectorDecodes : Prop :=
  ∀ (s : State) (g : Agent) (w : Selector), Inv s → selectorOf s g = some w →
    ∃ i, decode w = .ok i ∧ i.wellFormed = true ∧ encode i = w

/-! ## The step -/

/-- A step takes the turn that comes next and performs the operation its agent's selector decodes to (R14, R81);
STARTUP moves on to its next boot step (R100).  Which turn comes next is the model's own device (log 6). -/
def Obligations.StepRunsDecodedOperation : Prop :=
  ∀ (s : State) (w : Selector) (i : Instr), s.cfg.admitted = true →
    selectorOf s.takeTurn s.nextTurn.agent = some w → decode w = .ok i →
    step s = exec i (s.takeTurn.passBoot s.nextTurn.agent) ∧
    s.takeTurn = { s with lines := s.nextTurn.lines, sched := s.sched.tail, turnNo := s.turnNo + 1 } ∧
    (s.nextTurn.agent ≠ .startup → s.takeTurn.passBoot s.nextTurn.agent = s.takeTurn) ∧
    s.takeTurn.passBoot .startup = { s.takeTurn with boot := s.boot.succ } ∧
    (∀ t ts, s.sched = t :: ts → s.nextTurn = t) ∧ (s.sched = [] → s.nextTurn = Config.hostTurn s.turnNo)

/-- When an agent has a step: STARTUP until S5 is done (R100), ENGINE from S4 on (R102), SWITCH after S5 and only with
the button (R100; file 42, opening), IPG in the autonomous variant (file 43, opening).  That a turn of an agent without
a step only changes the lines is the model's choice (log 7). -/
def Obligations.TurnOfAgentWithoutAStep : Prop :=
  ∀ s : State,
    (selectorOf s .startup = none ↔ s.boot = .done) ∧
    (selectorOf s .engine = none ↔ s.engLive = false) ∧
    (selectorOf s .switch = none ↔ s.boot ≠ .done ∨ s.cfg.switchSource = .address) ∧
    (selectorOf s .ipg = none ↔ s.cfg.ipgVariant ≠ .autonomous) ∧
    selectorOf s .host = none ∧
    (s.cfg.admitted = true → selectorOf s.takeTurn s.nextTurn.agent = none → step s = .next s.takeTurn)

/-- What an admitted configuration is (R9, with the ranges of R8; log 14), and that the model refuses any other. -/
def Obligations.AdmittedConfigurations : Prop :=
  ∀ c : Config,
    (c.admitted = true ↔
      Function.Injective (fun i : Fin 14 => c.addrLine.get i) ∧
      Function.Injective (fun i : Fin 8 => c.dataLine.get i) ∧
      Function.Injective (fun k : Fin 14 => c.packPos.get k) ∧
      Set.range (fun k : Fin 14 => c.packPos.get k) = Set.range (fun i : Fin 14 => c.addrLine.get i) ∧
      Function.Injective (fun j : Fin 8 => c.dataSlot.get j) ∧
      Set.range (fun j : Fin 8 => c.dataSlot.get j) = Set.range (fun i : Fin 8 => c.dataLine.get i) ∧
      c.namedLines.Nodup ∧ (∀ l ∈ c.namedLines, l < c.w) ∧
      (c.switchVariant = .twoPhase → c.switchSource = .button) ∧
      (∀ e ∈ c.trigTable, e.2 < c.n) ∧ (c.trigTable.map Prod.fst).Nodup ∧
      2 ≤ c.q ∧ 1 ≤ c.n ∧ 1 ≤ c.settleDelay ∧ 1 ≤ c.labelDisplay ∧ 1 ≤ c.resetHold ∧
      1 ≤ c.pulseWidth ∧ c.pulseWidth < c.pulsePeriod ∧
      1 ≤ c.labelLen ∧ c.labelOffset + c.labelLen ≤ 16384 ∧
      c.labelPatch.length = c.n ∧ (∀ p ∈ c.labelPatch, p.length = c.labelLen)) ∧
    (c.admitted = false → ∀ s : State, s.cfg = c →
      step s = .refused .illFormedConfig ∧ exec .aitBuild s = .refused .illFormedConfig)

/-! ## STARTUP -/

/-- `AIT.BUILD` (R94): for every address a, `AIT[pack(scatter(a))] = a`, and nothing else changes. -/
def Obligations.AitBuildResult : Prop :=
  ∀ s : State, s.cfg.admitted = true →
    (s.boot = .s1 → Performs .startup s .aitBuild) ∧
    ∃ t, exec .aitBuild s = .next t ∧ (∀ a, lookup t (pack s.cfg (scatter s.cfg a)) = a) ∧ t = { s with ait := t.ait }

/-- `ROM.PRECONV` (R99): every byte of every bank is converted once, in place; the label slot is not written, and
nothing else changes.  A buffer that holds the logical byte then holds its line form. -/
def Obligations.RomPreconvResult : Prop :=
  ∀ s : State,
    (s.boot = .s2 → Performs .startup s .romPreconv) ∧
    ∃ t, exec .romPreconv s = .next t ∧
      (∀ b < s.cfg.n, ∀ a, imgRead t b a = (imgRead s b a).map (preconv s.cfg)) ∧
      (∀ b < s.cfg.n, ∀ a, imgRead s b a = some (romLogical s.cfg b a) →
        imgRead t b a = some (preconv s.cfg (romLogical s.cfg b a))) ∧
      (∀ b, s.cfg.n ≤ b → ∀ a, imgRead t b a = imgRead s b a) ∧ t = { s with img := t.img }

/-- `CORE.INIT` (R101). -/
def Obligations.CoreInitResult : Prop :=
  ∀ s : State,
    (s.boot = .s3 → Performs .startup s .coreInit) ∧
    exec .coreInit s = .next { s with
      curImg := 0, engState := .waiting, nmiPrev := false, resetOut := false, nmiOut := true, swState := .idle,
      btnState := .released, dbCnt := 0, tmrArmed := false, ipgState := .stopped, wCnt := 0 }

/-- `ENG.LAUNCH` (R102): ENGINE has a step from then on, and no operation stops it again. -/
def Obligations.EngLaunchResult : Prop :=
  ∀ s : State,
    (s.boot = .s4 → Performs .startup s .engLaunch) ∧
    exec .engLaunch s = .next { s with engLive := true } ∧
    (s.engLive = false → selectorOf s .engine = none) ∧ (s.engLive = true → selectorOf s .engine ≠ none) ∧
    ∀ i t, exec i s = .next t → s.engLive = true → t.engLive = true

/-- `IPG.START` (R172), in each variant.  The clause on `pulseTiming` is not R172's: that the launch latches the period
and the width is R35, and that it is this operation which does is the model's reading (log 15). -/
def Obligations.IpgStartResult : Prop :=
  ∀ s : State,
    (s.boot = .s5 → Performs .startup s .ipgStart) ∧
    (s.cfg.ipgVariant = .autonomous → exec .ipgStart s = .next { s with
      nmiOut := true, wCnt := 0, intPrev := level s s.cfg.lInt, ipgState := .armed,
      pulseTiming := some ⟨s.cfg.pulsePeriod, s.cfg.pulseWidth⟩ }) ∧
    (s.cfg.ipgVariant ≠ .autonomous → exec .ipgStart s = .next s)

/-! ## ENGINE -/

/-- `BRE.POLL`, `BRE.SKIPWR`, `BRE.HOLD`, `BRE.RELEASE`, `BRE.SKIPHOLD`, `BRE.SKIPEND` (R112, R116 to R120): the
condition of each, the snapshot it takes and the state it goes to; nothing else changes. -/
def Obligations.EngineQuietOperations : Prop :=
  ∀ (s : State) (we : Bool),
    (exec (.brePoll we) s = .next { s with snap := (sample s).toNat, engState := .waiting } ∧
     exec .breSkipwr s = .next { s with snap := (sample s).toNat, engState := .skipping } ∧
     exec (.breHold we) s = .next { s with snap := (sample s).toNat, engState := .driving } ∧
     exec (.breRelease we) s = .next { s with snap := (sample s).toNat, engState := .waiting } ∧
     exec (.breSkiphold we) s = .next { s with snap := (sample s).toNat, engState := .skipping } ∧
     exec (.breSkipend we) s = .next { s with snap := (sample s).toNat, engState := .waiting }) ∧
    (s.engLive = true →
      (s.engState = .waiting → level s s.cfg.lRd = true → Performs .engine s (.brePoll (weLevel s))) ∧
      (s.engState = .waiting → level s s.cfg.lRd = false → s.cfg.hasWe = true → level s s.cfg.lWe = false →
        Performs .engine s .breSkipwr) ∧
      (s.engState = .driving → level s s.cfg.lRd = false → Performs .engine s (.breHold (weLevel s))) ∧
      (s.engState = .driving → level s s.cfg.lRd = true → Performs .engine s (.breRelease (weLevel s))) ∧
      (s.engState = .skipping → level s s.cfg.lRd = false → Performs .engine s (.breSkiphold (weLevel s))) ∧
      (s.engState = .skipping → level s s.cfg.lRd = true → Performs .engine s (.breSkipend (weLevel s))))

/-- `BRE.SERVE` (R114, with R121 and R122): resolve, fetch, drive, in every variant.  The slot must exist and the byte
have a value (R56, R39). -/
def Obligations.ServeResult : Prop :=
  ∀ (s : State) (b : Byte),
    (s.engLive = true → s.engState = .waiting → level s s.cfg.lRd = false →
      (s.cfg.hasWe = true → level s s.cfg.lWe = true) → Performs .engine s .breServe) ∧
    (let a := lookup s (pack s.cfg (sample s))
     let target := if s.cfg.switchSource = .address then trig s.cfg a s.curImg else s.curImg
     let slot := if s.cfg.trigOrder = .switchThenFetch then target else s.curImg
     let pulse := if s.cfg.ipgVariant = .inline then inlinePulse s a else (s.nmiOut, s.nmiPrev)
     slot < slotCount s.cfg → imgRead s slot a = some b →
      exec .breServe s = .next { s with
        snap := (sample s).toNat, raw := pack s.cfg (sample s), laddr := a, outByte := b, dataOut := b,
        curImg := target, nmiOut := pulse.1, nmiPrev := pulse.2, engState := .driving })

/-- Where a serve stops: the model's own faults, for a slot that does not exist (R56) and for a byte the spec calls
unspecified (R39).  The model's choice (log 10); under the invariant no step meets them (`NeverStuck`). -/
def Obligations.ServeStopsOutsideTheStore : Prop :=
  ∀ s : State,
    let a := lookup s (pack s.cfg (sample s))
    (slotCount s.cfg ≤ serveSlot s a → exec .breServe s = .fault (.noSuchSlot (serveSlot s a))) ∧
    (serveSlot s a < slotCount s.cfg → imgRead s (serveSlot s a) a = none →
      exec .breServe s = .fault (.unspecifiedByte (serveSlot s a) a.toNat))

/-! ## SWITCH -/

/-- `SW.IDLE` and `SW.HOLD` (R142, R148): the state stays, and nothing else changes. -/
def Obligations.SwitchStays : Prop :=
  ∀ (s : State) (v x : Bool),
    exec (.swIdle v x) s = .next { s with swState := .idle } ∧
    exec (.swHold v x) s = .next { s with swState := .swHold } ∧
    (s.boot = .done → s.cfg.switchSource = .button →
      (s.swState = .idle → btn s = false → Performs .switch s (.swIdle (variantBit s) false)) ∧
      (s.swState = .swHold → btn s = true → Performs .switch s (.swHold (variantBit s) false)))

/-- `SW.DETECT` (R143). -/
def Obligations.SwitchDetectResult : Prop :=
  ∀ (s : State) (v x : Bool),
    exec (.swDetect v x) s = .next { s with dbCnt := 1, swState := .debouncing } ∧
    (s.boot = .done → s.cfg.switchSource = .button → s.swState = .idle → btn s = true →
      Performs .switch s (.swDetect (variantBit s) false))

/-- `SW.COUNT` (R144). -/
def Obligations.SwitchCountResult : Prop :=
  ∀ (s : State) (v : Bool),
    exec (.swCount v) s = .next { s with dbCnt := s.dbCnt + 1, swState := .debouncing } ∧
    (s.boot = .done → s.cfg.switchSource = .button → s.swState = .debouncing → btn s = true →
      s.dbCnt + 1 < s.cfg.q → Performs .switch s (.swCount (variantBit s)))

/-- `SW.BOUNCE` (R145): whatever the count. -/
def Obligations.SwitchBounceResult : Prop :=
  ∀ (s : State) (v x : Bool),
    exec (.swBounce v x) s = .next { s with dbCnt := 0, swState := .idle } ∧
    (s.boot = .done → s.cfg.switchSource = .button → s.swState = .debouncing → btn s = false →
      Performs .switch s (.swBounce (variantBit s) (decide (s.cfg.q ≤ s.dbCnt + 1))))

/-- `SW.QUALIFY` (R146). -/
def Obligations.SwitchQualifyResult : Prop :=
  ∀ s : State,
    exec .swQualify s = .next { s with
      resetOut := true, curImg := (s.curImg + 1) % s.cfg.n, btnState := .pressed, dbCnt := 0, swState := .swHold } ∧
    (s.boot = .done → s.cfg.switchSource = .button → s.cfg.switchVariant = .immediate →
      s.swState = .debouncing → btn s = true → s.cfg.q ≤ s.dbCnt + 1 → Performs .switch s .swQualify)

/-- `SW.QLABEL` (R147, R152): the label slot holds the label of the upcoming bank, byte by byte; no other slot is
written, and nothing else changes but what R147 names. -/
def Obligations.SwitchLabelResult : Prop :=
  ∀ s : State,
    (∃ t, exec .swQlabel s = .next t ∧
      (∀ a : Addr, imgRead t s.cfg.n a = some (preconv s.cfg
        (if s.cfg.labelOffset ≤ a.toNat ∧ a.toNat < s.cfg.labelOffset + s.cfg.labelLen then
          (s.cfg.labelPatch.getD ((s.curImg + 1) % s.cfg.n) []).getD (a.toNat - s.cfg.labelOffset) 0
        else imageByte s.cfg.announce a.toNat))) ∧
      (∀ b, b ≠ s.cfg.n → ∀ a, imgRead t b a = imgRead s b a) ∧
      t = { s with
        img := t.img, resetOut := true, pendIdx := (s.curImg + 1) % s.cfg.n, curImg := s.cfg.n
        btnState := .pressed, dbCnt := 0, swState := .swHold }) ∧
    (s.boot = .done → s.cfg.switchSource = .button → s.cfg.switchVariant = .twoPhase →
      s.swState = .debouncing → btn s = true → s.cfg.q ≤ s.dbCnt + 1 → Performs .switch s .swQlabel)

/-- `SW.UNPRESS` (R149, with `arm` of R150). -/
def Obligations.SwitchUnpressResult : Prop :=
  ∀ (s : State) (v x : Bool),
    exec (.swUnpress v x) s = .next { s with
      btnState := .released, tmrArmed := true, tmrRem := s.cfg.settleDelay, tmrAct := .releaseReset
      swState := .swSettle } ∧
    (s.boot = .done → s.cfg.switchSource = .button → s.swState = .swHold → btn s = false →
      Performs .switch s (.swUnpress (variantBit s) false))

/-- `SW.TICK` (R151), in each timed state, whatever the button. -/
def Obligations.SwitchTickResult : Prop :=
  ∀ (s : State) (v : Bool) (ss : TimedState) (b : Bool),
    exec (.swTick v ss b) s = .next { s with tmrRem := s.tmrRem - 1 } ∧
    (s.boot = .done → s.cfg.switchSource = .button → 1 < s.tmrRem →
      (s.swState = .swSettle → Performs .switch s (.swTick (variantBit s) .swSettle (btn s))) ∧
      (s.cfg.switchVariant = .twoPhase →
        (s.swState = .labelShow → Performs .switch s (.swTick true .labelShow (btn s))) ∧
        (s.swState = .finalHold → Performs .switch s (.swTick true .finalHold (btn s)))))

/-- `SW.RELEASE` (R153). -/
def Obligations.SwitchReleaseResult : Prop :=
  ∀ (s : State) (b : Bool),
    exec (.swRelease b) s = .next { s with resetOut := false, tmrArmed := false, swState := .idle } ∧
    (s.boot = .done → s.cfg.switchSource = .button → s.cfg.switchVariant = .immediate → s.swState = .swSettle →
      s.tmrRem = 1 → Performs .switch s (.swRelease (btn s)))

/-- `SW.SHOWLABEL` (R154). -/
def Obligations.SwitchShowLabelResult : Prop :=
  ∀ (s : State) (b : Bool),
    exec (.swShowlabel b) s = .next { s with
      resetOut := false, tmrArmed := true, tmrRem := s.cfg.labelDisplay, tmrAct := .realSwitch
      swState := .labelShow } ∧
    (s.boot = .done → s.cfg.switchSource = .button → s.cfg.switchVariant = .twoPhase → s.swState = .swSettle →
      s.tmrRem = 1 → Performs .switch s (.swShowlabel (btn s)))

/-- `SW.REALSWITCH` (R155). -/
def Obligations.SwitchRealSwitchResult : Prop :=
  ∀ (s : State) (b : Bool),
    exec (.swRealswitch b) s = .next { s with
      resetOut := true, curImg := s.pendIdx, tmrArmed := true, tmrRem := s.cfg.resetHold, tmrAct := .finalRelease
      swState := .finalHold } ∧
    (s.boot = .done → s.cfg.switchSource = .button → s.cfg.switchVariant = .twoPhase → s.swState = .labelShow →
      s.tmrRem = 1 → Performs .switch s (.swRealswitch (btn s)))

/-- `SW.FINALREL` (R156). -/
def Obligations.SwitchFinalReleaseResult : Prop :=
  ∀ (s : State) (b : Bool),
    exec (.swFinalrel b) s = .next { s with resetOut := false, tmrArmed := false, swState := .idle } ∧
    (s.boot = .done → s.cfg.switchSource = .button → s.cfg.switchVariant = .twoPhase → s.swState = .finalHold →
      s.tmrRem = 1 → Performs .switch s (.swFinalrel (btn s)))

/-! ## IPG -/

/-- `IPG.OFF` (R174): nothing changes. -/
def Obligations.PulseOffResult : Prop :=
  ∀ (s : State) (e x : Bool),
    exec (.ipgOff e x) s = .next s ∧
    (s.cfg.ipgVariant = .autonomous → s.ipgState = .stopped → Performs .ipg s (.ipgOff false (widthDone s)))

/-- `IPG.WAIT` (R175): no transition of the observed polarity (R173). -/
def Obligations.PulseWaitResult : Prop :=
  ∀ (s : State) (x : Bool),
    exec (.ipgWait x) s = .next { s with intPrev := level s s.cfg.lInt, ipgState := .armed } ∧
    (s.cfg.ipgVariant = .autonomous → s.ipgState = .armed →
      (s.cfg.syncEdge = .falling → ¬(s.intPrev = true ∧ level s s.cfg.lInt = false)) →
      (s.cfg.syncEdge = .rising → ¬(s.intPrev = false ∧ level s s.cfg.lInt = true)) →
      (s.cfg.syncEdge = .both → s.intPrev = level s s.cfg.lInt) →
      Performs .ipg s (.ipgWait (widthDone s)))

/-- `IPG.SYNC` (R176): a transition of the observed polarity (R173). -/
def Obligations.PulseSyncResult : Prop :=
  ∀ (s : State) (x : Bool),
    exec (.ipgSync x) s = .next { s with
      nmiOut := false, wCnt := 0, intPrev := level s s.cfg.lInt, ipgState := .asserted } ∧
    (s.cfg.ipgVariant = .autonomous → s.ipgState = .armed →
      (s.cfg.syncEdge = .falling → s.intPrev = true ∧ level s s.cfg.lInt = false) →
      (s.cfg.syncEdge = .rising → s.intPrev = false ∧ level s s.cfg.lInt = true) →
      (s.cfg.syncEdge = .both → s.intPrev ≠ level s s.cfg.lInt) →
      Performs .ipg s (.ipgSync (widthDone s)))

/-- `IPG.HOLD` (R177), whatever the sync line. -/
def Obligations.PulseHoldResult : Prop :=
  ∀ (s : State) (e : Bool),
    exec (.ipgHold e) s = .next { s with
      wCnt := s.wCnt + 1, intPrev := level s s.cfg.lInt, ipgState := .asserted } ∧
    (s.cfg.ipgVariant = .autonomous → s.ipgState = .asserted → s.wCnt + 1 < s.cfg.pulseWidth →
      Performs .ipg s (.ipgHold (syncSeen s)))

/-- `IPG.END` (R178), whatever the sync line. -/
def Obligations.PulseEndResult : Prop :=
  ∀ (s : State) (e : Bool),
    exec (.ipgEnd e) s = .next { s with
      nmiOut := true, wCnt := 0, intPrev := level s s.cfg.lInt, ipgState := .armed } ∧
    (s.cfg.ipgVariant = .autonomous → s.ipgState = .asserted → s.cfg.pulseWidth ≤ s.wCnt + 1 →
      Performs .ipg s (.ipgEnd (syncSeen s)))

/-! ## The pure functions -/

/-- R93: `pack(scatter(a))` is a's bits, permuted by `sigma`, and `sigma` is a permutation of 0..13. -/
def Obligations.PackScatterIsSigma : Prop :=
  ∀ c : Config, c.admitted = true →
    (∀ (a : Addr) (k : Nat), k < 14 → (pack c (scatter c a)).getLsbD k = a.getLsbD (sigma c k)) ∧
    (∀ k < 14, sigma c k < 14 ∧ c.addrLine.toList.getD (sigma c k) 0 = c.packPos.toList.getD k 0) ∧
    (∀ j < 14, ∀ k < 14, sigma c j = sigma c k → j = k) ∧
    (∀ i < 14, ∃ k < 14, sigma c k = i)

/-- R95, R97: once S1 has run the table is a bijection, `AIT[pack(scatter(a))] = a`, and it is the inverse permutation
of R93, tabulated. -/
def Obligations.TableIsTheInversePermutation : Prop :=
  ∀ s : State, Inv s → s.boot ≠ .s1 →
    (∀ a : Addr, lookup s (pack s.cfg (scatter s.cfg a)) = a) ∧ Function.Bijective (lookup s) ∧
    (∀ (r : Packed) (k : Nat), k < 14 → (lookup s r).getLsbD (sigma s.cfg k) = r.getLsbD k) ∧
    lookup s 0x0000 = 0x0000 ∧ lookup s 0x3FFF = 0x3FFF

/-- R92, R96: only the address lines of a snapshot reach the packed pattern, and the lookup answers the address they
carry. -/
def Obligations.LookupFindsTheAddress : Prop :=
  ∀ s : State, Inv s →
    (∀ w : BitVec s.cfg.w, pack s.cfg w = pack s.cfg (w &&& addrMask s.cfg)) ∧
    (s.boot ≠ .s1 → ∀ (w : BitVec s.cfg.w) (a : Addr), w &&& addrMask s.cfg = scatter s.cfg a →
      lookup s (pack s.cfg w) = a)

/-- R98: `preconv` permutes the bits of a byte by P, and what follows for every P. -/
def Obligations.PreconvIsAPermutation : Prop :=
  ∀ c : Config, c.admitted = true →
    (∀ i < 8, dataPerm c i < 8 ∧ c.dataSlot.toList.getD (dataPerm c i) 0 = c.dataLine.toList.getD i 0) ∧
    (∀ i < 8, ∀ j < 8, dataPerm c i = dataPerm c j → i = j) ∧
    (∀ (b : Byte) (i : Nat), i < 8 → (preconv c b).getLsbD (dataPerm c i) = b.getLsbD i) ∧
    preconv c 0x00 = 0x00 ∧ preconv c 0xFF = 0xFF ∧ Function.Bijective (preconv c) ∧
    (∀ b, (List.range 8).countP (fun i => (preconv c b).getLsbD i) = (List.range 8).countP (fun i => b.getLsbD i)) ∧
    (∀ x y, preconv c (x ||| y) = preconv c x ||| preconv c y)

/-- R115, R74: as a word operation the drive puts bit j of the byte on line `DATA_SLOT[j]` and changes no other
line. -/
def Obligations.DriveTouchesOnlyDataLines : Prop :=
  ∀ c : Config, c.admitted = true → ∀ (out : BitVec c.w) (b : Byte),
    (∀ j < 8, ((out &&& ~~~dataMask c) ||| place c b).getLsbD (c.dataSlot.toList.getD j 0) = b.getLsbD j) ∧
    (∀ l, l ∉ c.dataSlot.toList → ((out &&& ~~~dataMask c) ||| place c b).getLsbD l = out.getLsbD l)

/-! ## The invariant -/

/-- The reset state of every admitted configuration meets the invariant (R39, R40); `State.reset` is one (its
configuration and the registers R39 leaves unspecified are the model's choice, logs 1 to 4). -/
def Obligations.InvHoldsAtReset : Prop :=
  (∀ (c : Config) (lines : Nat), c.admitted = true → Inv (State.resetOf c lines)) ∧ Inv State.reset

/-- Every step from a state that meets the invariant leads to one that meets it (R40: "preserved by every
operation"). -/
def Obligations.InvKeptByEveryStep : Prop :=
  ∀ s t : State, Inv s → step s = .next t → Inv t

/-- R190: no step from a state that meets the invariant faults or is refused. -/
def Obligations.NeverStuck : Prop :=
  ∀ s : State, Inv s → ∃ t, step s = .next t

/-- R126, R161, R180: once it may step, each agent has exactly one operation to perform, one of its own format. -/
def Obligations.AgentsAlwaysHaveOneOperation : Prop :=
  ∀ s : State, Inv s →
    (s.engLive = true → ∃ i, Performs .engine s i ∧ (rowOf i).format = .eng ∧ ∀ j, Performs .engine s j → j = i) ∧
    (s.boot = .done → s.cfg.switchSource = .button →
      ∃ i, Performs .switch s i ∧ (rowOf i).format = .swf ∧ ∀ j, Performs .switch s j → j = i) ∧
    (s.cfg.ipgVariant = .autonomous →
      ∃ i, Performs .ipg s i ∧ (rowOf i).format = .ipg ∧ ∀ j, Performs .ipg s j → j = i)

/-! ## Rules of the whole machine -/

/-- R40(g), R160: with the button, a step after `CORE.INIT` that changes `CUR_IMG` ends with the host held in reset. -/
def Obligations.BankChangesOnlyUnderReset : Prop :=
  ∀ s t : State, s.cfg.switchSource = .button → s.boot.initialised = true → step s = .next t →
    t.curImg ≠ s.curImg → t.resetOut = true

/-- R40(h), R61(b), R67: after STARTUP no step changes the table or a bank; a byte of the label slot changes only in the
step that selects the slot and asserts reset. -/
def Obligations.TablesNeverChangeAfterStartup : Prop :=
  ∀ s t : State, s.boot = .done → step s = .next t →
    t.ait = s.ait ∧ (∀ b, b ≠ s.cfg.n → ∀ a, imgRead t b a = imgRead s b a) ∧
    ((∃ a, imgRead t s.cfg.n a ≠ imgRead s s.cfg.n a) → t.curImg = s.cfg.n ∧ t.resetOut = true)

/-- R84, R8, R35: no step changes the configuration; after STARTUP none undoes the launches or the latched timing. -/
def Obligations.ConfigurationNeverChanges : Prop :=
  ∀ s t : State, step s = .next t →
    t.cfg = s.cfg ∧ (s.boot = .done → t.boot = .done ∧ t.engLive = s.engLive ∧ t.pulseTiming = s.pulseTiming)

/-- R38: after STARTUP each agent writes only what it owns: SWITCH of the images only the label slot, and that only in
the step that selects it.  That a turn of STARTUP or HOST then changes only the lines is the model's choice (log 7). -/
def Obligations.AgentsWriteOnlyTheirOwn : Prop :=
  ∀ s t : State, s.boot = .done → step s = .next t →
    (s.nextTurn.agent = .engine →
      t = { s.takeTurn with
        engState := t.engState, snap := t.snap, raw := t.raw, laddr := t.laddr, outByte := t.outByte
        dataOut := t.dataOut, nmiPrev := t.nmiPrev, curImg := t.curImg, nmiOut := t.nmiOut } ∧
      (s.cfg.switchSource = .button → t.curImg = s.curImg) ∧
      (s.cfg.ipgVariant ≠ .inline → t.nmiOut = s.nmiOut ∧ t.nmiPrev = s.nmiPrev)) ∧
    (s.nextTurn.agent = .switch →
      t = { s.takeTurn with
        swState := t.swState, btnState := t.btnState, dbCnt := t.dbCnt, pendIdx := t.pendIdx
        tmrArmed := t.tmrArmed, tmrRem := t.tmrRem, tmrAct := t.tmrAct, resetOut := t.resetOut
        curImg := t.curImg, img := t.img } ∧
      (s.cfg.switchSource = .address → t.curImg = s.curImg) ∧
      (∀ b, b ≠ s.cfg.n → ∀ a, imgRead t b a = imgRead s b a) ∧
      (¬Performs .switch s.takeTurn .swQlabel → t.img = s.img) ∧
      (Performs .switch s.takeTurn .swQlabel → t.curImg = s.cfg.n)) ∧
    (s.nextTurn.agent = .ipg →
      t = { s.takeTurn with ipgState := t.ipgState, wCnt := t.wCnt, intPrev := t.intPrev, nmiOut := t.nmiOut } ∧
      (s.cfg.ipgVariant ≠ .autonomous → t.nmiOut = s.nmiOut)) ∧
    (s.nextTurn.agent = .startup ∨ s.nextTurn.agent = .host → t = s.takeTurn)

/-- R13, R83: the levels of lines no agent of the build reads influence neither the operation performed nor, but for the
copy of the snapshot in `SNAP`, its result. -/
def Obligations.UnreadLinesDoNotMatter : Prop :=
  ∀ (s : State) (g : Agent) (l m : Nat), s.cfg.admitted = true →
    (∀ x ∈ readLines s.cfg, wordLevel s.cfg l x = wordLevel s.cfg m x) →
    selectorOf { s with lines := l } g = selectorOf { s with lines := m } g ∧
    ∀ i t, Performs g { s with lines := l } i → exec i { s with lines := l } = .next t →
      ∃ u, exec i { s with lines := m } = .next u ∧ t = { u with lines := l, snap := t.snap }

/-! ## The bus response engine -/

/-- R103: a serve whose snapshot carries address a puts bit i of the logical byte of the image it reads on line
`DATA_LINE[i]`.  With `switch_then_fetch` that image is the one the trigger has just selected (R122). -/
def Obligations.ServeDrivesTheLogicalByte : Prop :=
  ∀ (s : State) (a : Addr), Inv s → s.engLive = true → Carries s a →
    let c := if s.cfg.switchSource = .address ∧ s.cfg.trigOrder = .switchThenFetch then trig s.cfg a s.curImg
      else s.curImg
    c < s.cfg.n → ∃ t, exec .breServe s = .next t ∧
      ∀ i < 8, (dataLines t).getLsbD (s.cfg.dataLine.toList.getD i 0) = (romLogical s.cfg c a).getLsbD i

/-- R123: ENGINE is in `Waiting`; the turns up to its next step are not its own; that step sees a read of a; after it
come any turns in which ENGINE sees no other read begin: the rest of the cycle, released samples and, with `HAS_WE`,
whole write cycles, whatever the other agents do.  The run completes, and the host's data lines carry the logical byte
of the image selected at the serving step.  So up to the next serve; what it says from the release of the strobe on
(released samples, write cycles) is the model's choice, `DATA_OUT` keeping its value (log 17; R225). -/
def Obligations.ReadCycleIsAnswered : Prop :=
  ∀ (s : State) (a : Addr) (before after : List Turn) (e : Turn),
    Inv s → s.engLive = true → s.engState = .waiting →
    (∀ u ∈ before, u.agent ≠ .engine) → e.agent = .engine → ReadOf s.cfg a e →
    beginsNoRead s.cfg true after = true →
    ∃ m t, runTurns before s = .next m ∧ runTurns (before ++ e :: after) s = .next t ∧
      (let c := if s.cfg.switchSource = .address ∧ s.cfg.trigOrder = .switchThenFetch then trig s.cfg a m.curImg
        else m.curImg
       c < s.cfg.n → hostByte t = romLogical s.cfg c a)

/-- R116, R119, R120, R194: a write cycle is skipped to its end.  Nothing is looked up or driven, and neither the
trigger nor the inline pulse acts; when the strobe is released ENGINE is back in `Waiting`. -/
def Obligations.WriteCycleDrivesNothing : Prop :=
  ∀ (s : State) (before held : List Turn) (e r : Turn),
    Inv s → s.engLive = true → s.engState = .waiting →
    (∀ u ∈ before, u.agent ≠ .engine) → e.agent = .engine → WriteOf s.cfg e →
    (∀ u ∈ held, u.agent = .engine → StrobeHeld s.cfg u) → r.agent = .engine → ¬StrobeHeld s.cfg r →
    ∃ m t, runTurns (before ++ e :: held) s = .next m ∧ runTurns (before ++ e :: (held ++ [r])) s = .next t ∧
      m.engState = .skipping ∧ t.engState = .waiting ∧
      t.dataOut = s.dataOut ∧ t.raw = s.raw ∧ t.laddr = s.laddr ∧ t.outByte = s.outByte ∧ t.nmiPrev = s.nmiPrev ∧
      (s.cfg.ipgVariant = .inline → t.nmiOut = s.nmiOut) ∧
      (s.cfg.switchSource = .address → t.curImg = s.curImg)

/-- R121: in the inline variant a serve deasserts what the previous one asserted, or else asserts where `NMI_COND`
holds; and only a serve changes `NMI_OUT` or `NMI_PREV`. -/
def Obligations.InlinePulseLastsToTheNextServe : Prop :=
  ∀ s t : State, Inv s → s.boot = .done → s.cfg.ipgVariant = .inline → step s = .next t →
    (s.nextTurn.agent = .engine → Performs .engine s.takeTurn .breServe →
      (s.nmiPrev = true → t.nmiOut = true ∧ t.nmiPrev = false) ∧
      (s.nmiPrev = false → nmiCond s.cfg t.laddr = true → t.nmiOut = false ∧ t.nmiPrev = true) ∧
      (s.nmiPrev = false → nmiCond s.cfg t.laddr = false → t.nmiOut = true ∧ t.nmiPrev = false)) ∧
    (¬(s.nextTurn.agent = .engine ∧ Performs .engine s.takeTurn .breServe) →
      t.nmiOut = s.nmiOut ∧ t.nmiPrev = s.nmiPrev)

/-- R122: the address-triggered switch, in both orders.  A serve of a trigger address selects the entry's bank, any
other serve leaves the selector; the byte comes from the old or from the new image; `RESET_OUT` stays 0. -/
def Obligations.AddressTriggerSelects : Prop :=
  ∀ (s : State) (a : Addr), Inv s → s.engLive = true → s.cfg.switchSource = .address → Carries s a →
    ∃ t, exec .breServe s = .next t ∧ t.laddr = a ∧
      (∀ b, (a, b) ∈ s.cfg.trigTable → t.curImg = b) ∧
      ((∀ b, (a, b) ∉ s.cfg.trigTable) → t.curImg = s.curImg) ∧
      (s.cfg.trigOrder = .fetchThenSwitch → imgRead s s.curImg a = some t.dataOut) ∧
      (s.cfg.trigOrder = .switchThenFetch → imgRead s t.curImg a = some t.dataOut) ∧
      t.resetOut = false

/-- R67, R154, R61(b): while the label is selected a serve drives the label of the upcoming bank, whole. -/
def Obligations.LabelIsServedWhileSelected : Prop :=
  ∀ (s : State) (a : Addr), Inv s → s.engLive = true → s.cfg.switchVariant = .twoPhase →
    s.swState.mayLabel = true → Carries s a →
    ∃ t, exec .breServe s = .next t ∧ t.dataOut = label s.cfg s.pendIdx a ∧
      hostByte t = labelLogical s.cfg s.pendIdx a

/-! ## The switch FSM -/

/-- R159: a press of k consecutive asserted samples from `Idle`, whatever the other agents do: below the qualification
period it only counts; from the Q-th sample on it has advanced the bank (or shown its label) exactly once. -/
def Obligations.PressQualifiesAtTheThreshold : Prop :=
  ∀ (s : State) (ts : List Turn) (k : Nat), Inv s → s.boot = .done → s.cfg.switchSource = .button →
    s.swState = .idle → buttonSamples s.cfg ts = List.replicate k true →
    ∃ t, runTurns ts s = .next t ∧
      (k < s.cfg.q → t.curImg = s.curImg ∧ t.resetOut = false ∧ t.dbCnt = k) ∧
      (s.cfg.q ≤ k → t.swState = .swHold ∧ t.resetOut = true ∧ t.btnState = .pressed ∧ t.dbCnt = 0 ∧
        (s.cfg.switchVariant = .immediate → t.curImg = (s.curImg + 1) % s.cfg.n) ∧
        (s.cfg.switchVariant = .twoPhase → t.curImg = s.cfg.n ∧ t.pendIdx = (s.curImg + 1) % s.cfg.n))

/-- R159, R145: button samples from `Idle` with no run of Q asserted ones never qualify, whatever their number and
whatever the other agents do. -/
def Obligations.ShortPressesNeverQualify : Prop :=
  ∀ (s : State) (ts : List Turn), Inv s → s.boot = .done → s.cfg.switchSource = .button → s.swState = .idle →
    ¬(List.replicate s.cfg.q true <:+: buttonSamples s.cfg ts) →
    ∃ t, runTurns ts s = .next t ∧ t.curImg = s.curImg ∧ t.resetOut = false ∧
      (t.swState = .idle ∨ t.swState = .debouncing)

/-- R158, R157: each complete press advances exactly one bank and ends in `Idle` with the host running, in both variants
and whatever the other agents do: with any bounce before each press and after the last (R159), held any time beyond the
threshold, and with any button levels in the timed states (R151, R233). -/
def Obligations.PressesCycleTheBanks : Prop :=
  ∀ (s : State) (ts : List Turn) (ps : List Press) (rest : List Bool), Inv s → s.boot = .done →
    s.cfg.switchSource = .button → s.swState = .idle → (∀ p ∈ ps, p.wf s.cfg) → NoPress s.cfg rest →
    buttonSamples s.cfg ts = ps.flatMap (Press.samples s.cfg) ++ rest →
    ∃ t, runTurns ts s = .next t ∧ t.swState = .idle ∧ t.resetOut = false ∧
      t.curImg = (s.curImg + ps.length) % s.cfg.n

/-! ## The interrupt pulse generator -/

/-- R171, R179: from `Armed`, with transitions of the observed polarity more than `PULSE_WIDTH` ticks apart,
`NMI_OUT = 0` after exactly the ticks less than `PULSE_WIDTH` after a transition, whatever the other agents do. -/
def Obligations.PulseContractHolds : Prop :=
  ∀ (s : State) (ts : List Turn), Inv s → s.boot = .done → s.cfg.ipgVariant = .autonomous → s.ipgState = .armed →
    (∀ m n, m < n → edgeAt s.cfg.syncEdge s.intPrev (syncSamples s.cfg ts) m = true →
      edgeAt s.cfg.syncEdge s.intPrev (syncSamples s.cfg ts) n = true → m + s.cfg.pulseWidth < n) →
    ∃ t, runTurns ts s = .next t ∧
      (t.nmiOut = false ↔
        ∃ e < (syncSamples s.cfg ts).length, edgeAt s.cfg.syncEdge s.intPrev (syncSamples s.cfg ts) e = true ∧
          (syncSamples s.cfg ts).length ≤ e + s.cfg.pulseWidth)

/-! ## Boot -/

/-- R100, R215, R39: from power-on the turns of STARTUP perform S1 to S5 (S1 before S2: log 8) and reach the reset state:
every element has the value R39 states, whatever turns other agents are given between them.  Only ENGINE can step
between S4 and S5, and then only its own elements may differ (R215); where it does not, they too have their reset
values. -/
def Obligations.BootReachesTheResetState : Prop :=
  ∀ (s : State) (first second : List Turn) (l4 l5 : Nat), PoweredOn s →
    (first.filter (fun u => u.agent == .startup)).length = 3 → (∀ u ∈ second, u.agent ≠ .startup) →
    ∃ t, runTurns (first ++ ⟨.startup, l4⟩ :: (second ++ [⟨.startup, l5⟩])) s = .next t ∧
      t.boot = .done ∧ t.engLive = true ∧ t.cfg = s.cfg ∧
      (∀ (r : Packed) (k : Nat), k < 14 → (lookup t r).getLsbD (sigma s.cfg k) = r.getLsbD k) ∧
      (∀ b < s.cfg.n, ∀ a, imgRead t b a = some (preconv s.cfg (romLogical s.cfg b a))) ∧
      t.resetOut = false ∧ t.swState = .idle ∧ t.btnState = .released ∧ t.dbCnt = 0 ∧ t.tmrArmed = false ∧
      t.wCnt = 0 ∧
      (s.cfg.ipgVariant = .autonomous → t.ipgState = .armed ∧ t.intPrev = wordLevel s.cfg l5 s.cfg.lInt) ∧
      (s.cfg.ipgVariant ≠ .autonomous → t.ipgState = .stopped) ∧
      (s.cfg.switchSource = .button → t.curImg = 0) ∧
      (s.cfg.ipgVariant ≠ .inline → t.nmiOut = true ∧ t.nmiPrev = false) ∧
      ((∀ u ∈ second, u.agent ≠ .engine) →
        t.curImg = 0 ∧ t.engState = .waiting ∧ t.nmiPrev = false ∧ t.nmiOut = true)

/-! ## Infinite runs under weak fairness -/

/-- R235, R236: every choice of turns has an infinite run, with no stop; and in a weakly fair one STARTUP finishes, and
ENGINE, SWITCH (with the button) and IPG (autonomous) each take infinitely many steps. -/
def Obligations.FairRunsStepEveryAgent : Prop :=
  (∀ (s : State) (turn : Nat → Turn), Inv s → ∃ r, r 0 = s ∧ InfiniteRun turn r) ∧
  ∀ (turn : Nat → Turn) (r : Nat → State), Inv (r 0) → InfiniteRun turn r → WeaklyFair turn r →
    (∃ n, ∀ m, n ≤ m → (r m).boot = .done) ∧
    (∀ n, ∃ m, n ≤ m ∧ Steps turn r .engine m) ∧
    ((r 0).cfg.switchSource = .button → ∀ n, ∃ m, n ≤ m ∧ Steps turn r .switch m) ∧
    ((r 0).cfg.ipgVariant = .autonomous → ∀ n, ∃ m, n ≤ m ∧ Steps turn r .ipg m)

/-- R236, the two claims that need fairness: a press that qualifies, of a button that is eventually released, is
followed by its bank change and the release of reset, on the first return to `Idle`; a transition observed in `Armed`
is followed by a pulse that ends. -/
def Obligations.FairRunsAnswerPressesAndTransitions : Prop :=
  ∀ (turn : Nat → Turn) (r : Nat → State) (n : Nat), Inv (r 0) → InfiniteRun turn r → WeaklyFair turn r →
    ((r n).boot = .done → (r n).cfg.switchSource = .button → (r n).swState = .debouncing →
      (r n).cfg.q ≤ (r n).dbCnt + 1 → (turn n).agent = .switch →
      wordLevel (r n).cfg (turn n).lines (r n).cfg.lBtn = true → (∃ k, n < k ∧ ReleasedFrom (r n).cfg turn k) →
      ∃ m, n < m ∧ (r m).swState = .idle ∧ (r m).resetOut = false ∧
        (r m).curImg = ((r n).curImg + 1) % (r n).cfg.n ∧ ∀ j, n < j → j < m → (r j).swState ≠ .idle) ∧
    ((r n).cfg.ipgVariant = .autonomous → (r n).ipgState = .armed → (turn n).agent = .ipg →
      edge (r n).cfg.syncEdge (r n).intPrev (wordLevel (r n).cfg (turn n).lines (r n).cfg.lInt) = true →
      ∃ m, n + 1 < m ∧ (r m).nmiOut = true ∧ (r m).ipgState = .armed ∧
        ∀ j, n < j → j < m → (r j).nmiOut = false)
end

