-- ==== Sys2Proof/Laws/Fetch.lean ====
section
/-!
SUPPORT. The operation each agent performs, by its control state and its snapshot (spec/30_encoding.md R81), and what
a step can be.
-/

namespace Sys2Proof.Machine

/-- The operation ENGINE performs: `rd` and `we` are the levels of its snapshot. -/
def engineOp (st : EngState) (rd we : Bool) : Instr :=
  match st, rd with
  | .waiting, true => .brePoll we
  | .waiting, false => if we then .breServe else .breSkipwr
  | .driving, true => .breRelease we
  | .driving, false => .breHold we
  | .skipping, true => .breSkipend we
  | .skipping, false => .breSkiphold we

theorem decode_engSelector (s : State) :
    decode (.eng (engSelector s)) = .ok (engineOp s.engState (level s s.cfg.lRd) (weLevel s)) := by
  unfold engSelector
  cases s.engState <;> cases level s s.cfg.lRd <;> cases weLevel s <;> rfl

/-- The operation SWITCH performs, or the reserved selector of a two-phase state in the immediate variant. -/
def switchOp (v : Bool) (st : SwState) (btn x : Bool) : Except Reserved Instr :=
  decode (.swf (bit v ++ st.code ++ bit btn ++ bit x))

theorem decode_swfSelector (s : State) :
    decode (.swf (swfSelector s)) = switchOp (variantBit s) s.swState (btn s) (swExpiry s) := rfl

/-- All SWITCH can perform (R81): the state, the samples and the variant each operation needs. -/
theorem switchOp_cases {v b x : Bool} {st : SwState} {i : Instr} (h : switchOp v st b x = .ok i) :
    (st = .idle ∧ b = false ∧ i = .swIdle v x) ∨
    (st = .idle ∧ b = true ∧ i = .swDetect v x) ∨
    (st = .debouncing ∧ b = true ∧ x = false ∧ i = .swCount v) ∨
    (st = .debouncing ∧ b = false ∧ i = .swBounce v x) ∨
    (st = .debouncing ∧ b = true ∧ x = true ∧ v = false ∧ i = .swQualify) ∨
    (st = .debouncing ∧ b = true ∧ x = true ∧ v = true ∧ i = .swQlabel) ∨
    (st = .swHold ∧ b = true ∧ i = .swHold v x) ∨
    (st = .swHold ∧ b = false ∧ i = .swUnpress v x) ∨
    (st = .swSettle ∧ x = false ∧ i = .swTick v .swSettle b) ∨
    (st = .labelShow ∧ x = false ∧ v = true ∧ i = .swTick v .labelShow b) ∨
    (st = .finalHold ∧ x = false ∧ v = true ∧ i = .swTick v .finalHold b) ∨
    (st = .swSettle ∧ x = true ∧ v = false ∧ i = .swRelease b) ∨
    (st = .swSettle ∧ x = true ∧ v = true ∧ i = .swShowlabel b) ∨
    (st = .labelShow ∧ x = true ∧ v = true ∧ i = .swRealswitch b) ∨
    (st = .finalHold ∧ x = true ∧ v = true ∧ i = .swFinalrel b) := by
  cases v <;> cases st <;> cases b <;> cases x <;> cases h <;> simp <;> decide

/-- SWITCH performs an operation in every state its variant has (R82, R161). -/
theorem switchOp_ok {v b x : Bool} {st : SwState} (h : st = .labelShow ∨ st = .finalHold → v = true) :
    ∃ i, switchOp v st b x = .ok i := by
  cases v <;> cases st <;> cases b <;> cases x <;> first | exact ⟨_, rfl⟩ | simp at h

/-- The operation IPG performs. -/
def ipgOp (st : IpgState) (e x : Bool) : Instr :=
  match st with
  | .stopped => .ipgOff e x
  | .armed => if e then .ipgSync x else .ipgWait x
  | .asserted => if x then .ipgEnd e else .ipgHold e

theorem decode_ipgSelector (s : State) :
    decode (.ipg (ipgSelector s)) = .ok (ipgOp s.ipgState (syncSeen s) (widthDone s)) := by
  unfold ipgSelector
  cases s.ipgState <;> cases syncSeen s <;> cases widthDone s <;> rfl

/-- The operation of a boot step. -/
def bootOp : BootStep → Option Instr
  | .s1 => some .aitBuild
  | .s2 => some .romPreconv
  | .s3 => some .coreInit
  | .s4 => some .engLaunch
  | .s5 => some .ipgStart
  | .done => none

/-- All a step can be: a refused configuration, a turn of an agent with no step, one operation, or a reserved
selector. -/
theorem step_cases (s : State) :
    (s.cfg.admitted = false ∧ step s = .refused .illFormedConfig) ∨
    (s.cfg.admitted = true ∧ selectorOf s.takeTurn s.nextTurn.agent = none ∧ step s = .next s.takeTurn) ∨
    (∃ w i, s.cfg.admitted = true ∧ selectorOf s.takeTurn s.nextTurn.agent = some w ∧ decode w = .ok i ∧
      step s = exec i (s.takeTurn.passBoot s.nextTurn.agent)) ∨
    (∃ w r, s.cfg.admitted = true ∧ selectorOf s.takeTurn s.nextTurn.agent = some w ∧ decode w = .error r ∧
      step s = .refused (.reservedSelector r)) := by
  unfold step
  cases ha : s.cfg.admitted with
  | false => exact .inl ⟨rfl, by simp⟩
  | true =>
    simp only [if_true]
    cases hw : selectorOf s.takeTurn s.nextTurn.agent with
    | none => exact .inr (.inl ⟨trivial, rfl, rfl⟩)
    | some w =>
      cases hd : decode w with
      | ok i => exact .inr (.inr (.inl ⟨w, i, trivial, rfl, hd, by simp only [hd]⟩))
      | error r => exact .inr (.inr (.inr ⟨w, r, trivial, rfl, hd, by simp only [hd]⟩))

end Sys2Proof.Machine
end

