-- ==== Sys2Proof/Laws/Memory.lean ====
section
/-!
SUPPORT. The laws of the sparse memories: what a read answers after each operation, that every operation keeps the
canonical form, and that equal contents in canonical form are equal data.
-/

namespace Sys2Proof.Machine.Memory

variable {α : Type} {u : Nat → Option α} {m : List (Nat × α)} {a b : Nat} {v : α}

@[simp] theorem read_nil : read u [] a = u a := rfl

theorem read_erase : read u (erase m a) b = if b = a then u a else read u m b := by
  induction m with
  | nil => by_cases h : b = a <;> simp [erase, read, h]
  | cons e m ih =>
    obtain ⟨k, w⟩ := e
    by_cases hk : k = a
    · simp only [erase, hk, if_true, ih, read]
      by_cases h : b = a
      · simp [h]
      · simp [h, Ne.symm h]
    · simp only [erase, hk, if_false, read, ih]
      by_cases h : b = a
      · subst h; simp [hk]
      · simp [h]

theorem read_insert : read u (insert m a v) b = if b = a then some v else read u m b := by
  induction m with
  | nil =>
    by_cases h : b = a
    · simp [insert, read, h]
    · simp [insert, read, h, Ne.symm h]
  | cons e m ih =>
    obtain ⟨k, w⟩ := e
    simp only [insert]
    split
    · by_cases h : b = a
      · simp [read, h]
      · simp [read, h, Ne.symm h]
    · split
      · rename_i h2
        subst h2
        by_cases h : b = a
        · simp [read, h]
        · simp [read, h, Ne.symm h]
      · rename_i h1 h2
        simp only [read, ih]
        by_cases h : b = a
        · subst h; simp [Ne.symm h2]
        · simp [h]

/-- A read after a write gives the value written, and every other index reads as before. -/
theorem read_write [DecidableEq α] : read u (write u m a v) b = if b = a then some v else read u m b := by
  unfold write
  split
  · rename_i h; rw [read_erase, h]
  · exact read_insert

/-- What the loop `m[base + k] <- f k`, k < n, leaves. -/
theorem read_fill [DecidableEq α] {f : Nat → α} {base n : Nat} :
    read u (fill u base f n m) b = if base ≤ b ∧ b < base + n then some (f (b - base)) else read u m b := by
  induction n with
  | zero => simp only [fill]; rw [if_neg]; omega
  | succ n ih =>
    simp only [fill, read_write, ih]
    by_cases h : b = base + n
    · subst h; simp
    · simp only [h, if_false]
      by_cases h2 : base ≤ b ∧ b < base + n
      · rw [if_pos h2, if_pos ⟨h2.1, by omega⟩]
      · rw [if_neg h2, if_neg (by omega)]

/-- What the loop `m[base + k] <- g m[base + k]`, k < n, leaves. -/
theorem read_mapInPlace [DecidableEq α] {g : α → α} {base n : Nat} :
    read u (mapInPlace u base g n m) b =
      if base ≤ b ∧ b < base + n then (read u m b).map g else read u m b := by
  induction n generalizing b with
  | zero => simp only [mapInPlace]; rw [if_neg]; omega
  | succ n ih =>
    simp only [mapInPlace]
    have hn : read u (mapInPlace u base g n m) (base + n) = read u m (base + n) := by
      rw [ih, if_neg (by omega)]
    split
    · rename_i w hw
      rw [hn] at hw
      rw [read_write, ih]
      by_cases h : b = base + n
      · subst h; simp [hw]
      · simp only [h, if_false]
        by_cases h2 : base ≤ b ∧ b < base + n
        · rw [if_pos h2, if_pos ⟨h2.1, by omega⟩]
        · rw [if_neg h2, if_neg (by omega)]
    · rename_i hw
      rw [hn] at hw
      rw [ih]
      by_cases h : b = base + n
      · subst h; simp [hw]
      · by_cases h2 : base ≤ b ∧ b < base + n
        · rw [if_pos h2, if_pos ⟨h2.1, by omega⟩]
        · rw [if_neg h2, if_neg (by omega)]

/-- The canonical form, one entry at a time. -/
theorem wf_cons [DecidableEq α] {size k : Nat} {w : α} :
    wf u size ((k, w) :: m) = true ↔
      k < size ∧ u k ≠ some w ∧ (∀ e ∈ m, k < e.1) ∧ wf u size m = true := by
  simp only [wf, Bool.and_eq_true, decide_eq_true_eq, List.all_eq_true, and_assoc]

theorem mem_erase {e : Nat × α} (h : e ∈ erase m a) : e ∈ m := by
  induction m with
  | nil => exact h
  | cons f m ih =>
    obtain ⟨k, w⟩ := f
    simp only [erase] at h
    split at h
    · exact List.mem_cons_of_mem _ (ih h)
    · rcases List.mem_cons.1 h with h | h
      · exact h ▸ List.mem_cons_self
      · exact List.mem_cons_of_mem _ (ih h)

theorem mem_insert {e : Nat × α} (h : e ∈ insert m a v) : e = (a, v) ∨ e ∈ m := by
  induction m with
  | nil => exact .inl (List.mem_singleton.1 h)
  | cons f m ih =>
    obtain ⟨k, w⟩ := f
    simp only [insert] at h
    split at h
    · rcases List.mem_cons.1 h with h | h
      · exact .inl h
      · exact .inr h
    · split at h
      · rcases List.mem_cons.1 h with h | h
        · exact .inl h
        · exact .inr (List.mem_cons_of_mem _ h)
      · rcases List.mem_cons.1 h with h | h
        · exact .inr (h ▸ List.mem_cons_self)
        · exact (ih h).imp id (List.mem_cons_of_mem _)

theorem wf_erase [DecidableEq α] {size : Nat} (h : wf u size m = true) : wf u size (erase m a) = true := by
  induction m with
  | nil => exact h
  | cons e m ih =>
    obtain ⟨k, w⟩ := e
    obtain ⟨h1, h2, h3, h4⟩ := wf_cons.1 h
    simp only [erase]
    split
    · exact ih h4
    · exact wf_cons.2 ⟨h1, h2, fun e he => h3 e (mem_erase he), ih h4⟩

theorem wf_insert [DecidableEq α] {size : Nat} (h : wf u size m = true) (ha : a < size) (hv : u a ≠ some v) :
    wf u size (insert m a v) = true := by
  induction m with
  | nil => exact wf_cons.2 ⟨ha, hv, by simp, rfl⟩
  | cons e m ih =>
    obtain ⟨k, w⟩ := e
    obtain ⟨h1, h2, h3, h4⟩ := wf_cons.1 h
    simp only [insert]
    split
    · rename_i hlt
      refine wf_cons.2 ⟨ha, hv, ?_, h⟩
      intro e he
      rcases List.mem_cons.1 he with rfl | he
      · exact hlt
      · exact lt_trans hlt (h3 e he)
    · split
      · rename_i heq
        subst heq
        exact wf_cons.2 ⟨ha, hv, h3, h4⟩
      · rename_i hlt hne
        refine wf_cons.2 ⟨h1, h2, ?_, ih h4⟩
        intro e he
        rcases mem_insert he with rfl | he
        · show k < a; omega
        · exact h3 e he

/-- A write keeps the canonical form. -/
theorem wf_write [DecidableEq α] {size : Nat} (h : wf u size m = true) (ha : a < size) :
    wf u size (write u m a v) = true := by
  unfold write
  split
  · exact wf_erase h
  · exact wf_insert h ha ‹_›

theorem wf_fill [DecidableEq α] {size base n : Nat} {f : Nat → α} (h : wf u size m = true) (hs : base + n ≤ size) :
    wf u size (fill u base f n m) = true := by
  induction n with
  | zero => simpa only [fill] using h
  | succ n ih =>
    simp only [fill]
    exact wf_write (ih (by omega)) (by omega)

theorem wf_mapInPlace [DecidableEq α] {size base n : Nat} {g : α → α} (h : wf u size m = true)
    (hs : base + n ≤ size) : wf u size (mapInPlace u base g n m) = true := by
  induction n with
  | zero => simpa only [mapInPlace] using h
  | succ n ih =>
    simp only [mapInPlace]
    split
    · exact wf_write (ih (by omega)) (by omega)
    · exact ih (by omega)

theorem read_of_lt {k : Nat} (h : ∀ e ∈ m, k < e.1) : read u m k = u k := by
  induction m with
  | nil => rfl
  | cons e m ih =>
    obtain ⟨j, w⟩ := e
    have := h (j, w) List.mem_cons_self
    simp only [read]
    rw [if_neg (by simp only at this; omega), ih (fun e he => h e (List.mem_cons_of_mem _ he))]

/-- Equal contents in canonical form are equal data. -/
theorem ext_of_wf [DecidableEq α] {size : Nat} {m₁ m₂ : List (Nat × α)} (h₁ : wf u size m₁ = true)
    (h₂ : wf u size m₂ = true) (h : ∀ k, read u m₁ k = read u m₂ k) : m₁ = m₂ := by
  induction m₁ generalizing m₂ with
  | nil =>
    cases m₂ with
    | nil => rfl
    | cons e m =>
      obtain ⟨k, w⟩ := e
      have := h k
      simp only [read, if_true] at this
      exact absurd this (wf_cons.1 h₂).2.1
  | cons e₁ m₁ ih =>
    obtain ⟨k₁, w₁⟩ := e₁
    obtain ⟨-, hu₁, hl₁, hw₁⟩ := wf_cons.1 h₁
    cases m₂ with
    | nil =>
      have := h k₁
      simp only [read, if_true] at this
      exact absurd this.symm hu₁
    | cons e₂ m₂ =>
      obtain ⟨k₂, w₂⟩ := e₂
      obtain ⟨-, hu₂, hl₂, hw₂⟩ := wf_cons.1 h₂
      have key : k₁ = k₂ := by
        rcases Nat.lt_trichotomy k₁ k₂ with hlt | heq | hgt
        · have := h k₁
          rw [read_of_lt (m := (k₂, w₂) :: m₂)] at this
          · simp only [read, if_true] at this
            exact absurd this.symm hu₁
          · intro e he
            rcases List.mem_cons.1 he with rfl | he
            · exact hlt
            · exact lt_trans hlt (hl₂ e he)
        · exact heq
        · have := h k₂
          rw [read_of_lt (m := (k₁, w₁) :: m₁)] at this
          · simp only [read, if_true] at this
            exact absurd this hu₂
          · intro e he
            rcases List.mem_cons.1 he with rfl | he
            · exact hgt
            · exact lt_trans hgt (hl₁ e he)
      subst key
      have hw : w₁ = w₂ := by
        have := h k₁
        simpa [read] using this
      subst hw
      congr 1
      refine ih hw₁ hw₂ (fun k => ?_)
      by_cases hk : k₁ = k
      · subst hk; rw [read_of_lt hl₁, read_of_lt hl₂]
      · have := h k
        simpa [read, hk] using this

end Sys2Proof.Machine.Memory
end

