-- ==== Sys2Proof/Laws/Operands.lean ====
section
/-!
SUPPORT. What each pure function of a configuration computes, bit by bit, and what R9 says of an admitted
configuration.
-/

namespace Sys2Proof

/-- What R9 gives of an admitted configuration, by name. -/
structure Config.Admits (c : Config) : Prop where
  addr_nodup : c.addrLine.toList.Nodup
  data_nodup : c.dataLine.toList.Nodup
  pack_nodup : c.packPos.toList.Nodup
  slot_nodup : c.dataSlot.toList.Nodup
  pack_mem : ∀ l, l ∈ c.packPos.toList ↔ l ∈ c.addrLine.toList
  slot_mem : ∀ l, l ∈ c.dataSlot.toList ↔ l ∈ c.dataLine.toList
  named_lt : ∀ l ∈ c.namedLines, l < c.w
  named_nodup : c.namedLines.Nodup
  trig_lt : ∀ e ∈ c.trigTable, e.2 < c.n
  trig_nodup : (c.trigTable.map Prod.fst).Nodup
  label_len : 1 ≤ c.labelLen
  label_fits : c.labelOffset + c.labelLen ≤ imageSize
  n_pos : 1 ≤ c.n
  q_ge : 2 ≤ c.q
  settle_pos : 1 ≤ c.settleDelay
  display_pos : 1 ≤ c.labelDisplay
  hold_pos : 1 ≤ c.resetHold
  width_pos : 1 ≤ c.pulseWidth
  width_lt : c.pulseWidth < c.pulsePeriod
  two_phase : c.switchVariant = .twoPhase → c.switchSource = .button

theorem Config.admits_of_admitted {c : Config} (h : c.admitted = true) : c.Admits := by
  simp only [Config.admitted, Config.packOk, Config.slotOk, Config.linesOk, Config.trigOk, Config.labelOk,
    Config.countsOk, Config.variantOk, Bool.and_eq_true, decide_eq_true_eq, List.all_eq_true,
    List.contains_iff_mem] at h
  obtain ⟨⟨⟨⟨⟨⟨⟨⟨p1, p2⟩, p3⟩, ⟨⟨s1, s2⟩, s3⟩⟩, ⟨l1, l2⟩⟩, ⟨t1, t2⟩⟩, ⟨⟨⟨b1, b2⟩, _⟩, _⟩⟩,
    ⟨⟨⟨⟨⟨⟨c1, c2⟩, c3⟩, c4⟩, c5⟩, c6⟩, c7⟩⟩, v⟩ := h
  have hn := l1
  simp only [Config.namedLines, List.append_assoc] at l1
  refine ⟨(List.nodup_append.1 l1).1, ?_, p1, s1, fun l => ⟨p2 l, p3 l⟩, fun l => ⟨s2 l, s3 l⟩, l2, hn, t1, t2, b1, b2,
    c1, c2, c3, c4, c5, c6, c7, v⟩
  exact (List.nodup_append.1 (List.nodup_append.1 l1).2.1).1

namespace Machine

@[simp] theorem getLsbD_ofBits {n i : Nat} {f : Nat → Bool} : (ofBits n f).getLsbD i = (decide (i < n) && f i) := by
  induction n with
  | zero => simp [ofBits]
  | succ n ih =>
    rw [ofBits, BitVec.getLsbD_cons, ih]
    by_cases h : i = n
    · simp [h]
    · simp only [h, if_false]
      congr 1
      exact decide_eq_decide.2 (by omega)

theorem getLsbD_scatter {c : Config} {a : Addr} {l : Nat} :
    (scatter c a).getLsbD l = (decide (l < c.w) && a.getLsbD (c.addrLine.toList.idxOf l)) := getLsbD_ofBits

theorem getLsbD_pack {c : Config} {s : BitVec c.w} {k : Nat} :
    (pack c s).getLsbD k = (decide (k < 14) && s.getLsbD (c.packPos.toList.getD k 0)) := getLsbD_ofBits

theorem getLsbD_aitEntry {c : Config} {r : Packed} {i : Nat} :
    (aitEntry c r).getLsbD i =
      (decide (i < 14) && r.getLsbD (c.packPos.toList.idxOf (c.addrLine.toList.getD i 0))) := getLsbD_ofBits

theorem getLsbD_addrMask {c : Config} {l : Nat} :
    (addrMask c).getLsbD l = (decide (l < c.w) && c.addrLine.toList.contains l) := getLsbD_ofBits

theorem getLsbD_preconv {c : Config} {b : Byte} {j : Nat} :
    (preconv c b).getLsbD j =
      (decide (j < 8) && b.getLsbD (c.dataLine.toList.idxOf (c.dataSlot.toList.getD j 0))) := getLsbD_ofBits

theorem getLsbD_place {c : Config} {b : Byte} {l : Nat} :
    (place c b).getLsbD l = (decide (l < c.w) && b.getLsbD (c.dataSlot.toList.idxOf l)) := getLsbD_ofBits

theorem getLsbD_hostByte {s : State} {i : Nat} :
    (hostByte s).getLsbD i = (decide (i < 8) && (dataLines s).getLsbD (s.cfg.dataLine.toList.getD i 0)) :=
  getLsbD_ofBits

/-- In a list without repeats, an element's position is the position it stands at. -/
theorem idxOf_getD {l : List Nat} (h : l.Nodup) {i : Nat} (hi : i < l.length) : l.idxOf (l.getD i 0) = i := by
  rw [List.getD_eq_getElem _ _ hi]
  exact h.idxOf_getElem i hi

/-- The element at an element's position is that element. -/
theorem getD_idxOf {l : List Nat} {x : Nat} (h : x ∈ l) : l.getD (l.idxOf x) 0 = x := by
  rw [List.getD_eq_getElem _ _ (List.idxOf_lt_length_iff.2 h), List.getElem_idxOf]

theorem getD_mem {l : List Nat} {i : Nat} (hi : i < l.length) : l.getD i 0 ∈ l := by
  rw [List.getD_eq_getElem _ _ hi]
  exact List.getElem_mem hi

@[simp] theorem imgAddr_div {s off : Nat} (h : off < imageSize) : imgAddr s off / imageSize = s := by
  rw [imageSize_eq] at *; simp only [imgAddr, imageSize_eq]; omega

@[simp] theorem imgAddr_mod {s off : Nat} (h : off < imageSize) : imgAddr s off % imageSize = off := by
  rw [imageSize_eq] at *; simp only [imgAddr, imageSize_eq]; omega

/-- What an unlisted byte of a bank reads as (R39). -/
theorem imgUnlisted_bank {c : Config} {b : Nat} {a : Addr} (h : b < c.n) :
    imgUnlisted c (imgAddr b a.toNat) = some (preconv c (romLogical c b a)) := by
  have ha := toNat_lt_imageSize a
  simp [imgUnlisted, imgAddr_div ha, imgAddr_mod ha, h]

/-- A byte of the label slot has no value until one is written (R39). -/
theorem imgUnlisted_label {c : Config} {b : Nat} {a : Addr} (h : c.n ≤ b) :
    imgUnlisted c (imgAddr b a.toNat) = none := by
  have ha := toNat_lt_imageSize a
  simp [imgUnlisted, imgAddr_div ha, Nat.not_lt.2 h]

/-- A trigger names a bank, or leaves the selector as it is (R122). -/
theorem trig_lt {c : Config} (h : c.Admits) {a : Addr} {i : Nat} (hi : i < c.n) : trig c a i < c.n := by
  unfold trig
  split
  · rename_i e he
    exact h.trig_lt e (List.mem_of_find?_eq_some he)
  · exact hi

end Machine

end Sys2Proof
end

