-- ==== Sys2Proof/Laws/State.lean ====
section
/-!
SUPPORT. What each named update of the state does to each field: the new value of the fields it writes, and the old
value of the others.
-/

namespace Sys2Proof.Machine

@[simp] theorem arm_cfg (s : State) (d : Nat) (act : TmrAct) : (s.arm d act).cfg = s.cfg := rfl
@[simp] theorem arm_boot (s : State) (d : Nat) (act : TmrAct) : (s.arm d act).boot = s.boot := rfl
@[simp] theorem arm_engLive (s : State) (d : Nat) (act : TmrAct) : (s.arm d act).engLive = s.engLive := rfl
@[simp] theorem arm_ait (s : State) (d : Nat) (act : TmrAct) : (s.arm d act).ait = s.ait := rfl
@[simp] theorem arm_img (s : State) (d : Nat) (act : TmrAct) : (s.arm d act).img = s.img := rfl
@[simp] theorem arm_engState (s : State) (d : Nat) (act : TmrAct) : (s.arm d act).engState = s.engState := rfl
@[simp] theorem arm_snap (s : State) (d : Nat) (act : TmrAct) : (s.arm d act).snap = s.snap := rfl
@[simp] theorem arm_raw (s : State) (d : Nat) (act : TmrAct) : (s.arm d act).raw = s.raw := rfl
@[simp] theorem arm_laddr (s : State) (d : Nat) (act : TmrAct) : (s.arm d act).laddr = s.laddr := rfl
@[simp] theorem arm_outByte (s : State) (d : Nat) (act : TmrAct) : (s.arm d act).outByte = s.outByte := rfl
@[simp] theorem arm_nmiPrev (s : State) (d : Nat) (act : TmrAct) : (s.arm d act).nmiPrev = s.nmiPrev := rfl
@[simp] theorem arm_dataOut (s : State) (d : Nat) (act : TmrAct) : (s.arm d act).dataOut = s.dataOut := rfl
@[simp] theorem arm_curImg (s : State) (d : Nat) (act : TmrAct) : (s.arm d act).curImg = s.curImg := rfl
@[simp] theorem arm_swState (s : State) (d : Nat) (act : TmrAct) : (s.arm d act).swState = s.swState := rfl
@[simp] theorem arm_btnState (s : State) (d : Nat) (act : TmrAct) : (s.arm d act).btnState = s.btnState := rfl
@[simp] theorem arm_dbCnt (s : State) (d : Nat) (act : TmrAct) : (s.arm d act).dbCnt = s.dbCnt := rfl
@[simp] theorem arm_pendIdx (s : State) (d : Nat) (act : TmrAct) : (s.arm d act).pendIdx = s.pendIdx := rfl
@[simp] theorem arm_tmrArmed (s : State) (d : Nat) (act : TmrAct) : (s.arm d act).tmrArmed = true := rfl
@[simp] theorem arm_tmrRem (s : State) (d : Nat) (act : TmrAct) : (s.arm d act).tmrRem = d := rfl
@[simp] theorem arm_tmrAct (s : State) (d : Nat) (act : TmrAct) : (s.arm d act).tmrAct = act := rfl
@[simp] theorem arm_resetOut (s : State) (d : Nat) (act : TmrAct) : (s.arm d act).resetOut = s.resetOut := rfl
@[simp] theorem arm_ipgState (s : State) (d : Nat) (act : TmrAct) : (s.arm d act).ipgState = s.ipgState := rfl
@[simp] theorem arm_wCnt (s : State) (d : Nat) (act : TmrAct) : (s.arm d act).wCnt = s.wCnt := rfl
@[simp] theorem arm_intPrev (s : State) (d : Nat) (act : TmrAct) : (s.arm d act).intPrev = s.intPrev := rfl
@[simp] theorem arm_nmiOut (s : State) (d : Nat) (act : TmrAct) : (s.arm d act).nmiOut = s.nmiOut := rfl
@[simp] theorem arm_pulseTiming (s : State) (d : Nat) (act : TmrAct) : (s.arm d act).pulseTiming = s.pulseTiming := rfl
@[simp] theorem arm_lines (s : State) (d : Nat) (act : TmrAct) : (s.arm d act).lines = s.lines := rfl
@[simp] theorem arm_sched (s : State) (d : Nat) (act : TmrAct) : (s.arm d act).sched = s.sched := rfl
@[simp] theorem arm_turnNo (s : State) (d : Nat) (act : TmrAct) : (s.arm d act).turnNo = s.turnNo := rfl

@[simp] theorem buildLabel_cfg (s : State) (b : Nat) : (s.buildLabel b).cfg = s.cfg := rfl
@[simp] theorem buildLabel_boot (s : State) (b : Nat) : (s.buildLabel b).boot = s.boot := rfl
@[simp] theorem buildLabel_engLive (s : State) (b : Nat) : (s.buildLabel b).engLive = s.engLive := rfl
@[simp] theorem buildLabel_ait (s : State) (b : Nat) : (s.buildLabel b).ait = s.ait := rfl
@[simp] theorem buildLabel_engState (s : State) (b : Nat) : (s.buildLabel b).engState = s.engState := rfl
@[simp] theorem buildLabel_snap (s : State) (b : Nat) : (s.buildLabel b).snap = s.snap := rfl
@[simp] theorem buildLabel_raw (s : State) (b : Nat) : (s.buildLabel b).raw = s.raw := rfl
@[simp] theorem buildLabel_laddr (s : State) (b : Nat) : (s.buildLabel b).laddr = s.laddr := rfl
@[simp] theorem buildLabel_outByte (s : State) (b : Nat) : (s.buildLabel b).outByte = s.outByte := rfl
@[simp] theorem buildLabel_nmiPrev (s : State) (b : Nat) : (s.buildLabel b).nmiPrev = s.nmiPrev := rfl
@[simp] theorem buildLabel_dataOut (s : State) (b : Nat) : (s.buildLabel b).dataOut = s.dataOut := rfl
@[simp] theorem buildLabel_curImg (s : State) (b : Nat) : (s.buildLabel b).curImg = s.curImg := rfl
@[simp] theorem buildLabel_swState (s : State) (b : Nat) : (s.buildLabel b).swState = s.swState := rfl
@[simp] theorem buildLabel_btnState (s : State) (b : Nat) : (s.buildLabel b).btnState = s.btnState := rfl
@[simp] theorem buildLabel_dbCnt (s : State) (b : Nat) : (s.buildLabel b).dbCnt = s.dbCnt := rfl
@[simp] theorem buildLabel_pendIdx (s : State) (b : Nat) : (s.buildLabel b).pendIdx = s.pendIdx := rfl
@[simp] theorem buildLabel_tmrArmed (s : State) (b : Nat) : (s.buildLabel b).tmrArmed = s.tmrArmed := rfl
@[simp] theorem buildLabel_tmrRem (s : State) (b : Nat) : (s.buildLabel b).tmrRem = s.tmrRem := rfl
@[simp] theorem buildLabel_tmrAct (s : State) (b : Nat) : (s.buildLabel b).tmrAct = s.tmrAct := rfl
@[simp] theorem buildLabel_resetOut (s : State) (b : Nat) : (s.buildLabel b).resetOut = s.resetOut := rfl
@[simp] theorem buildLabel_ipgState (s : State) (b : Nat) : (s.buildLabel b).ipgState = s.ipgState := rfl
@[simp] theorem buildLabel_wCnt (s : State) (b : Nat) : (s.buildLabel b).wCnt = s.wCnt := rfl
@[simp] theorem buildLabel_intPrev (s : State) (b : Nat) : (s.buildLabel b).intPrev = s.intPrev := rfl
@[simp] theorem buildLabel_nmiOut (s : State) (b : Nat) : (s.buildLabel b).nmiOut = s.nmiOut := rfl
@[simp] theorem buildLabel_pulseTiming (s : State) (b : Nat) : (s.buildLabel b).pulseTiming = s.pulseTiming := rfl
@[simp] theorem buildLabel_lines (s : State) (b : Nat) : (s.buildLabel b).lines = s.lines := rfl
@[simp] theorem buildLabel_sched (s : State) (b : Nat) : (s.buildLabel b).sched = s.sched := rfl
@[simp] theorem buildLabel_turnNo (s : State) (b : Nat) : (s.buildLabel b).turnNo = s.turnNo := rfl

@[simp] theorem takeTurn_cfg (s : State) : s.takeTurn.cfg = s.cfg := rfl
@[simp] theorem takeTurn_boot (s : State) : s.takeTurn.boot = s.boot := rfl
@[simp] theorem takeTurn_engLive (s : State) : s.takeTurn.engLive = s.engLive := rfl
@[simp] theorem takeTurn_ait (s : State) : s.takeTurn.ait = s.ait := rfl
@[simp] theorem takeTurn_img (s : State) : s.takeTurn.img = s.img := rfl
@[simp] theorem takeTurn_engState (s : State) : s.takeTurn.engState = s.engState := rfl
@[simp] theorem takeTurn_snap (s : State) : s.takeTurn.snap = s.snap := rfl
@[simp] theorem takeTurn_raw (s : State) : s.takeTurn.raw = s.raw := rfl
@[simp] theorem takeTurn_laddr (s : State) : s.takeTurn.laddr = s.laddr := rfl
@[simp] theorem takeTurn_outByte (s : State) : s.takeTurn.outByte = s.outByte := rfl
@[simp] theorem takeTurn_nmiPrev (s : State) : s.takeTurn.nmiPrev = s.nmiPrev := rfl
@[simp] theorem takeTurn_dataOut (s : State) : s.takeTurn.dataOut = s.dataOut := rfl
@[simp] theorem takeTurn_curImg (s : State) : s.takeTurn.curImg = s.curImg := rfl
@[simp] theorem takeTurn_swState (s : State) : s.takeTurn.swState = s.swState := rfl
@[simp] theorem takeTurn_btnState (s : State) : s.takeTurn.btnState = s.btnState := rfl
@[simp] theorem takeTurn_dbCnt (s : State) : s.takeTurn.dbCnt = s.dbCnt := rfl
@[simp] theorem takeTurn_pendIdx (s : State) : s.takeTurn.pendIdx = s.pendIdx := rfl
@[simp] theorem takeTurn_tmrArmed (s : State) : s.takeTurn.tmrArmed = s.tmrArmed := rfl
@[simp] theorem takeTurn_tmrRem (s : State) : s.takeTurn.tmrRem = s.tmrRem := rfl
@[simp] theorem takeTurn_tmrAct (s : State) : s.takeTurn.tmrAct = s.tmrAct := rfl
@[simp] theorem takeTurn_resetOut (s : State) : s.takeTurn.resetOut = s.resetOut := rfl
@[simp] theorem takeTurn_ipgState (s : State) : s.takeTurn.ipgState = s.ipgState := rfl
@[simp] theorem takeTurn_wCnt (s : State) : s.takeTurn.wCnt = s.wCnt := rfl
@[simp] theorem takeTurn_intPrev (s : State) : s.takeTurn.intPrev = s.intPrev := rfl
@[simp] theorem takeTurn_nmiOut (s : State) : s.takeTurn.nmiOut = s.nmiOut := rfl
@[simp] theorem takeTurn_pulseTiming (s : State) : s.takeTurn.pulseTiming = s.pulseTiming := rfl
@[simp] theorem takeTurn_lines (s : State) : s.takeTurn.lines = s.nextTurn.lines := rfl
@[simp] theorem takeTurn_sched (s : State) : s.takeTurn.sched = s.sched.tail := rfl
@[simp] theorem takeTurn_turnNo (s : State) : s.takeTurn.turnNo = s.turnNo + 1 := rfl

@[simp] theorem engineTo_cfg (s : State) (e : EngState) : (engineTo s e).cfg = s.cfg := rfl
@[simp] theorem engineTo_boot (s : State) (e : EngState) : (engineTo s e).boot = s.boot := rfl
@[simp] theorem engineTo_engLive (s : State) (e : EngState) : (engineTo s e).engLive = s.engLive := rfl
@[simp] theorem engineTo_ait (s : State) (e : EngState) : (engineTo s e).ait = s.ait := rfl
@[simp] theorem engineTo_img (s : State) (e : EngState) : (engineTo s e).img = s.img := rfl
@[simp] theorem engineTo_engState (s : State) (e : EngState) : (engineTo s e).engState = e := rfl
@[simp] theorem engineTo_snap (s : State) (e : EngState) : (engineTo s e).snap = (sample s).toNat := rfl
@[simp] theorem engineTo_raw (s : State) (e : EngState) : (engineTo s e).raw = s.raw := rfl
@[simp] theorem engineTo_laddr (s : State) (e : EngState) : (engineTo s e).laddr = s.laddr := rfl
@[simp] theorem engineTo_outByte (s : State) (e : EngState) : (engineTo s e).outByte = s.outByte := rfl
@[simp] theorem engineTo_nmiPrev (s : State) (e : EngState) : (engineTo s e).nmiPrev = s.nmiPrev := rfl
@[simp] theorem engineTo_dataOut (s : State) (e : EngState) : (engineTo s e).dataOut = s.dataOut := rfl
@[simp] theorem engineTo_curImg (s : State) (e : EngState) : (engineTo s e).curImg = s.curImg := rfl
@[simp] theorem engineTo_swState (s : State) (e : EngState) : (engineTo s e).swState = s.swState := rfl
@[simp] theorem engineTo_btnState (s : State) (e : EngState) : (engineTo s e).btnState = s.btnState := rfl
@[simp] theorem engineTo_dbCnt (s : State) (e : EngState) : (engineTo s e).dbCnt = s.dbCnt := rfl
@[simp] theorem engineTo_pendIdx (s : State) (e : EngState) : (engineTo s e).pendIdx = s.pendIdx := rfl
@[simp] theorem engineTo_tmrArmed (s : State) (e : EngState) : (engineTo s e).tmrArmed = s.tmrArmed := rfl
@[simp] theorem engineTo_tmrRem (s : State) (e : EngState) : (engineTo s e).tmrRem = s.tmrRem := rfl
@[simp] theorem engineTo_tmrAct (s : State) (e : EngState) : (engineTo s e).tmrAct = s.tmrAct := rfl
@[simp] theorem engineTo_resetOut (s : State) (e : EngState) : (engineTo s e).resetOut = s.resetOut := rfl
@[simp] theorem engineTo_ipgState (s : State) (e : EngState) : (engineTo s e).ipgState = s.ipgState := rfl
@[simp] theorem engineTo_wCnt (s : State) (e : EngState) : (engineTo s e).wCnt = s.wCnt := rfl
@[simp] theorem engineTo_intPrev (s : State) (e : EngState) : (engineTo s e).intPrev = s.intPrev := rfl
@[simp] theorem engineTo_nmiOut (s : State) (e : EngState) : (engineTo s e).nmiOut = s.nmiOut := rfl
@[simp] theorem engineTo_pulseTiming (s : State) (e : EngState) : (engineTo s e).pulseTiming = s.pulseTiming := rfl
@[simp] theorem engineTo_lines (s : State) (e : EngState) : (engineTo s e).lines = s.lines := rfl
@[simp] theorem engineTo_sched (s : State) (e : EngState) : (engineTo s e).sched = s.sched := rfl
@[simp] theorem engineTo_turnNo (s : State) (e : EngState) : (engineTo s e).turnNo = s.turnNo := rfl

@[simp] theorem served_cfg (s : State) (a : Addr) (b : Byte) : (served s a b).cfg = s.cfg := rfl
@[simp] theorem served_boot (s : State) (a : Addr) (b : Byte) : (served s a b).boot = s.boot := rfl
@[simp] theorem served_engLive (s : State) (a : Addr) (b : Byte) : (served s a b).engLive = s.engLive := rfl
@[simp] theorem served_ait (s : State) (a : Addr) (b : Byte) : (served s a b).ait = s.ait := rfl
@[simp] theorem served_img (s : State) (a : Addr) (b : Byte) : (served s a b).img = s.img := rfl
@[simp] theorem served_engState (s : State) (a : Addr) (b : Byte) : (served s a b).engState = .driving := rfl
@[simp] theorem served_snap (s : State) (a : Addr) (b : Byte) : (served s a b).snap = (sample s).toNat := rfl
@[simp] theorem served_raw (s : State) (a : Addr) (b : Byte) : (served s a b).raw = pack s.cfg (sample s) := rfl
@[simp] theorem served_laddr (s : State) (a : Addr) (b : Byte) : (served s a b).laddr = a := rfl
@[simp] theorem served_outByte (s : State) (a : Addr) (b : Byte) : (served s a b).outByte = b := rfl
@[simp] theorem served_nmiPrev (s : State) (a : Addr) (b : Byte) : (served s a b).nmiPrev = (servedPulse s a).2 := rfl
@[simp] theorem served_dataOut (s : State) (a : Addr) (b : Byte) : (served s a b).dataOut = b := rfl
@[simp] theorem served_curImg (s : State) (a : Addr) (b : Byte) : (served s a b).curImg = servedImg s a := rfl
@[simp] theorem served_swState (s : State) (a : Addr) (b : Byte) : (served s a b).swState = s.swState := rfl
@[simp] theorem served_btnState (s : State) (a : Addr) (b : Byte) : (served s a b).btnState = s.btnState := rfl
@[simp] theorem served_dbCnt (s : State) (a : Addr) (b : Byte) : (served s a b).dbCnt = s.dbCnt := rfl
@[simp] theorem served_pendIdx (s : State) (a : Addr) (b : Byte) : (served s a b).pendIdx = s.pendIdx := rfl
@[simp] theorem served_tmrArmed (s : State) (a : Addr) (b : Byte) : (served s a b).tmrArmed = s.tmrArmed := rfl
@[simp] theorem served_tmrRem (s : State) (a : Addr) (b : Byte) : (served s a b).tmrRem = s.tmrRem := rfl
@[simp] theorem served_tmrAct (s : State) (a : Addr) (b : Byte) : (served s a b).tmrAct = s.tmrAct := rfl
@[simp] theorem served_resetOut (s : State) (a : Addr) (b : Byte) : (served s a b).resetOut = s.resetOut := rfl
@[simp] theorem served_ipgState (s : State) (a : Addr) (b : Byte) : (served s a b).ipgState = s.ipgState := rfl
@[simp] theorem served_wCnt (s : State) (a : Addr) (b : Byte) : (served s a b).wCnt = s.wCnt := rfl
@[simp] theorem served_intPrev (s : State) (a : Addr) (b : Byte) : (served s a b).intPrev = s.intPrev := rfl
@[simp] theorem served_nmiOut (s : State) (a : Addr) (b : Byte) : (served s a b).nmiOut = (servedPulse s a).1 := rfl
@[simp] theorem served_pulseTiming (s : State) (a : Addr) (b : Byte) : (served s a b).pulseTiming = s.pulseTiming := rfl
@[simp] theorem served_lines (s : State) (a : Addr) (b : Byte) : (served s a b).lines = s.lines := rfl
@[simp] theorem served_sched (s : State) (a : Addr) (b : Byte) : (served s a b).sched = s.sched := rfl
@[simp] theorem served_turnNo (s : State) (a : Addr) (b : Byte) : (served s a b).turnNo = s.turnNo := rfl

@[simp] theorem passBoot_cfg (s : State) (g : Agent) : (s.passBoot g).cfg = s.cfg := by cases g <;> rfl
@[simp] theorem passBoot_engLive (s : State) (g : Agent) : (s.passBoot g).engLive = s.engLive := by cases g <;> rfl
@[simp] theorem passBoot_ait (s : State) (g : Agent) : (s.passBoot g).ait = s.ait := by cases g <;> rfl
@[simp] theorem passBoot_img (s : State) (g : Agent) : (s.passBoot g).img = s.img := by cases g <;> rfl
@[simp] theorem passBoot_engState (s : State) (g : Agent) : (s.passBoot g).engState = s.engState := by cases g <;> rfl
@[simp] theorem passBoot_snap (s : State) (g : Agent) : (s.passBoot g).snap = s.snap := by cases g <;> rfl
@[simp] theorem passBoot_raw (s : State) (g : Agent) : (s.passBoot g).raw = s.raw := by cases g <;> rfl
@[simp] theorem passBoot_laddr (s : State) (g : Agent) : (s.passBoot g).laddr = s.laddr := by cases g <;> rfl
@[simp] theorem passBoot_outByte (s : State) (g : Agent) : (s.passBoot g).outByte = s.outByte := by cases g <;> rfl
@[simp] theorem passBoot_nmiPrev (s : State) (g : Agent) : (s.passBoot g).nmiPrev = s.nmiPrev := by cases g <;> rfl
@[simp] theorem passBoot_dataOut (s : State) (g : Agent) : (s.passBoot g).dataOut = s.dataOut := by cases g <;> rfl
@[simp] theorem passBoot_curImg (s : State) (g : Agent) : (s.passBoot g).curImg = s.curImg := by cases g <;> rfl
@[simp] theorem passBoot_swState (s : State) (g : Agent) : (s.passBoot g).swState = s.swState := by cases g <;> rfl
@[simp] theorem passBoot_btnState (s : State) (g : Agent) : (s.passBoot g).btnState = s.btnState := by cases g <;> rfl
@[simp] theorem passBoot_dbCnt (s : State) (g : Agent) : (s.passBoot g).dbCnt = s.dbCnt := by cases g <;> rfl
@[simp] theorem passBoot_pendIdx (s : State) (g : Agent) : (s.passBoot g).pendIdx = s.pendIdx := by cases g <;> rfl
@[simp] theorem passBoot_tmrArmed (s : State) (g : Agent) : (s.passBoot g).tmrArmed = s.tmrArmed := by cases g <;> rfl
@[simp] theorem passBoot_tmrRem (s : State) (g : Agent) : (s.passBoot g).tmrRem = s.tmrRem := by cases g <;> rfl
@[simp] theorem passBoot_tmrAct (s : State) (g : Agent) : (s.passBoot g).tmrAct = s.tmrAct := by cases g <;> rfl
@[simp] theorem passBoot_resetOut (s : State) (g : Agent) : (s.passBoot g).resetOut = s.resetOut := by cases g <;> rfl
@[simp] theorem passBoot_ipgState (s : State) (g : Agent) : (s.passBoot g).ipgState = s.ipgState := by cases g <;> rfl
@[simp] theorem passBoot_wCnt (s : State) (g : Agent) : (s.passBoot g).wCnt = s.wCnt := by cases g <;> rfl
@[simp] theorem passBoot_intPrev (s : State) (g : Agent) : (s.passBoot g).intPrev = s.intPrev := by cases g <;> rfl
@[simp] theorem passBoot_nmiOut (s : State) (g : Agent) : (s.passBoot g).nmiOut = s.nmiOut := by cases g <;> rfl
@[simp] theorem passBoot_pulseTiming (s : State) (g : Agent) : (s.passBoot g).pulseTiming = s.pulseTiming := by cases g <;> rfl
@[simp] theorem passBoot_lines (s : State) (g : Agent) : (s.passBoot g).lines = s.lines := by cases g <;> rfl
@[simp] theorem passBoot_sched (s : State) (g : Agent) : (s.passBoot g).sched = s.sched := by cases g <;> rfl
@[simp] theorem passBoot_turnNo (s : State) (g : Agent) : (s.passBoot g).turnNo = s.turnNo := by cases g <;> rfl
@[simp] theorem passBoot_boot (s : State) (g : Agent) :
    (s.passBoot g).boot = if g = .startup then s.boot.succ else s.boot := by cases g <;> rfl

end Sys2Proof.Machine
end

