-- ==== Sys2Proof/Laws/Ops.lean ====
section
/-!
SUPPORT. Once for each shared operation: what it can answer.
-/

namespace Sys2Proof.Machine

/-- A table with nothing listed reads as its closed form (R97). -/
theorem lookup_of_nil {s : State} (h : s.ait = []) (r : Packed) : lookup s r = aitEntry s.cfg r := by
  simp [lookup, h, aitUnlisted]

/-- `lookup` reads only the configuration and the table. -/
theorem lookup_congr {s t : State} (hc : t.cfg = s.cfg) (ha : t.ait = s.ait) (r : Packed) : lookup t r = lookup s r := by
  simp [lookup, hc, ha]

/-- `imgRead` reads only the configuration and the images. -/
theorem imgRead_congr {s t : State} (hc : t.cfg = s.cfg) (hi : t.img = s.img) (b : Nat) (a : Addr) :
    imgRead t b a = imgRead s b a := by
  simp [imgRead, hc, hi]

/-- All a fetch can answer: a byte of a slot that exists and has a value there, or one of the model's two faults. -/
theorem fetchByte_cases (s : State) (i : Nat) (a : Addr) :
    (∃ b, fetchByte s i a = .ok b ∧ i < slotCount s.cfg ∧ imgRead s i a = some b) ∨
    (fetchByte s i a = .error (.unspecifiedByte i a.toNat) ∧ i < slotCount s.cfg ∧ imgRead s i a = none) ∨
    (fetchByte s i a = .error (.noSuchSlot i) ∧ slotCount s.cfg ≤ i) := by
  unfold fetchByte
  split
  · cases h : imgRead s i a with
    | some b => exact .inl ⟨b, rfl, ‹_›, rfl⟩
    | none => exact .inr (.inl ⟨rfl, ‹_›, rfl⟩)
  · exact .inr (.inr ⟨rfl, Nat.le_of_not_lt ‹_›⟩)

theorem fetchByte_of_read {s : State} {i : Nat} {a : Addr} {b : Byte} (hi : i < slotCount s.cfg)
    (h : imgRead s i a = some b) : fetchByte s i a = .ok b := by
  simp [fetchByte, hi, h]

theorem n_le_slotCount (c : Config) : c.n ≤ slotCount c := by
  unfold slotCount; split <;> omega

/-- Two bytes of the image store have the same address only if they are the same byte of the same slot. -/
theorem imgAddr_inj {i j x y : Nat} (hx : x < imageSize) (hy : y < imageSize) (h : imgAddr i x = imgAddr j y) :
    i = j ∧ x = y := by
  simp only [imgAddr, imageSize_eq] at *; omega

/-- The label build writes every byte of slot N and no other byte (R147). -/
theorem imgRead_buildLabel (s : State) (p i : Nat) (a : Addr) :
    imgRead (s.buildLabel p) i a = if i = s.cfg.n then some (label s.cfg p a) else imgRead s i a := by
  have ha := toNat_lt_imageSize a
  simp only [imgRead, State.buildLabel, Memory.read_fill]
  by_cases h : i = s.cfg.n
  · subst h
    rw [if_pos (by simp only [imgAddr, imageSize_eq] at *; omega), if_pos rfl]
    congr 2
    have : imgAddr s.cfg.n a.toNat - imgAddr s.cfg.n 0 = a.toNat := by simp [imgAddr]
    rw [this]
    exact BitVec.eq_of_toNat_eq (by simp)
  · rw [if_neg, if_neg h]
    simp only [imgAddr, imageSize_eq] at *
    omega

theorem buildLabel_wf {s : State} {p : Nat} (h2 : s.cfg.switchVariant = .twoPhase)
    (h : Memory.wf (imgUnlisted s.cfg) (imageSize * slotCount s.cfg) s.img = true) :
    Memory.wf (imgUnlisted s.cfg) (imageSize * slotCount s.cfg) (s.buildLabel p).img = true :=
  Memory.wf_fill h (by simp only [slotCount, h2, imgAddr, imageSize_eq, if_true]; omega)

/-- What preconversion leaves: each byte of the first n banks converted once, every other byte as it was (R99). -/
theorem read_preconvBanks (c : Config) (n k : Nat) (m : ByteMem) :
    Memory.read (imgUnlisted c) (preconvBanks c n m) k =
      if k < imageSize * n then (Memory.read (imgUnlisted c) m k).map (preconv c)
      else Memory.read (imgUnlisted c) m k := by
  induction n with
  | zero => simp [preconvBanks]
  | succ n ih =>
    simp only [preconvBanks, Memory.read_mapInPlace, ih, imgAddr, imageSize_eq, Nat.add_zero]
    by_cases h1 : k < 16384 * n
    · rw [if_neg (by omega), if_pos h1, if_pos (by omega)]
    · by_cases h2 : k < 16384 * n + 16384
      · rw [if_pos ⟨by omega, h2⟩, if_neg h1, if_pos (by omega)]
      · rw [if_neg (by omega), if_neg h1, if_neg (by omega)]

theorem preconvBanks_wf {c : Config} {m : ByteMem} {size n : Nat} (hn : imageSize * n ≤ size)
    (h : Memory.wf (imgUnlisted c) size m = true) : Memory.wf (imgUnlisted c) size (preconvBanks c n m) = true := by
  induction n with
  | zero => simpa only [preconvBanks] using h
  | succ n ih =>
    simp only [preconvBanks]
    exact Memory.wf_mapInPlace (ih (by rw [imageSize_eq] at *; omega))
      (by simp only [imgAddr, imageSize_eq] at *; omega)

theorem buildTable_wf {c : Config} {m : TableMem} {n : Nat}
    (h : Memory.wf (aitUnlisted c) imageSize m = true) :
    Memory.wf (aitUnlisted c) imageSize (buildTable c n m) = true := by
  induction n with
  | zero => simpa only [buildTable] using h
  | succ n ih =>
    simp only [buildTable]
    exact Memory.wf_write ih (toNat_lt_imageSize _)

/-- With `SWITCH_SOURCE = button` a serve leaves the selector alone (R38); otherwise it stays a bank (R122). -/
theorem servedImg_button {s : State} (h : s.cfg.switchSource = .button) (a : Addr) : servedImg s a = s.curImg := by
  simp [servedImg, h]

theorem servedImg_address {s : State} (h : s.cfg.switchSource = .address) (a : Addr) :
    servedImg s a = trig s.cfg a s.curImg := by
  simp [servedImg, h]

/-- Outside the inline variant a serve leaves `NMI_OUT` and `NMI_PREV` alone (R38). -/
theorem servedPulse_of_ne {s : State} (h : s.cfg.ipgVariant ≠ .inline) (a : Addr) :
    servedPulse s a = (s.nmiOut, s.nmiPrev) := by
  simp [servedPulse, h]

/-- All the inline pulse can do (R121): deassert what the previous serve asserted, assert, or nothing. -/
theorem inlinePulse_cases (s : State) (a : Addr) :
    (s.nmiPrev = true ∧ inlinePulse s a = (true, false)) ∨
    (s.nmiPrev = false ∧ nmiCond s.cfg a = true ∧ inlinePulse s a = (false, true)) ∨
    (s.nmiPrev = false ∧ nmiCond s.cfg a = false ∧ inlinePulse s a = (s.nmiOut, false)) := by
  unfold inlinePulse
  cases s.nmiPrev <;> cases nmiCond s.cfg a <;> simp

/-- All a serve can answer (R114). -/
theorem execBreServe_cases (s : State) :
    (∃ b, fetchByte s (serveSlot s (lookup s (pack s.cfg (sample s)))) (lookup s (pack s.cfg (sample s))) = .ok b ∧
      execBreServe s = .next (served s (lookup s (pack s.cfg (sample s))) b)) ∨
    (∃ f, execBreServe s = .fault f) := by
  unfold execBreServe
  dsimp only
  split
  · rename_i b hb; exact .inl ⟨b, hb, rfl⟩
  · rename_i f _; exact .inr ⟨f, rfl⟩

end Sys2Proof.Machine
end

