-- ==== Sys2Proof/Laws/PerInstr.lean ====
section
/-!
SUPPORT. For each operation: its encoded word has its row's fixed bits and its row's format
(spec/opcode_table.json, `match`, `mask` and `format`).
-/

namespace Sys2Proof.Laws

/-- The word of a selector, bit 0 the least significant. -/
def wordOf : Selector → Nat
  | .boot w => w.toNat
  | .eng w => w.toNat
  | .swf w => w.toNat
  | .ipg w => w.toNat

/-- The format of a selector. -/
def formatOf : Selector → Format
  | .boot _ => .boot
  | .eng _ => .eng
  | .swf _ => .swf
  | .ipg _ => .ipg

/-- The word the encoder gives a well-formed operation is one its own row of the table matches, in the row's format. -/
def RowMatch.Statement (i : Instr) : Prop :=
  i.wellFormed = true →
    formatOf (encode i) = (rowOf i).format ∧ wordOf (encode i) &&& (rowOf i).mask = (rowOf i).pattern

theorem RowMatch.aitBuild : RowMatch.Statement .aitBuild := fun _ => ⟨rfl, rfl⟩

theorem RowMatch.romPreconv : RowMatch.Statement .romPreconv := fun _ => ⟨rfl, rfl⟩

theorem RowMatch.coreInit : RowMatch.Statement .coreInit := fun _ => ⟨rfl, rfl⟩

theorem RowMatch.engLaunch : RowMatch.Statement .engLaunch := fun _ => ⟨rfl, rfl⟩

theorem RowMatch.ipgStart : RowMatch.Statement .ipgStart := fun _ => ⟨rfl, rfl⟩

theorem RowMatch.brePoll (we : Bool) : RowMatch.Statement (.brePoll we) := by
  cases we <;> exact fun _ => ⟨rfl, rfl⟩

theorem RowMatch.breServe : RowMatch.Statement .breServe := fun _ => ⟨rfl, rfl⟩

theorem RowMatch.breSkipwr : RowMatch.Statement .breSkipwr := fun _ => ⟨rfl, rfl⟩

theorem RowMatch.breHold (we : Bool) : RowMatch.Statement (.breHold we) := by
  cases we <;> exact fun _ => ⟨rfl, rfl⟩

theorem RowMatch.breRelease (we : Bool) : RowMatch.Statement (.breRelease we) := by
  cases we <;> exact fun _ => ⟨rfl, rfl⟩

theorem RowMatch.breSkiphold (we : Bool) : RowMatch.Statement (.breSkiphold we) := by
  cases we <;> exact fun _ => ⟨rfl, rfl⟩

theorem RowMatch.breSkipend (we : Bool) : RowMatch.Statement (.breSkipend we) := by
  cases we <;> exact fun _ => ⟨rfl, rfl⟩

theorem RowMatch.swIdle (v x : Bool) : RowMatch.Statement (.swIdle v x) := by
  cases v <;> cases x <;> exact fun _ => ⟨rfl, rfl⟩

theorem RowMatch.swDetect (v x : Bool) : RowMatch.Statement (.swDetect v x) := by
  cases v <;> cases x <;> exact fun _ => ⟨rfl, rfl⟩

theorem RowMatch.swCount (v : Bool) : RowMatch.Statement (.swCount v) := by
  cases v <;> exact fun _ => ⟨rfl, rfl⟩

theorem RowMatch.swBounce (v x : Bool) : RowMatch.Statement (.swBounce v x) := by
  cases v <;> cases x <;> exact fun _ => ⟨rfl, rfl⟩

theorem RowMatch.swQualify : RowMatch.Statement .swQualify := fun _ => ⟨rfl, rfl⟩

theorem RowMatch.swQlabel : RowMatch.Statement .swQlabel := fun _ => ⟨rfl, rfl⟩

theorem RowMatch.swHold (v x : Bool) : RowMatch.Statement (.swHold v x) := by
  cases v <;> cases x <;> exact fun _ => ⟨rfl, rfl⟩

theorem RowMatch.swUnpress (v x : Bool) : RowMatch.Statement (.swUnpress v x) := by
  cases v <;> cases x <;> exact fun _ => ⟨rfl, rfl⟩

theorem RowMatch.swTick (v : Bool) (ss : TimedState) (btn : Bool) : RowMatch.Statement (.swTick v ss btn) := by
  cases v <;> cases ss <;> cases btn <;> exact fun _ => ⟨rfl, rfl⟩

theorem RowMatch.swRelease (btn : Bool) : RowMatch.Statement (.swRelease btn) := by
  cases btn <;> exact fun _ => ⟨rfl, rfl⟩

theorem RowMatch.swShowlabel (btn : Bool) : RowMatch.Statement (.swShowlabel btn) := by
  cases btn <;> exact fun _ => ⟨rfl, rfl⟩

theorem RowMatch.swRealswitch (btn : Bool) : RowMatch.Statement (.swRealswitch btn) := by
  cases btn <;> exact fun _ => ⟨rfl, rfl⟩

theorem RowMatch.swFinalrel (btn : Bool) : RowMatch.Statement (.swFinalrel btn) := by
  cases btn <;> exact fun _ => ⟨rfl, rfl⟩

theorem RowMatch.ipgOff (e x : Bool) : RowMatch.Statement (.ipgOff e x) := by
  cases e <;> cases x <;> exact fun _ => ⟨rfl, rfl⟩

theorem RowMatch.ipgWait (x : Bool) : RowMatch.Statement (.ipgWait x) := by
  cases x <;> exact fun _ => ⟨rfl, rfl⟩

theorem RowMatch.ipgSync (x : Bool) : RowMatch.Statement (.ipgSync x) := by
  cases x <;> exact fun _ => ⟨rfl, rfl⟩

theorem RowMatch.ipgHold (e : Bool) : RowMatch.Statement (.ipgHold e) := by
  cases e <;> exact fun _ => ⟨rfl, rfl⟩

theorem RowMatch.ipgEnd (e : Bool) : RowMatch.Statement (.ipgEnd e) := by
  cases e <;> exact fun _ => ⟨rfl, rfl⟩

end Sys2Proof.Laws
end

