-- ==== Sys2Proof/Laws/Runs.lean ====
section
/-!
SUPPORT. Runs: what the list of turns already chosen can touch, and that every run of `step` by itself is an infinite
run in the sense of Safety.lean.
-/

namespace Sys2Proof.Machine

@[simp] theorem given_nextTurn (s : State) (u : Turn) : (s.given u).nextTurn = u := rfl
@[simp] theorem given_cfg (s : State) (u : Turn) : (s.given u).cfg = s.cfg := rfl
@[simp] theorem given_takeTurn (s : State) (u : Turn) :
    (s.given u).takeTurn = { s with lines := u.lines, sched := [], turnNo := s.turnNo + 1 } := rfl

/-- What the listed turns and the counter are is no input of any operation, and none writes them. -/
theorem exec_next_turns {i : Instr} {s t : State} (ts : List Turn) (k : Nat) (h : exec i s = .next t) :
    exec i { s with sched := ts, turnNo := k } = .next { t with sched := ts, turnNo := k } := by
  cases i
  case aitBuild =>
    simp only [exec, execAitBuild] at h ⊢
    split at h
    · rw [if_pos ‹_›]; cases h; rfl
    · cases h
  case ipgStart =>
    simp only [exec, execIpgStart] at h ⊢
    split at h
    · rw [if_pos ‹_›]; cases h; rfl
    · rw [if_neg ‹_›]; cases h; rfl
  case breServe =>
    obtain ⟨b, hb, he⟩ | ⟨f, he⟩ := execBreServe_cases s
    · obtain rfl := Host.Outcome.next.inj (he.symm.trans h)
      obtain ⟨c, hc, hd⟩ | ⟨f, hd⟩ := execBreServe_cases { s with sched := ts, turnNo := k }
      · obtain rfl : c = b := Except.ok.inj (hc.symm.trans hb)
        exact hd
      · unfold execBreServe at hd
        dsimp only at hd
        split at hd
        · cases hd
        · rename_i g hg; exact nomatch hg.symm.trans hb
    · exact nomatch he.symm.trans h
  all_goals (cases h; rfl)

/-- A step spends one turn; what it leaves, but for the turns still listed and the counter, depends on that turn
alone. -/
theorem step_given {s t : State} (k : Nat) (h : step s = .next t) :
    step (State.given { s with turnNo := k } s.nextTurn) = .next { t with sched := [], turnNo := k + 1 } := by
  unfold step at h ⊢
  rw [given_cfg, given_nextTurn]
  split at h
  · rw [if_pos ‹_›]
    have hs : selectorOf (State.given { s with turnNo := k } s.nextTurn).takeTurn s.nextTurn.agent =
        selectorOf s.takeTurn s.nextTurn.agent := by
      cases s.nextTurn.agent <;> rfl
    dsimp only at h ⊢
    rw [hs]
    split at h
    · cases h; rfl
    · split at h
      · have := exec_next_turns [] (k + 1) h
        rw [← this]
        cases s.nextTurn.agent <;> rfl
      · cases h
  · cases h

/-- A machine that steps for ever by itself makes an infinite run, of the turns it takes (the listed ones, then the
free value): so what is proved of every infinite run holds of it, but for the model's own two fields. -/
theorem infiniteRun_of_steps {r : Nat → State} (h : ∀ n, step (r n) = .next (r (n + 1))) :
    InfiniteRun (fun n => (r n).nextTurn) (fun n => { r n with sched := [], turnNo := n }) :=
  fun n => step_given n (h n)

end Sys2Proof.Machine
end

