-- ==== Sys2Proof/Tests/Slice0.lean ====
section
/-!
SUPPORT. Tests.  Expected values are those of spec/95_test_vectors.md (sections named below) or read off the rule a
comment names; every number is in the reference configuration REFCFG unless said otherwise.  The last part shows, for
each statement with hypotheses, concrete values that meet them.
-/

namespace Sys2Proof.Tests

open Sys2Proof Sys2Proof.Machine

/-! ## WellFormed: an ill-formed term for each check -/

/-- R82: the states of the two-phase variant have no word with `v = 0`. -/
theorem test_wellFormed_tick :
    (Instr.swTick false .labelShow true).wellFormed = false ∧ (Instr.swTick false .finalHold false).wellFormed = false ∧
    (Instr.swTick true .labelShow true).wellFormed = true ∧ (Instr.swTick false .swSettle true).wellFormed = true := by
  decide

theorem test_refcfg_admitted : Config.refcfg.admitted = true := by decide

/-- R9(c): a packing order with a repeated line, and one that names a line carrying no address bit. -/
theorem test_packOk_refuses :
    { Config.refcfg with packPos := ⟨#[9, 9, 11, 12, 13, 14, 15, 16, 17, 18, 19, 20, 21, 22], rfl⟩ }.packOk = false ∧
    { Config.refcfg with packPos := ⟨#[25, 10, 11, 12, 13, 14, 15, 16, 17, 18, 19, 20, 21, 22], rfl⟩ }.packOk = false := by
  decide

/-- R9(d). -/
theorem test_slotOk_refuses :
    { Config.refcfg with dataSlot := ⟨#[0, 0, 2, 3, 4, 5, 6, 7], rfl⟩ }.slotOk = false ∧
    { Config.refcfg with dataSlot := ⟨#[25, 1, 2, 3, 4, 5, 6, 7], rfl⟩ }.slotOk = false := by decide

/-- R9(a), R9(b), R9(e): a repeated address line (95 section 3.1, "Refusal"), a repeated data line, a strobe on an
address line, a button on the strobe, a sync line on the strobe (autonomous), a write enable on the strobe (`HAS_WE`),
and a line not below `W`. -/
theorem test_linesOk_refuses :
    { Config.refcfg with addrLine := ⟨#[9, 9, 11, 12, 13, 14, 16, 15, 18, 20, 22, 21, 19, 17], rfl⟩ }.linesOk = false ∧
    { Config.refcfg with dataLine := ⟨#[0, 0, 2, 4, 6, 7, 5, 3], rfl⟩ }.linesOk = false ∧
    { Config.refcfg with lRd := 9 }.linesOk = false ∧ { Config.refcfg with lBtn := 8 }.linesOk = false ∧
    { Config.refcfg with ipgVariant := .autonomous, lInt := 8 }.linesOk = false ∧
    { Config.refcfg with hasWe := true, lWe := 8 }.linesOk = false ∧ { Config.refcfg with w := 24 }.linesOk = false := by
  decide

/-- R9(e) does not name a line its build does not have. -/
theorem test_linesOk_absent_lines :
    { Config.refcfg with lWe := 8, lInt := 8 }.linesOk = true ∧
    { Config.refcfg with switchSource := .address, lBtn := 8 }.linesOk = true := by decide

/-- R9(h). -/
theorem test_trigOk_refuses :
    { Config.refcfg with trigTable := [(0x0008, 2)] }.trigOk = false ∧
    { Config.refcfg with trigTable := [(0x0008, 1), (0x0008, 0)] }.trigOk = false := by decide

/-- R8: an empty patch, one that runs past the image, one bank without a patch, one patch too short. -/
theorem test_labelOk_refuses :
    { Config.refcfg with labelLen := 0, labelPatch := [[], []] }.labelOk = false ∧
    { Config.refcfg with labelOffset := 16383 }.labelOk = false ∧
    { Config.refcfg with labelPatch := [[0x42, 0x30]] }.labelOk = false ∧
    { Config.refcfg with labelPatch := [[0x42, 0x30], [0x42]] }.labelOk = false := by decide

/-- R8, R9(i). -/
theorem test_countsOk_refuses :
    { Config.refcfg with rom := [] }.countsOk = false ∧ { Config.refcfg with q := 1 }.countsOk = false ∧
    { Config.refcfg with settleDelay := 0 }.countsOk = false ∧
    { Config.refcfg with labelDisplay := 0 }.countsOk = false ∧
    { Config.refcfg with resetHold := 0 }.countsOk = false ∧
    { Config.refcfg with pulseWidth := 0 }.countsOk = false ∧
    { Config.refcfg with pulseWidth := 8 }.countsOk = false := by decide

/-- R9(g). -/
theorem test_variantOk_refuses :
    { Config.refcfg with switchVariant := .twoPhase, switchSource := .address }.variantOk = false ∧
    { Config.refcfg with switchVariant := .twoPhase }.variantOk = true := by decide

/-- R9: "the model refuses any other". -/
theorem test_step_refuses :
    step (State.resetOf { Config.refcfg with q := 1 } 0) = .refused .illFormedConfig ∧
    exec .aitBuild (State.resetOf { Config.refcfg with q := 1 } 0) = .refused .illFormedConfig := ⟨rfl, rfl⟩

/-! ## Decode: a word of every row of R81, bit by bit (95 sections 3.3 to 3.6) -/

theorem test_decode_boot :
    decode (.boot 0b001#3) = .ok .aitBuild ∧ decode (.boot 0b010#3) = .ok .romPreconv ∧
    decode (.boot 0b011#3) = .ok .coreInit ∧ decode (.boot 0b100#3) = .ok .engLaunch ∧
    decode (.boot 0b101#3) = .ok .ipgStart := by decide

theorem test_decode_eng :
    decode (.eng 0b0010#4) = .ok (.brePoll false) ∧ decode (.eng 0b0011#4) = .ok (.brePoll true) ∧
    decode (.eng 0b0001#4) = .ok .breServe ∧ decode (.eng 0b0000#4) = .ok .breSkipwr ∧
    decode (.eng 0b0101#4) = .ok (.breHold true) ∧ decode (.eng 0b0110#4) = .ok (.breRelease false) ∧
    decode (.eng 0b1001#4) = .ok (.breSkiphold true) ∧ decode (.eng 0b1010#4) = .ok (.breSkipend false) := by decide

theorem test_decode_swf :
    decode (.swf 0b100001#6) = .ok (.swIdle true true) ∧ decode (.swf 0b000010#6) = .ok (.swDetect false false) ∧
    decode (.swf 0b100110#6) = .ok (.swCount true) ∧ decode (.swf 0b000101#6) = .ok (.swBounce false true) ∧
    decode (.swf 0b000111#6) = .ok .swQualify ∧ decode (.swf 0b100111#6) = .ok .swQlabel ∧
    decode (.swf 0b001010#6) = .ok (.swHold false false) ∧ decode (.swf 0b101000#6) = .ok (.swUnpress true false) ∧
    decode (.swf 0b010010#6) = .ok (.swTick false .swSettle true) ∧
    decode (.swf 0b110110#6) = .ok (.swTick true .labelShow true) ∧
    decode (.swf 0b111000#6) = .ok (.swTick true .finalHold false) ∧
    decode (.swf 0b010011#6) = .ok (.swRelease true) ∧ decode (.swf 0b110001#6) = .ok (.swShowlabel false) ∧
    decode (.swf 0b110101#6) = .ok (.swRealswitch false) ∧ decode (.swf 0b111011#6) = .ok (.swFinalrel true) := by
  decide

theorem test_decode_ipg :
    decode (.ipg 0b0010#4) = .ok (.ipgOff true false) ∧ decode (.ipg 0b0101#4) = .ok (.ipgWait true) ∧
    decode (.ipg 0b0110#4) = .ok (.ipgSync false) ∧ decode (.ipg 0b1010#4) = .ok (.ipgHold true) ∧
    decode (.ipg 0b1001#4) = .ok (.ipgEnd false) := by decide

/-- The same words from the encoder, one of each pattern with letters in it. -/
theorem test_encode :
    encode (.brePoll true) = .eng 0b0011#4 ∧ encode (.breSkiphold true) = .eng 0b1001#4 ∧
    encode (.swIdle true true) = .swf 0b100001#6 ∧ encode (.swTick true .finalHold false) = .swf 0b111000#6 ∧
    encode (.swFinalrel true) = .swf 0b111011#6 ∧ encode (.ipgHold true) = .ipg 0b1010#4 := by decide

/-- R82. -/
theorem test_decode_reserved :
    decode (.boot 0#3) = .error (.bootOrdinal 0) ∧ decode (.boot 7#3) = .error (.bootOrdinal 7) ∧
    decode (.eng 0b1100#4) = .error (.engState 0b1100) ∧ decode (.swf 0b001100#6) = .error (.swfState 0b001100) ∧
    decode (.swf 0b111100#6) = .error (.swfState 0b111100) ∧ decode (.swf 0b010100#6) = .error (.swfVariant 0b010100) ∧
    decode (.ipg 0b1100#4) = .error (.ipgState 0b1100) ∧ decodeByte .boot 8 = .error (.tooWide 8) := by decide

/-- 95 section 3.5: 40 of the 64 `SWF` words are defined, 24 reserved. -/
theorem test_decode_swf_count :
    ((List.range 64).filter (fun w => (decode (.swf (BitVec.ofNat 6 w))).toOption.isSome)).length = 40 := by decide

/-- `decodeTableWord` by the row's own width, and by a whole byte (log 12). -/
theorem test_decodeTableWord :
    decodeTableWord 3 0b001 = some .aitBuild ∧ decodeTableWord 6 0b000111 = some .swQualify ∧
    decodeTableWord 8 0x27 = some .swQlabel ∧ decodeTableWord 8 0x0F = none ∧ decodeTableWord 8 0xFF = none := by decide

/-- The step after `withFetchWord` performs the operation (log 13). -/
theorem test_withFetchWord :
    (let s := State.reset.withFetchWord 6 0b000111
     step s = exec .swQualify s.takeTurn ∧ Performs .switch s.takeTurn .swQualify) ∧
    (let s := State.reset.withFetchWord 8 0x27
     Performs .switch s.takeTurn .swQlabel) := by
  refine ⟨⟨rfl, _, rfl, rfl⟩, _, rfl, rfl⟩

/-! ## The pure functions (95 sections 2 and 3.1 to 3.2) -/

theorem test_scatter :
    (scatter Config.refcfg 0x1234).toNat = 0x00186800 ∧ (scatter Config.refcfg 0x1708).toNat = 0x005C1000 ∧
    (scatter Config.refcfg 0x2AAA).toNat = 0x0032D400 ∧ (scatter Config.refcfg 0x3FFF).toNat = 0x007FFE00 := by decide

theorem test_pack :
    pack Config.refcfg 0x04986800#32 = 0x0C34 ∧ pack Config.refcfg 0xFF9869FF#32 = 0x0C34 ∧
    pack Config.refcfg 0x00540000#32 = 0x2A00 := by decide

theorem test_sigma :
    (List.range 14).map (sigma Config.refcfg) = [0, 1, 2, 3, 4, 5, 7, 6, 13, 8, 12, 9, 11, 10] := by decide

theorem test_ait :
    lookup State.reset 0x0040 = 0x0080 ∧ lookup State.reset 0x0080 = 0x0040 ∧ lookup State.reset 0x0100 = 0x2000 ∧
    lookup State.reset 0x2000 = 0x0400 ∧ lookup State.reset 0x1234 = 0x0934 ∧ lookup State.reset 0x0934 = 0x2234 := by
  decide

theorem test_masks : (addrMask Config.refcfg).toNat = 0x007FFE00 ∧
    (dataMask Config.refcfg).toNat = 0x000000FF ∧ (place Config.refcfg 0xBB).toNat = 0x000000BB := by decide

theorem test_preconv :
    preconv Config.refcfg 0xA5 = 0x8D ∧ preconv Config.refcfg 0x08 = 0x10 ∧ preconv Config.refcfg 0x80 = 0x08 ∧
    preconv Config.refcfg 0x5A = 0x72 ∧ preconv Config.refcfg 0x3C = 0xD4 ∧ preconv Config.refcfg 0xF3 = 0xEB := by
  decide

/-- 95 section 3.2, "data reversed": the byte is reversed. -/
theorem test_preconv_reversed :
    preconv { Config.refcfg with dataLine := ⟨#[7, 6, 5, 4, 3, 2, 1, 0], rfl⟩ } 0x12 = 0x48 := by decide

/-- The two-phase fixture of 95 section 2.4, as far as its table goes. -/
def twoPhase : Config :=
  { Config.refcfg with
    switchVariant := .twoPhase, q := 2, settleDelay := 1, labelDisplay := 3, resetHold := 2
    rom := [[(0x0100, 0xA6)], [(0x0100, 0xB7)]]
    announce := [(0x00FF, 0x3D), (0x0100, 0x40), (0x0101, 0x43), (0x0102, 0x46)] }

theorem test_label :
    label twoPhase 1 0x00FF = 0xD5 ∧ label twoPhase 1 0x0100 = 0x22 ∧ label twoPhase 1 0x0101 = 0xC1 ∧
    label twoPhase 1 0x0102 = 0x26 := by decide

theorem test_trig : trig Config.refcfg 0x1708 0 = 1 ∧ trig Config.refcfg 0x0700 1 = 0 ∧
    trig Config.refcfg 0x0009 1 = 1 := by decide

/-- R173. -/
theorem test_edge :
    edge .falling true false = true ∧ edge .falling false true = false ∧ edge .rising false true = true ∧
    edge .rising true false = false ∧ edge .both true false = true ∧ edge .both true true = false := by decide

/-! ## One step -/

/-- The bank fixture of 95 section 2.3, at the addresses used here. -/
def fixture : Config :=
  { Config.refcfg with
    rom := [[(0x0000, 0xA5), (0x0008, 0xAD), (0x0038, 0xDD), (0x0700, 0xAC), (0x1234, 0xEB), (0x3FFF, 0xE3)],
      [(0x0008, 0xBE), (0x0700, 0xBD), (0x1234, 0xFC), (0x3FFF, 0xF4)]] }

/-- The reset state of a build, with other levels on the lines. -/
def at' (c : Config) (lines : Nat) : State := State.resetOf c lines

/-- A field of the next state. -/
def got {α : Type} (f : State → α) : Host.Outcome State Fault Refusal → Option α
  | .next s => some (f s)
  | .fault _ => none
  | .refused _ => none

/-- The fault a step answers with. -/
def faulted : Host.Outcome State Fault Refusal → Option Fault
  | .next _ => none
  | .fault f => some f
  | .refused _ => none

/-- The loop of R94 mends a wrong entry and lists nothing that reads as R97 anyway: `AIT[8]` is the entry of a = 8. -/
theorem test_aitBuild : buildTable Config.refcfg 16 [(0x0008, 0x0005)] = [] := by decide

/-- R97 for an entry the loop has not reached: it stays as it was. -/
theorem test_aitBuild_order : buildTable Config.refcfg 8 [(0x0008, 0x0005)] = [(0x0008, 0x0005)] := by decide

/-- R99: the logical byte 0x08 of a buffer becomes 0x10; the byte beside it stays 0 (bank 0 of an empty image). -/
theorem test_romPreconv :
    Memory.read (imgUnlisted Config.refcfg) (preconvBanks Config.refcfg 2 [(16384 + 5, 0x08)]) (16384 + 5) = some 0x10 ∧
    Memory.read (imgUnlisted Config.refcfg) (preconvBanks Config.refcfg 2 [(16384 + 5, 0x08)]) 6 = some 0x00 := by
  constructor <;> rw [read_preconvBanks] <;> decide

/-- R99: "not required to be self-inverse": a second pass gives 0x40. -/
theorem test_romPreconv_in_place :
    Memory.read (imgUnlisted Config.refcfg)
      (Memory.mapInPlace (imgUnlisted Config.refcfg) 0 (preconv Config.refcfg) 2 [(1, 0x10)]) 1 = some 0x40 := by decide

theorem test_coreInit :
    got (fun s => (s.curImg, s.swState, s.resetOut, s.nmiOut))
      (exec .coreInit { State.reset with curImg := 1, swState := .finalHold, resetOut := true, nmiOut := false }) =
    some (0, .idle, false, true) := by decide

theorem test_engLaunch : got (·.engLive) (exec .engLaunch { State.reset with engLive := false }) = some true := by decide

/-- 95 section 3.3, `S 5`. -/
theorem test_ipgStart :
    got (fun s => (s.ipgState, s.intPrev))
      (exec .ipgStart { at' { Config.refcfg with ipgVariant := .autonomous } 0x04800100 with ipgState := .stopped }) =
    some (.armed, true) ∧
    got (·.ipgState) (exec .ipgStart State.reset) = some .stopped := by decide

/-- 95 section 3.4: `E a=0x3FFF rd=1`. -/
theorem test_brePoll :
    got (fun s => (s.snap, s.engState)) (exec (.brePoll true) (at' fixture 0x04FFFF00)) = some (0x04FFFF00, .waiting) := by
  decide

/-- 95 section 3.4: `E a=0x1234 rd=0`, in bank 0 and in bank 1. -/
theorem test_breServe :
    got (fun s => (s.raw, s.laddr, s.dataOut, s.engState)) (exec .breServe (at' fixture 0x04986800)) =
      some (0x0C34, 0x1234, 0xBB, .driving) ∧
    got (·.dataOut) (exec .breServe { at' fixture 0x04986800 with curImg := 1 }) = some 0xFC := by decide

/-- The host reads D = 0xEB; 95 section 3.4: every line the engine does not read high. -/
theorem test_breServe_host : got hostByte (exec .breServe (at' fixture 0xFF9868FF)) = some 0xEB := by decide

/-- 95 program P4, step 8 in both orders. -/
theorem test_breServe_trigger :
    got (fun s => (s.dataOut, s.curImg))
      (exec .breServe (at' { fixture with switchSource := .address } 0x04801000)) = some (0x9D, 1) ∧
    got (fun s => (s.dataOut, s.curImg))
      (exec .breServe (at' { fixture with switchSource := .address, trigOrder := .switchThenFetch } 0x04801000)) =
      some (0xDE, 1) := by decide

/-- 95 section 3.4: serves of 0x0038 with the pulse idle, then asserted by the previous serve. -/
theorem test_breServe_inline :
    got (fun s => (s.nmiOut, s.nmiPrev)) (exec .breServe (at' { fixture with ipgVariant := .inline } 0x04807000)) =
      some (false, true) ∧
    got (fun s => (s.nmiOut, s.nmiPrev))
      (exec .breServe { at' { fixture with ipgVariant := .inline } 0x04807000 with nmiPrev := true, nmiOut := false }) =
      some (true, false) := by decide

/-- The model's own faults (log 10): the label slot before a label was built, and no such slot. -/
theorem test_breServe_faults :
    faulted (exec .breServe { at' twoPhase 0x04840000 with curImg := 2 }) = some (.unspecifiedByte 2 0x0100) ∧
    faulted (exec .breServe { at' fixture 0x04986800 with curImg := 2 }) = some (.noSuchSlot 2) := by decide

/-- 95 section 3.4: `E a=0x1234 rd=0 we=0` in `Waiting` with `HAS_WE`; without it the line is not read. -/
theorem test_breSkipwr :
    engSelector (at' { fixture with hasWe := true } 0x04186800) = 0b0000#4 ∧
    engSelector (at' fixture 0x04186800) = 0b0001#4 ∧
    got (fun s => (s.engState, s.dataOut)) (exec .breSkipwr { at' fixture 0x04186800 with dataOut := 0xBB }) =
      some (.skipping, 0xBB) := by decide

theorem test_breHold :
    got (fun s => (s.engState, s.dataOut)) (exec (.breHold true) { at' fixture 0x04800000 with dataOut := 0xBB }) =
      some (.driving, 0xBB) := by decide

theorem test_breRelease :
    got (fun s => (s.engState, s.dataOut)) (exec (.breRelease true) { at' fixture 0x04986900 with dataOut := 0xBB }) =
      some (.waiting, 0xBB) := by decide

theorem test_breSkip_selectors :
    engSelector { at' { fixture with hasWe := true } 0x04986800 with engState := .skipping } = 0b1001#4 ∧
    engSelector { at' { fixture with hasWe := true } 0x04986900 with engState := .skipping } = 0b1011#4 ∧
    got (·.engState) (exec (.breSkiphold true) State.reset) = some .skipping ∧
    got (·.engState) (exec (.breSkipend true) { State.reset with engState := .skipping }) = some .waiting := by decide

/-- 95 section 3.5: the `SWF` selectors of the single-step vectors (Q = 3, `SETTLE_DELAY` = 2). -/
theorem test_swf_selectors :
    swfSelector (at' fixture 0x04800100) = 0b000000#6 ∧ swfSelector (at' fixture 0x05800100) = 0b000010#6 ∧
    swfSelector { at' fixture 0x05800100 with swState := .debouncing, dbCnt := 1 } = 0b000110#6 ∧
    swfSelector { at' fixture 0x04800100 with swState := .debouncing, dbCnt := 2 } = 0b000101#6 ∧
    swfSelector { at' fixture 0x05800100 with swState := .debouncing, dbCnt := 2 } = 0b000111#6 ∧
    swfSelector { at' fixture 0x05800100 with swState := .swHold } = 0b001010#6 ∧
    swfSelector { at' fixture 0x05800100 with swState := .swSettle, tmrRem := 2 } = 0b010010#6 ∧
    swfSelector { at' fixture 0x04800100 with swState := .swSettle, tmrRem := 1 } = 0b010001#6 ∧
    swfSelector { at' twoPhase 0x04800100 with swState := .labelShow, tmrRem := 1 } = 0b110101#6 := by decide

theorem test_swIdle : exec (.swIdle false false) State.reset = .next State.reset := rfl

theorem test_swDetect :
    got (fun s => (s.dbCnt, s.swState)) (exec (.swDetect false false) State.reset) = some (1, .debouncing) := by decide

theorem test_swCount :
    got (fun s => (s.dbCnt, s.swState)) (exec (.swCount false) { State.reset with swState := .debouncing, dbCnt := 1 }) =
      some (2, .debouncing) := by decide

theorem test_swBounce :
    got (fun s => (s.dbCnt, s.swState, s.curImg))
      (exec (.swBounce false true) { State.reset with swState := .debouncing, dbCnt := 2, curImg := 1 }) =
      some (0, .idle, 1) := by decide

/-- The wrap from the last bank to bank 0. -/
theorem test_swQualify :
    got (fun s => (s.resetOut, s.curImg, s.btnState, s.swState))
      (exec .swQualify { State.reset with swState := .debouncing, dbCnt := 2, curImg := 1 }) =
      some (true, 0, .pressed, .swHold) := by decide

/-- 95 program P5, step 9: the slot holds `label(1)`, the selector is N. -/
theorem test_swQlabel :
    imgRead (State.buildLabel (at' twoPhase 0x05800100) 1) 2 0x0101 = some 0xC1 ∧
    imgRead (State.buildLabel (at' twoPhase 0x05800100) 1) 1 0x0100 = some 0xCF := by
  constructor <;> rw [imgRead_buildLabel] <;> decide

theorem test_swHold : got (·.swState) (exec (.swHold false false) { State.reset with swState := .swHold }) =
    some .swHold := by decide

theorem test_swUnpress :
    got (fun s => (s.btnState, s.tmrArmed, s.tmrRem, s.tmrAct, s.swState))
      (exec (.swUnpress false false) { State.reset with swState := .swHold, btnState := .pressed }) =
      some (.released, true, 2, .releaseReset, .swSettle) := by decide

theorem test_swTick :
    got (fun s => (s.tmrRem, s.swState))
      (exec (.swTick false .swSettle true) { State.reset with swState := .swSettle, tmrRem := 2 }) =
      some (1, .swSettle) := by decide

theorem test_swRelease :
    got (fun s => (s.resetOut, s.tmrArmed, s.swState))
      (exec (.swRelease false) { State.reset with swState := .swSettle, tmrRem := 1, tmrArmed := true, resetOut := true }) =
      some (false, false, .idle) := by decide

/-- 95 program P5, step 12. -/
theorem test_swShowlabel :
    got (fun s => (s.resetOut, s.tmrRem, s.tmrAct, s.swState, s.tmrArmed))
      (exec (.swShowlabel false) { at' twoPhase 0x04800100 with swState := .swSettle, resetOut := true }) =
      some (false, 3, .realSwitch, .labelShow, true) := by decide

/-- 95 program P5, step 21. -/
theorem test_swRealswitch :
    got (fun s => (s.resetOut, s.curImg, s.tmrRem, s.tmrAct, s.swState))
      (exec (.swRealswitch false) { at' twoPhase 0x04800100 with swState := .labelShow, curImg := 2, pendIdx := 1 }) =
      some (true, 1, 2, .finalRelease, .finalHold) := by decide

theorem test_swFinalrel :
    got (fun s => (s.resetOut, s.tmrArmed, s.swState))
      (exec (.swFinalrel true) { at' twoPhase 0x04800100 with swState := .finalHold, resetOut := true, tmrArmed := true }) =
      some (false, false, .idle) := by decide

/-- The autonomous build of 95 section 3.6 (width 3, falling). -/
def autonomous : Config := { Config.refcfg with ipgVariant := .autonomous }

/-- 95 section 3.6 and program P3: the `IPG` selectors of steps 5, 7, 8, 9, 11 and 18. -/
theorem test_ipg_selectors :
    ipgSelector { at' autonomous 0x00800100 with ipgState := .stopped } = 0b0000#4 ∧
    ipgSelector (at' autonomous 0x04800100) = 0b0100#4 ∧
    ipgSelector { at' autonomous 0x00800100 with intPrev := true } = 0b0110#4 ∧
    ipgSelector { at' autonomous 0x00800100 with ipgState := .asserted } = 0b1000#4 ∧
    ipgSelector { at' autonomous 0x00800100 with ipgState := .asserted, wCnt := 2 } = 0b1001#4 ∧
    ipgSelector { at' autonomous 0x00800100 with ipgState := .asserted, wCnt := 1, intPrev := true } = 0b1010#4 := by
  decide

theorem test_ipgOff : exec (.ipgOff true true) State.reset = .next State.reset := rfl

theorem test_ipgWait :
    got (fun s => (s.intPrev, s.nmiOut)) (exec (.ipgWait false) { at' autonomous 0x04800100 with intPrev := false }) =
      some (true, true) := by decide

theorem test_ipgSync :
    got (fun s => (s.nmiOut, s.wCnt, s.intPrev, s.ipgState))
      (exec (.ipgSync false) { at' autonomous 0x00800100 with intPrev := true, wCnt := 2 }) =
      some (false, 0, false, .asserted) := by decide

theorem test_ipgHold :
    got (fun s => (s.wCnt, s.intPrev)) (exec (.ipgHold false) { at' autonomous 0x00800100 with wCnt := 1 }) =
      some (2, false) := by decide

theorem test_ipgEnd :
    got (fun s => (s.nmiOut, s.wCnt, s.ipgState))
      (exec (.ipgEnd false) { at' autonomous 0x00800100 with nmiOut := false, wCnt := 2, ipgState := .asserted }) =
      some (true, 0, .armed) := by decide

/-- The reset memories are in canonical form. -/
theorem test_reset_wf :
    Memory.wf (aitUnlisted State.reset.cfg) imageSize State.reset.ait = true ∧
    Memory.wf (imgUnlisted State.reset.cfg) (imageSize * slotCount State.reset.cfg) State.reset.img = true := ⟨rfl, rfl⟩

/-! ## Witnesses: values that meet the hypotheses of each statement -/

/-- A state with `SW_STATE = Idle` and the control registers at rest meets R40. -/
theorem steady_idle {s : State} (h1 : s.swState = .idle) (h2 : s.curImg < s.cfg.n) (h3 : s.tmrArmed = false)
    (h4 : s.resetOut = false) (h5 : s.btnState = .released) (h6 : s.dbCnt = 0)
    (h7 : s.cfg.ipgVariant = .autonomous → (s.nmiOut = false ↔ s.ipgState = .asserted))
    (h8 : s.cfg.ipgVariant = .inline → (s.nmiOut = false ↔ s.nmiPrev = true))
    (h9 : s.cfg.ipgVariant = .none → s.nmiOut = true) (h10 : s.wCnt < s.cfg.pulseWidth)
    (h11 : s.engState = .skipping → s.cfg.hasWe = true) : Steady s where
  curImg_le := h2.le
  label_only := fun h => absurd h h2.ne
  label_shown := fun _ h => by simp [h1, SwState.mayLabel] at h
  timer_armed := by rw [h1, h3]; rfl
  timer_due := fun h => by simp [h1, SwState.timed] at h
  reset_held := by rw [h1, h4]; rfl
  button_pressed := by simp [h1, h5]
  counting := fun h => by simp [h1] at h
  not_counting := fun _ => h6
  pulse_autonomous := h7
  pulse_inline := h8
  pulse_none := h9
  width_range := h10
  skip_only_we := h11
  no_switch := fun _ => h1
  two_phase_only := fun h => by simp [h1] at h

/-- A state with empty memories, launched and at rest meets the invariant. -/
theorem inv_of_empty {s : State} (h0 : s.cfg.admitted = true) (h1 : s.ait = []) (h2 : s.img = [])
    (h3 : s.snap < 2 ^ s.cfg.w) (h4 : s.engLive = true) (h5 : s.boot = .done)
    (h6 : s.cfg.ipgVariant ≠ .autonomous → s.ipgState = .stopped)
    (h7 : s.cfg.ipgVariant = .autonomous →
      s.ipgState ≠ .stopped ∧ s.pulseTiming = some ⟨s.cfg.pulsePeriod, s.cfg.pulseWidth⟩)
    (h8 : Steady s) : Inv s where
  admitted := h0
  table_wf := by rw [h1]; rfl
  images_wf := by rw [h2]; rfl
  snap_width := h3
  live := by rw [h4, h5]; rfl
  table := fun _ r => lookup_of_nil h1 r
  images := fun b hb a => by
    rw [h5, imgRead, h2]
    exact imgUnlisted_bank hb
  stopped := fun h => h.elim (fun h => absurd h5 h) h6
  launched := fun _ h => h7 h
  steady := fun _ => h8

/-- The builds used below: the fixture; with the address trigger, in both orders; with the inline pulse and `HAS_WE`;
autonomous; two-phase. -/
def builds : List Config :=
  [fixture, { fixture with switchSource := .address },
    { fixture with switchSource := .address, trigOrder := .switchThenFetch },
    { fixture with ipgVariant := .inline, hasWe := true }, autonomous, twoPhase]

theorem inv_builds {c : Config} (h : c ∈ builds) (lines : Nat) : Inv (at' c lines) := by
  have key : ∀ c ∈ builds, c.admitted = true ∧ 0 < 2 ^ c.w ∧ 0 < c.n ∧ 0 < c.pulseWidth := by decide
  obtain ⟨h1, h2, h3, h4⟩ := key c h
  refine inv_of_empty h1 rfl rfl h2 rfl rfl (fun hv => if_neg hv) (fun hv => ?_)
    (steady_idle rfl h3 rfl rfl rfl rfl (fun hv => ?_) (fun _ => ⟨nofun, nofun⟩) (fun _ => rfl) h4 nofun)
  · have hv : c.ipgVariant = .autonomous := hv
    simp [at', State.resetOf, hv]
  · have hv : c.ipgVariant = .autonomous := hv
    simp [at', State.resetOf, hv]

/-- The invariant does not depend on the turns listed. -/
theorem inv_sched {s : State} (h : Inv s) (ts : List Turn) : Inv { s with sched := ts } :=
  ⟨h.admitted, h.table_wf, h.images_wf, h.snap_width, h.live, h.table, h.images, h.stopped, h.launched, fun hb =>
    have st := h.steady hb
    ⟨st.curImg_le, st.label_only, st.label_shown, st.timer_armed, st.timer_due, st.reset_held, st.button_pressed,
      st.counting, st.not_counting, st.pulse_autonomous, st.pulse_inline, st.pulse_none, st.width_range,
      st.skip_only_we, st.no_switch, st.two_phase_only⟩⟩

theorem inv_fixture (lines : Nat) : Inv (at' fixture lines) := inv_builds (by decide) lines

/-- A state of the two-phase build while the label of bank 1 is shown. -/
def showing (s : State) : State :=
  { s.buildLabel 1 with
    swState := .labelShow, tmrArmed := true, tmrRem := 3, tmrAct := .realSwitch, curImg := 2, pendIdx := 1 }

theorem showing_img (s : State) : (showing s).img = (s.buildLabel 1).img := rfl

theorem showing_cfg (s : State) : (showing s).cfg = s.cfg := rfl

theorem imgRead_showing (s : State) (b : Nat) (a : Addr) :
    imgRead (showing s) b a = if b = s.cfg.n then some (label s.cfg 1 a) else imgRead s b a := by
  rw [← imgRead_buildLabel]; exact imgRead_congr rfl rfl b a

/-- From a two-phase state with two banks at rest. -/
theorem inv_showing {s : State} (h : Inv s) (h2 : s.cfg.n = 2) (hv : s.cfg.switchVariant = .twoPhase)
    (hs : s.cfg.switchSource = .button) (hb : s.boot = .done) (hi : s.swState = .idle) :
    Inv (showing s) := by
  have st := h.steady (by rw [hb]; rfl)
  exact
    { admitted := h.admitted
      table_wf := h.table_wf
      images_wf := by
        rw [showing_img, showing_cfg]
        exact buildLabel_wf hv h.images_wf
      snap_width := h.snap_width
      live := h.live
      table := h.table
      images := fun b hbn a => by
        have hbn : b < s.cfg.n := hbn
        rw [imgRead_showing, if_neg hbn.ne]
        exact h.images b hbn a
      stopped := h.stopped
      launched := h.launched
      steady := fun _ =>
        { curImg_le := h2.ge
          label_only := fun _ => ⟨hv, rfl⟩
          label_shown := fun _ _ => ⟨h2.symm, by show 1 < s.cfg.n; omega, fun a => by
            show imgRead (showing s) s.cfg.n a = some (label s.cfg 1 a)
            rw [imgRead_showing, if_pos rfl]⟩
          timer_armed := rfl
          timer_due := fun _ => ⟨show 1 ≤ 3 by decide, rfl⟩
          reset_held := by show s.resetOut = false; rw [st.reset_held, hi]; rfl
          button_pressed := ⟨fun h => absurd (hi.symm.trans (st.button_pressed.1 h)) (by decide), nofun⟩
          counting := nofun
          not_counting := fun _ => st.not_counting (by rw [hi]; nofun)
          pulse_autonomous := st.pulse_autonomous
          pulse_inline := st.pulse_inline
          pulse_none := st.pulse_none
          width_range := st.width_range
          skip_only_we := st.skip_only_we
          no_switch := fun h => by have h : s.cfg.switchSource = .address := h; rw [hs] at h; cases h
          two_phase_only := fun _ => hv } }

/-- For `LabelIsServedWhileSelected`: the label slot is selected, and the lines carry 0x0100. -/
theorem test_witness_LabelIsServedWhileSelected :
    let s := showing (at' twoPhase 0x04840000)
    Inv s ∧ s.engLive = true ∧ s.cfg.switchVariant = .twoPhase ∧ s.swState.mayLabel = true ∧ Carries s 0x0100 :=
  ⟨inv_showing (inv_builds (by decide) _) rfl rfl rfl rfl rfl, rfl, rfl, rfl,
    show BitVec.ofNat twoPhase.w 0x04840000 &&& addrMask twoPhase = scatter twoPhase 0x0100 by decide⟩

/-- A state before S1 (empty images: every logical byte is 0, and so is its line form). -/
def powered : State := { at' Config.refcfg 0 with boot := .s1, engLive := false }

theorem poweredOn_powered : PoweredOn powered := by
  refine ⟨?_, rfl⟩
  exact {
    admitted := show Config.refcfg.admitted = true by decide
    table_wf := rfl
    images_wf := rfl
    snap_width := show 0 < 2 ^ Config.refcfg.w by decide
    live := rfl
    table := fun h => absurd rfl h
    images := fun b hb a => by
      have hb : b < 2 := hb
      have h0 : romLogical Config.refcfg b a = 0 := by
        rcases (by omega : b = 0 ∨ b = 1) with rfl | rfl <;> rfl
      have hp : preconv Config.refcfg 0 = 0 := by decide
      show imgUnlisted Config.refcfg (imgAddr b a.toNat) = some (romLogical Config.refcfg b a)
      rw [imgUnlisted_bank hb, h0, hp]
    stopped := fun _ => rfl
    launched := nofun
    steady := nofun }

/-- With turns of other agents between the boot steps, one of ENGINE between S4 and S5 among them. -/
theorem test_witness_BootReachesTheResetState :
    let boot : Turn := ⟨.startup, 0x04800100⟩
    let first : List Turn := [boot, ⟨.engine, 0⟩, boot, ⟨.switch, 0x05800100⟩, boot]
    PoweredOn powered ∧ (first.filter (fun u => u.agent == .startup)).length = 3 ∧
    ∀ u ∈ [(⟨.host, 0⟩ : Turn), ⟨.engine, 0x04986800⟩], u.agent ≠ .startup :=
  ⟨poweredOn_powered, by decide, by decide⟩

theorem test_witness_DecodeOfEncode : (Instr.swTick true .finalHold true).wellFormed = true := by decide

theorem test_witness_EncodeOfDecode : decode (.swf 0b111001#6) = .ok (.swFinalrel false) := by decide

theorem test_witness_FormedSelectorDecodes :
    Inv (at' fixture 0x04986800) ∧ selectorOf (at' fixture 0x04986800) .engine = some (.eng 0b0001#4) :=
  ⟨inv_fixture _, by decide⟩

theorem test_witness_StepRunsDecodedOperation :
    let s := { at' fixture 0 with sched := [⟨.engine, 0x04986800⟩] }
    s.cfg.admitted = true ∧ selectorOf s.takeTurn s.nextTurn.agent = some (.eng 0b0001#4) ∧
      decode (.eng 0b0001#4) = .ok .breServe := by decide

theorem test_witness_TurnOfAgentWithoutAStep :
    let s := { at' fixture 0 with sched := [⟨.host, 5⟩] }
    s.cfg.admitted = true ∧ selectorOf s.takeTurn s.nextTurn.agent = none := by decide

theorem test_witness_AdmittedConfigurations :
    { Config.refcfg with q := 1 }.admitted = false ∧ (at' { Config.refcfg with q := 1 } 0).cfg =
      { Config.refcfg with q := 1 } := by decide

theorem test_witness_AitBuildResult : powered.cfg.admitted = true ∧ powered.boot = .s1 := by decide

theorem test_witness_RomPreconvResult :
    let s := { powered with boot := .s2 }
    s.boot = .s2 ∧ 1 < s.cfg.n ∧ imgRead s 1 0x3FFF = some (romLogical s.cfg 1 0x3FFF) ∧ s.cfg.n ≤ 2 := by decide

theorem test_witness_CoreInitResult : { powered with boot := .s3 }.boot = .s3 := rfl

theorem test_witness_EngLaunchResult :
    { powered with boot := .s4 }.boot = .s4 ∧ powered.engLive = false ∧ (at' fixture 0).engLive = true ∧
    exec .swQualify (at' fixture 0) = .next { at' fixture 0 with
      resetOut := true, curImg := 1, btnState := .pressed, dbCnt := 0, swState := .swHold } := ⟨rfl, rfl, rfl, rfl⟩

theorem test_witness_IpgStartResult :
    { at' autonomous 0 with boot := .s5 }.boot = .s5 ∧ (at' autonomous 0).cfg.ipgVariant = .autonomous ∧
    (at' fixture 0).cfg.ipgVariant ≠ .autonomous := by decide

/-- Every condition of R112 and R116 to R120 is met by a state with `HAS_WE`. -/
theorem test_witness_EngineQuietOperations :
    let c := { fixture with hasWe := true }
    (at' c 0).engLive = true ∧
    (at' c 0x04986900).engState = .waiting ∧ level (at' c 0x04986900) c.lRd = true ∧
    (at' c 0x04186800).engState = .waiting ∧ level (at' c 0x04186800) c.lRd = false ∧ c.hasWe = true ∧
    level (at' c 0x04186800) c.lWe = false ∧
    { at' c 0x04986800 with engState := .driving }.engState = .driving ∧ level (at' c 0x04986800) c.lRd = false ∧
    { at' c 0x04986800 with engState := .skipping }.engState = .skipping := by decide

theorem test_witness_ServeResult :
    let s := at' { fixture with hasWe := true } 0x04986800
    s.engLive = true ∧ s.engState = .waiting ∧ level s s.cfg.lRd = false ∧ level s s.cfg.lWe = true ∧
    s.curImg < slotCount s.cfg ∧ imgRead s s.curImg (lookup s (pack s.cfg (sample s))) = some 0xBB := by decide

theorem test_witness_ServeStopsOutsideTheStore :
    let s := { at' fixture 0x04986800 with curImg := 2 }
    let u := { at' twoPhase 0x04840000 with curImg := 2 }
    slotCount s.cfg ≤ serveSlot s (lookup s (pack s.cfg (sample s))) ∧
    serveSlot u (lookup u (pack u.cfg (sample u))) < slotCount u.cfg ∧
    imgRead u (serveSlot u (lookup u (pack u.cfg (sample u)))) (lookup u (pack u.cfg (sample u))) = none := by decide

theorem test_witness_SwitchStays :
    let s := at' fixture 0x04800100
    let u := { at' fixture 0x05800100 with swState := .swHold }
    s.boot = .done ∧ s.cfg.switchSource = .button ∧ s.swState = .idle ∧ btn s = false ∧
    u.boot = .done ∧ u.cfg.switchSource = .button ∧ u.swState = .swHold ∧ btn u = true := by decide

theorem test_witness_SwitchDetectResult :
    let s := at' fixture 0x05800100
    s.boot = .done ∧ s.cfg.switchSource = .button ∧ s.swState = .idle ∧ btn s = true := by decide

theorem test_witness_SwitchCountResult :
    let s := { at' fixture 0x05800100 with swState := .debouncing, dbCnt := 1 }
    s.boot = .done ∧ s.cfg.switchSource = .button ∧ s.swState = .debouncing ∧ btn s = true ∧
    s.dbCnt + 1 < s.cfg.q := by decide

theorem test_witness_SwitchBounceResult :
    let s := { at' fixture 0x04800100 with swState := .debouncing, dbCnt := 2 }
    s.boot = .done ∧ s.cfg.switchSource = .button ∧ s.swState = .debouncing ∧ btn s = false := by decide

theorem test_witness_SwitchQualifyResult :
    let s := { at' fixture 0x05800100 with swState := .debouncing, dbCnt := 2 }
    s.boot = .done ∧ s.cfg.switchSource = .button ∧ s.cfg.switchVariant = .immediate ∧ s.swState = .debouncing ∧
    btn s = true ∧ s.cfg.q ≤ s.dbCnt + 1 := by decide

theorem test_witness_SwitchLabelResult :
    let s := { at' twoPhase 0x05800100 with swState := .debouncing, dbCnt := 1 }
    s.boot = .done ∧ s.cfg.switchSource = .button ∧ s.cfg.switchVariant = .twoPhase ∧ s.swState = .debouncing ∧
    btn s = true ∧ s.cfg.q ≤ s.dbCnt + 1 := by decide

theorem test_witness_SwitchUnpressResult :
    let s := { at' fixture 0x04800100 with swState := .swHold }
    s.boot = .done ∧ s.cfg.switchSource = .button ∧ s.swState = .swHold ∧ btn s = false := by decide

theorem test_witness_SwitchTickResult :
    let s := { at' twoPhase 0x04800100 with swState := .swSettle, tmrRem := 2 }
    let u := { at' twoPhase 0x04800100 with swState := .labelShow, tmrRem := 2 }
    let v := { at' twoPhase 0x04800100 with swState := .finalHold, tmrRem := 2 }
    s.boot = .done ∧ s.cfg.switchSource = .button ∧ 1 < s.tmrRem ∧ s.swState = .swSettle ∧
    u.cfg.switchVariant = .twoPhase ∧ 1 < u.tmrRem ∧ u.swState = .labelShow ∧ 1 < v.tmrRem ∧
    v.swState = .finalHold := by decide

theorem test_witness_SwitchReleaseResult :
    let s := { at' fixture 0x04800100 with swState := .swSettle, tmrRem := 1 }
    s.boot = .done ∧ s.cfg.switchSource = .button ∧ s.cfg.switchVariant = .immediate ∧ s.swState = .swSettle ∧
    s.tmrRem = 1 := by decide

/-- For `SW.SHOWLABEL`, `SW.REALSWITCH` and `SW.FINALREL`. -/
theorem test_witness_SwitchTwoPhaseExpiries :
    let s := { at' twoPhase 0x04800100 with swState := .swSettle, tmrRem := 1 }
    let u := { at' twoPhase 0x04800100 with swState := .labelShow, tmrRem := 1 }
    let v := { at' twoPhase 0x04800100 with swState := .finalHold, tmrRem := 1 }
    s.boot = .done ∧ s.cfg.switchSource = .button ∧ s.cfg.switchVariant = .twoPhase ∧
    s.swState = .swSettle ∧ s.tmrRem = 1 ∧ u.swState = .labelShow ∧ u.tmrRem = 1 ∧
    v.swState = .finalHold ∧ v.tmrRem = 1 := by decide

theorem test_witness_PulseOffResult :
    let s := { at' autonomous 0 with ipgState := .stopped }
    s.cfg.ipgVariant = .autonomous ∧ s.ipgState = .stopped := by decide

/-- No transition, for each polarity. -/
theorem test_witness_PulseWaitResult :
    let s := fun k => { at' { autonomous with syncEdge := k } 0x04800100 with intPrev := true }
    ∀ k ∈ [SyncEdge.falling, .rising, .both], (s k).cfg.ipgVariant = .autonomous ∧ (s k).ipgState = .armed ∧
      (s k).cfg.syncEdge = k ∧ (s k).intPrev = true ∧ level (s k) (s k).cfg.lInt = true := by decide

/-- A transition, for each polarity. -/
theorem test_witness_PulseSyncResult :
    let s := fun k l p => { at' { autonomous with syncEdge := k } l with intPrev := p }
    (∀ k ∈ [SyncEdge.falling, .both], (s k 0 true).cfg.ipgVariant = .autonomous ∧ (s k 0 true).ipgState = .armed ∧
      (s k 0 true).intPrev = true ∧ level (s k 0 true) (s k 0 true).cfg.lInt = false) ∧
    (let u := s .rising 0x04800100 false
     u.cfg.ipgVariant = .autonomous ∧ u.ipgState = .armed ∧ u.intPrev = false ∧ level u u.cfg.lInt = true) := by decide

theorem test_witness_PulseHoldResult :
    let s := { at' autonomous 0 with ipgState := .asserted, wCnt := 1 }
    s.cfg.ipgVariant = .autonomous ∧ s.ipgState = .asserted ∧ s.wCnt + 1 < s.cfg.pulseWidth := by decide

theorem test_witness_PulseEndResult :
    let s := { at' autonomous 0 with ipgState := .asserted, wCnt := 2 }
    s.cfg.ipgVariant = .autonomous ∧ s.ipgState = .asserted ∧ s.cfg.pulseWidth ≤ s.wCnt + 1 := by decide

/-- For `PackScatterIsSigma`, `PreconvIsAPermutation`, `DriveTouchesOnlyDataLines` and `InvHoldsAtReset`. -/
theorem test_witness_admitted : Config.refcfg.admitted = true ∧ 8 ∉ Config.refcfg.dataSlot.toList := by decide

/-- For `TableIsTheInversePermutation`, `NeverStuck` and `AgentsAlwaysHaveOneOperation` (button build). -/
theorem test_witness_inv :
    Inv (at' fixture 0) ∧ (at' fixture 0).boot ≠ .s1 ∧ (at' fixture 0).engLive = true ∧ (at' fixture 0).boot = .done ∧
    (at' fixture 0).cfg.switchSource = .button :=
  ⟨inv_fixture 0, nofun, rfl, rfl, rfl⟩

theorem test_witness_inv_autonomous :
    Inv (at' autonomous 0) ∧ (at' autonomous 0).cfg.ipgVariant = .autonomous := ⟨inv_builds (by decide) 0, rfl⟩

theorem test_witness_LookupFindsTheAddress :
    Inv (at' fixture 0) ∧ (at' fixture 0).boot ≠ .s1 ∧
    BitVec.ofNat fixture.w 0x04986800 &&& addrMask fixture = scatter fixture 0x1234 :=
  ⟨inv_fixture 0, nofun, by decide⟩

theorem test_witness_InvKeptByEveryStep :
    let s := { at' fixture 0 with sched := [⟨.engine, 0x04986900⟩] }
    ∃ t, Inv s ∧ step s = .next t := ⟨_, inv_sched (inv_fixture 0) _, rfl⟩

theorem test_witness_BankChangesOnlyUnderReset :
    let s := { at' fixture 0 with swState := .debouncing, dbCnt := 2, sched := [⟨.switch, 0x05800100⟩] }
    ∃ t, s.cfg.switchSource = .button ∧ s.boot.initialised = true ∧ step s = .next t ∧ t.curImg ≠ s.curImg :=
  ⟨_, rfl, rfl, rfl, by decide⟩

/-- A step that builds a label: the byte at 0 of the slot had no value before. -/
theorem label_step {s : State} (h : s.img = []) (h1 : s.boot = .done)
    (h2 : s.cfg.admitted = true) (h3 : s.nextTurn.agent = .switch)
    (h4 : selectorOf s.takeTurn .switch = some (.swf 0b100111#6)) :
    ∃ t, s.boot = .done ∧ step s = .next t ∧ ∃ a, imgRead t s.cfg.n a ≠ imgRead s s.cfg.n a := by
  refine ⟨_, h1, by unfold step; simp only [h2, h3, h4]; rfl, 0, ?_⟩
  have h5 : imgRead s s.cfg.n 0 = none := by rw [imgRead, h]; exact imgUnlisted_label le_rfl
  rw [h5]
  have h6 := imgRead_buildLabel s.takeTurn (nextBank s.cfg s.curImg) s.cfg.n 0
  rw [takeTurn_cfg, if_pos rfl] at h6
  exact fun h => nomatch h6.symm.trans h

theorem test_witness_TablesNeverChangeAfterStartup :
    let s := { at' twoPhase 0 with swState := .debouncing, dbCnt := 1, sched := [⟨.switch, 0x05800100⟩] }
    ∃ t, s.boot = .done ∧ step s = .next t ∧ ∃ a, imgRead t s.cfg.n a ≠ imgRead s s.cfg.n a :=
  label_step rfl rfl (show twoPhase.admitted = true by decide) rfl (by decide)

/-- A turn of each agent after startup, for `AgentsWriteOnlyTheirOwn` and `ConfigurationNeverChanges`. -/
theorem test_witness_AgentsWriteOnlyTheirOwn (g : Agent) :
    let s := { at' autonomous 0 with sched := [⟨g, 0x04800100⟩] }
    s.boot = .done ∧ s.nextTurn.agent = g ∧ ∃ t, step s = .next t := by
  cases g <;> exact ⟨rfl, rfl, _, rfl⟩

/-- Bits 0 to 7 (the data lines), 25 and 31 are read by no agent of the fixture. -/
theorem test_witness_UnreadLinesDoNotMatter :
    let s := at' fixture 0
    (∀ x ∈ readLines s.cfg, wordLevel s.cfg 0x04986800 x = wordLevel s.cfg 0x869868FF x) ∧
    Performs .engine { s with lines := 0x04986800 } .breServe ∧
    ∃ t, exec .breServe { s with lines := 0x04986800 } = .next t :=
  ⟨by decide, ⟨_, rfl, rfl⟩, _, rfl⟩

/-- A serve of 0x1234 from bank 0, and of the trigger address 0x0008 in both orders. -/
theorem test_witness_ServeDrivesTheLogicalByte :
    (Inv (at' fixture 0x04986800) ∧ (at' fixture 0x04986800).engLive = true ∧
      Carries (at' fixture 0x04986800) 0x1234 ∧ (at' fixture 0x04986800).curImg < fixture.n) ∧
    (∀ c ∈ builds, c.switchSource = .address →
      Inv (at' c 0x04801000) ∧ Carries (at' c 0x04801000) 0x0008 ∧ trig c 0x0008 0 < c.n) :=
  ⟨⟨inv_fixture _, rfl, by unfold Carries; decide, by decide⟩, fun c hc hs =>
    ⟨inv_builds hc _, by revert c; unfold Carries; decide, by revert c; decide⟩⟩

/-- The build with `HAS_WE` and the inline pulse. -/
def writing : Config := { fixture with ipgVariant := .inline, hasWe := true }

theorem inv_writing (lines : Nat) : Inv (at' writing lines) := inv_builds (by decide) lines

/-- A read of 0x1234, held for one more sample and released; then a whole write cycle. -/
theorem test_witness_ReadCycleIsAnswered :
    let s := at' writing 0
    let before : List Turn := [⟨.switch, 0x04800100⟩, ⟨.host, 0⟩]
    let after : List Turn := [⟨.engine, 0x04986800⟩, ⟨.switch, 0x05800100⟩, ⟨.engine, 0x04800100⟩,
      ⟨.engine, 0x04000000⟩, ⟨.engine, 0x04800000⟩, ⟨.engine, 0x04800100⟩]
    Inv s ∧ s.engLive = true ∧ s.engState = .waiting ∧ (∀ u ∈ before, u.agent ≠ .engine) ∧
    ReadOf s.cfg 0x1234 ⟨.engine, 0x04986800⟩ ∧ beginsNoRead s.cfg true after = true ∧ s.curImg < s.cfg.n := by
  refine ⟨inv_writing 0, rfl, rfl, by decide, ?_, by decide, by decide⟩
  unfold ReadOf; decide

/-- A read that begins after the release is refused; a build without `HAS_WE` takes every cycle for a read. -/
theorem test_beginsNoRead :
    beginsNoRead writing true [⟨.engine, 0x04800100⟩, ⟨.engine, 0x04800000⟩] = false ∧
    beginsNoRead fixture true [⟨.engine, 0x04800100⟩, ⟨.engine, 0x04000000⟩] = false := by decide

theorem test_witness_WriteCycleDrivesNothing :
    let s := at' writing 0
    Inv s ∧ s.engLive = true ∧ s.engState = .waiting ∧ WriteOf s.cfg ⟨.engine, 0x04186800⟩ ∧
    StrobeHeld s.cfg ⟨.engine, 0x04986800⟩ ∧ ¬StrobeHeld s.cfg ⟨.engine, 0x04986900⟩ :=
  ⟨inv_writing 0, rfl, rfl, by unfold WriteOf; decide, by unfold StrobeHeld; decide, by unfold StrobeHeld; decide⟩

/-- A serve of 0x0038 with the pulse idle and with it asserted, a serve of another address, and a turn without one. -/
theorem test_witness_InlinePulseLastsToTheNextServe :
    (let s := { at' writing 0 with sched := [⟨.engine, 0x04807000⟩] }
     ∃ t, Inv s ∧ s.boot = .done ∧ step s = .next t ∧ Performs .engine s.takeTurn .breServe ∧
      nmiCond s.cfg t.laddr = true ∧ s.nmiPrev = false) ∧
    (let s := { at' writing 0 with nmiOut := false, nmiPrev := true, sched := [⟨.engine, 0x04807000⟩] }
     ∃ t, step s = .next t ∧ Performs .engine s.takeTurn .breServe ∧ s.nmiPrev = true) ∧
    (let s := { at' writing 0 with sched := [⟨.engine, 0x04800000⟩] }
     ∃ t, step s = .next t ∧ Performs .engine s.takeTurn .breServe ∧ nmiCond s.cfg t.laddr = false) ∧
    (let s := { at' writing 0 with sched := [⟨.engine, 0x04007000⟩] }
     ∃ t, step s = .next t ∧ Performs .engine s.takeTurn .breSkipwr) :=
  ⟨⟨_, inv_sched (inv_writing 0) _, rfl, rfl, ⟨_, rfl, rfl⟩, by decide, rfl⟩, ⟨_, rfl, ⟨_, rfl, rfl⟩, rfl⟩, ⟨_, rfl, ⟨_, rfl, rfl⟩, by decide⟩,
    ⟨_, rfl, _, rfl, rfl⟩⟩

/-- The two states of the inline pulse above meet the invariant, whatever turns are listed. -/
theorem inv_writing_asserted (ts : List Turn) :
    Inv { at' writing 0 with nmiOut := false, nmiPrev := true, sched := ts } :=
  inv_of_empty (show writing.admitted = true by decide) rfl rfl (show 0 < 2 ^ writing.w by decide) rfl rfl
    (fun _ => rfl) nofun
    (steady_idle rfl (show 0 < writing.n by decide) rfl rfl rfl rfl nofun (fun _ => ⟨fun _ => rfl, fun _ => rfl⟩) nofun
      (show 0 < writing.pulseWidth by decide) nofun)

/-- In both orders: a trigger address (0x0008, to bank 1) and one beside it. -/
theorem test_witness_AddressTriggerSelects :
    (∀ c ∈ builds, c.switchSource = .address → ∀ l ∈ [0x04801000, 0x04801200],
      Inv (at' c l) ∧ (at' c l).engLive = true) ∧
    (∀ c ∈ builds, c.switchSource = .address →
      BitVec.ofNat c.w 0x04801000 &&& addrMask c = scatter c 0x0008 ∧ (0x0008, 1) ∈ c.trigTable ∧
      BitVec.ofNat c.w 0x04801200 &&& addrMask c = scatter c 0x0009 ∧ ∀ b < 2, (0x0009, b) ∉ c.trigTable) :=
  ⟨fun _ hc _ l _ => ⟨inv_builds hc l, rfl⟩, by decide⟩

/-- Presses below the threshold, at it and beyond it (Q = 3), with turns of other agents between. -/
theorem test_witness_PressQualifiesAtTheThreshold :
    let s := at' fixture 0
    let on : Turn := ⟨.switch, 0x05800100⟩
    let other : Turn := ⟨.engine, 0x04986800⟩
    Inv s ∧ s.boot = .done ∧ s.cfg.switchSource = .button ∧ s.swState = .idle ∧ s.cfg.q = 3 ∧
    buttonSamples s.cfg [] = List.replicate 0 true ∧
    buttonSamples s.cfg [on, other, on] = List.replicate 2 true ∧
    buttonSamples s.cfg [on, on, other, on] = List.replicate 3 true ∧
    buttonSamples s.cfg [on, on, on, on] = List.replicate 4 true :=
  ⟨inv_fixture 0, rfl, rfl, rfl, by decide, by decide, by decide, by decide, by decide⟩

/-- The pattern 1, 1, 0 of 95 section 3.5 (Q = 3). -/
theorem test_witness_ShortPressesNeverQualify :
    let s := at' fixture 0
    let on : Turn := ⟨.switch, 0x05800100⟩
    let off : Turn := ⟨.switch, 0x04800100⟩
    Inv s ∧ s.swState = .idle ∧
    ¬(List.replicate s.cfg.q true <:+: buttonSamples s.cfg [on, on, off, on, on, off]) :=
  ⟨inv_fixture 0, rfl, by decide⟩

/-- Two presses of the fixture, the first after a bounce and held one sample beyond the threshold, with the button down
in the settle delay of both; then a bounce (Q = 3, `SETTLE_DELAY` = 2). -/
theorem test_witness_PressesCycleTheBanks :
    let s := at' fixture 0
    let on : Turn := ⟨.switch, 0x05800100⟩
    let off : Turn := ⟨.switch, 0x04800100⟩
    let ps : List Press := [⟨[false, true, true, false], 1, [true, false]⟩, ⟨[], 0, [true, true]⟩]
    Inv s ∧ s.swState = .idle ∧ (∀ p ∈ ps, p.wf s.cfg) ∧ NoPress s.cfg [true, true, false] ∧
    buttonSamples s.cfg [off, on, on, off, on, on, on, on, off, on, off, on, on, on, off, on, on, on, on, off] =
      ps.flatMap (Press.samples s.cfg) ++ [true, true, false] := by
  refine ⟨inv_fixture 0, rfl, ?_, ?_, by decide⟩
  · unfold Press.wf NoPress; decide
  · unfold NoPress; decide

theorem edgeAt_of_length_le {k : SyncEdge} {p : Bool} {l : List Bool} {n : Nat} (h : l.length ≤ n) :
    edgeAt k p l n = false := by
  simp [edgeAt, List.getElem?_eq_none h]

/-- A sync line that falls at ticks 1 and 9 (width 3, falling). -/
theorem test_witness_PulseContractHolds :
    let s := at' autonomous 0x04800100
    let hi : Turn := ⟨.ipg, 0x04800100⟩
    let lo : Turn := ⟨.ipg, 0x00800100⟩
    let ts := [hi, lo, lo, lo, lo, hi, hi, hi, hi, lo, lo]
    Inv s ∧ s.boot = .done ∧ s.cfg.ipgVariant = .autonomous ∧ s.ipgState = .armed ∧ s.cfg.pulseWidth = 3 ∧
    (List.range 11).filter (edgeAt s.cfg.syncEdge s.intPrev (syncSamples s.cfg ts)) = [1, 9] ∧
    ∀ m n, m < n → edgeAt s.cfg.syncEdge s.intPrev (syncSamples s.cfg ts) m = true →
      edgeAt s.cfg.syncEdge s.intPrev (syncSamples s.cfg ts) n = true → m + s.cfg.pulseWidth < n := by
  intro s hi lo ts
  have key : ∀ m < 11, ∀ n < 11, m < n → edgeAt s.cfg.syncEdge s.intPrev (syncSamples s.cfg ts) m = true →
      edgeAt s.cfg.syncEdge s.intPrev (syncSamples s.cfg ts) n = true → m + s.cfg.pulseWidth < n := by decide
  have small : ∀ n, edgeAt s.cfg.syncEdge s.intPrev (syncSamples s.cfg ts) n = true → n < 11 := fun n h => by
    by_contra hn
    rw [edgeAt_of_length_le (show (syncSamples s.cfg ts).length ≤ n by
      rw [show (syncSamples s.cfg ts).length = 11 by decide]; omega)] at h
    cases h
  exact ⟨inv_builds (by decide) _, rfl, rfl, rfl, rfl, by decide, fun m n h h1 h2 => key m (small m h1) n (small n h2) h h1 h2⟩

/-! ### A weakly fair run -/

/-- Three samples with the button down, a falling sync line, then ENGINE, SWITCH and IPG in turn, the lines idle. -/
def fairTurn : Nat → Turn
  | 0 | 1 | 2 => ⟨.switch, 0x05800100⟩
  | 3 => ⟨.ipg, 0x00800100⟩
  | n + 4 => ⟨if n % 3 = 0 then .engine else if n % 3 = 1 then .switch else .ipg, 0x04800100⟩

/-- The run of these turns from the autonomous build's reset state. -/
def fairRun : Nat → State
  | 0 => at' autonomous 0x04800100
  | n + 1 =>
    match step ((fairRun n).given (fairTurn n)) with
    | .next t => t
    | _ => fairRun n

/-- Where the run comes to rest: the press and the pulse have ended. -/
def rested (k : Nat) : State :=
  { at' autonomous 0x04800100 with snap := 0x04800100, curImg := 1, tmrRem := 1, turnNo := k }

theorem fairTurn_later (n : Nat) : fairTurn (n + 4) =
    ⟨if n % 3 = 0 then .engine else if n % 3 = 1 then .switch else .ipg, 0x04800100⟩ := rfl

theorem step_rested (k n : Nat) : step ((rested k).given (fairTurn (n + 4))) = .next (rested (k + 1)) := by
  rw [fairTurn_later]
  split_ifs
  · exact step_given k (s := (rested 0).given ⟨.engine, 0x04800100⟩) (t := rested 1) rfl
  · exact step_given k (s := (rested 0).given ⟨.switch, 0x04800100⟩) (t := rested 1) rfl
  · exact step_given k (s := (rested 0).given ⟨.ipg, 0x04800100⟩) (t := rested 1) rfl

theorem fairRun_reaches : fairRun 13 = rested 13 := by decide +kernel

theorem fairRun_starts : ∀ n < 13, ∃ t, step ((fairRun n).given (fairTurn n)) = .next t := by
  intro n h
  have key : ∀ n < 13, (got id (step ((fairRun n).given (fairTurn n)))).isSome = true := by decide +kernel
  have := key n h
  cases hs : step ((fairRun n).given (fairTurn n)) with
  | next t => exact ⟨t, rfl⟩
  | fault f => rw [hs] at this; cases this
  | refused f => rw [hs] at this; cases this

theorem fairRun_rests (n : Nat) : fairRun (n + 13) = rested (n + 13) := by
  induction n with
  | zero => exact fairRun_reaches
  | succ n ih => rw [show n + 1 + 13 = n + 13 + 1 by omega, fairRun, ih, step_rested (n + 13) (n + 9)]

theorem infiniteRun_fairRun : InfiniteRun fairTurn fairRun := fun n => by
  rcases Nat.lt_or_ge n 13 with h | h
  · obtain ⟨t, ht⟩ := fairRun_starts n h
    rw [fairRun, ht]
  · obtain ⟨m, rfl⟩ := Nat.exists_eq_add_of_le' h
    rw [fairRun_rests m, show m + 13 + 1 = m + 1 + 13 by omega, fairRun_rests (m + 1)]
    exact step_rested (m + 13) (m + 9)

theorem weaklyFair_fairRun : WeaklyFair fairTurn fairRun := fun g n h => by
  cases g with
  | startup => exact absurd (by rw [fairRun_rests n]; rfl) (h (n + 13) (by omega))
  | engine => exact ⟨3 * n + 4, by omega, by rw [fairTurn_later, if_pos (by omega)]⟩
  | switch => exact ⟨3 * n + 1 + 4, by omega, by rw [fairTurn_later, if_neg (by omega), if_pos (by omega)]⟩
  | ipg => exact ⟨3 * n + 2 + 4, by omega, by rw [fairTurn_later, if_neg (by omega), if_neg (by omega)]⟩
  | host => exact absurd rfl (h n le_rfl)

theorem test_witness_FairRunsStepEveryAgent :
    Inv (fairRun 0) ∧ InfiniteRun fairTurn fairRun ∧ WeaklyFair fairTurn fairRun ∧
    (fairRun 0).cfg.switchSource = .button ∧ (fairRun 0).cfg.ipgVariant = .autonomous :=
  ⟨inv_builds (by decide) _, infiniteRun_fairRun, weaklyFair_fairRun, rfl, rfl⟩

/-- The press qualifies at turn 2 and the button reads released from turn 3 on; the transition is observed at turn 3. -/
theorem test_witness_FairRunsAnswerPressesAndTransitions :
    (Inv (fairRun 0) ∧ InfiniteRun fairTurn fairRun ∧ WeaklyFair fairTurn fairRun) ∧
    (let s := fairRun 2
     s.boot = .done ∧ s.cfg.switchSource = .button ∧ s.swState = .debouncing ∧ s.cfg.q ≤ s.dbCnt + 1 ∧
     (fairTurn 2).agent = .switch ∧ wordLevel s.cfg (fairTurn 2).lines s.cfg.lBtn = true ∧
     ReleasedFrom s.cfg fairTurn 3) ∧
    (let s := fairRun 3
     s.cfg.ipgVariant = .autonomous ∧ s.ipgState = .armed ∧ (fairTurn 3).agent = .ipg ∧
     edge s.cfg.syncEdge s.intPrev (wordLevel s.cfg (fairTurn 3).lines s.cfg.lInt) = true) := by
  refine ⟨⟨inv_builds (by decide) _, infiniteRun_fairRun, weaklyFair_fairRun⟩,
    ⟨rfl, rfl, rfl, by decide, rfl, by decide, fun m h _ => ?_⟩, rfl, rfl, rfl, by decide⟩
  match m, h with
  | 3, _ => decide
  | m + 4, _ => exact show wordLevel autonomous 0x04800100 autonomous.lBtn = false by decide

end Sys2Proof.Tests
end

section
/-!
SUPPORT. What R9 asks of a configuration, in the words of spec/00_scope.md, and that the model refuses any other.
-/

namespace Sys2Proof

/-- A line map lists no line twice exactly when it is injective. -/
theorem nodup_toList_iff_injective {n : Nat} (v : Vector Nat n) :
    v.toList.Nodup ↔ Function.Injective (fun i : Fin n => v.get i) := by
  have hget : v.toList = List.ofFn (fun i : Fin n => v.get i) := by
    apply List.ext_getElem <;> simp [Vector.get]
  rw [hget, List.nodup_ofFn]

/-- The image of a line map is the set of the lines it lists. -/
theorem mem_range_get {n : Nat} (v : Vector Nat n) (l : Nat) :
    l ∈ Set.range (fun i : Fin n => v.get i) ↔ l ∈ v.toList := by
  simp only [Set.mem_range, List.mem_iff_getElem, Vector.length_toList, Vector.getElem_toList]
  exact ⟨fun ⟨i, h⟩ => ⟨i, i.isLt, h⟩, fun ⟨i, hi, h⟩ => ⟨⟨i, hi⟩, h⟩⟩

/-- Two line maps have the same image exactly when each lists only lines of the other. -/
theorem range_get_eq_iff {n k : Nat} (v : Vector Nat n) (u : Vector Nat k) :
    Set.range (fun i : Fin n => v.get i) = Set.range (fun i : Fin k => u.get i) ↔
      (∀ l ∈ v.toList, l ∈ u.toList) ∧ (∀ l ∈ u.toList, l ∈ v.toList) := by
  simp only [Set.ext_iff, mem_range_get]
  exact ⟨fun h => ⟨fun l => (h l).1, fun l => (h l).2⟩, fun h l => ⟨h.1 l, h.2 l⟩⟩

/-- R9(c). -/
theorem Config.packOk_iff (c : Config) :
    c.packOk = true ↔ Function.Injective (fun k : Fin 14 => c.packPos.get k) ∧
      Set.range (fun k : Fin 14 => c.packPos.get k) = Set.range (fun i : Fin 14 => c.addrLine.get i) := by
  simp only [Config.packOk, Bool.and_eq_true, decide_eq_true_eq, List.all_eq_true, List.contains_iff_mem,
    nodup_toList_iff_injective, range_get_eq_iff, and_assoc]

/-- R9(d). -/
theorem Config.slotOk_iff (c : Config) :
    c.slotOk = true ↔ Function.Injective (fun j : Fin 8 => c.dataSlot.get j) ∧
      Set.range (fun j : Fin 8 => c.dataSlot.get j) = Set.range (fun i : Fin 8 => c.dataLine.get i) := by
  simp only [Config.slotOk, Bool.and_eq_true, decide_eq_true_eq, List.all_eq_true, List.contains_iff_mem,
    nodup_toList_iff_injective, range_get_eq_iff, and_assoc]

/-- R9(a), R9(b) and R9(e): the named lines being distinct, the two maps among them are injective. -/
theorem Config.linesOk_iff (c : Config) :
    c.linesOk = true ↔ Function.Injective (fun i : Fin 14 => c.addrLine.get i) ∧
      Function.Injective (fun i : Fin 8 => c.dataLine.get i) ∧
      c.namedLines.Nodup ∧ ∀ l ∈ c.namedLines, l < c.w := by
  simp only [Config.linesOk, Bool.and_eq_true, decide_eq_true_eq, List.all_eq_true, ← nodup_toList_iff_injective]
  refine ⟨fun ⟨hd, hw⟩ => ?_, fun ⟨_, _, hd, hw⟩ => ⟨hd, hw⟩⟩
  have hmaps : (c.addrLine.toList ++ c.dataLine.toList).Nodup := by
    refine hd.sublist ?_
    simp only [Config.namedLines, List.append_assoc]
    simp
  exact ⟨hmaps.of_append_left, hmaps.of_append_right, hd, hw⟩

/-- R9(h). -/
theorem Config.trigOk_iff (c : Config) :
    c.trigOk = true ↔ (∀ e ∈ c.trigTable, e.2 < c.n) ∧ (c.trigTable.map Prod.fst).Nodup := by
  simp only [Config.trigOk, Bool.and_eq_true, decide_eq_true_eq, List.all_eq_true]

/-- The ranges R8 gives the label. -/
theorem Config.labelOk_iff (c : Config) :
    c.labelOk = true ↔ 1 ≤ c.labelLen ∧ c.labelOffset + c.labelLen ≤ 16384 ∧
      c.labelPatch.length = c.n ∧ ∀ p ∈ c.labelPatch, p.length = c.labelLen := by
  simp only [Config.labelOk, imageSize_eq, Bool.and_eq_true, decide_eq_true_eq, List.all_eq_true, and_assoc]

/-- R9(i) and the ranges R8 gives the counts. -/
theorem Config.countsOk_iff (c : Config) :
    c.countsOk = true ↔ 2 ≤ c.q ∧ 1 ≤ c.n ∧ 1 ≤ c.settleDelay ∧ 1 ≤ c.labelDisplay ∧ 1 ≤ c.resetHold ∧
      1 ≤ c.pulseWidth ∧ c.pulseWidth < c.pulsePeriod := by
  simp only [Config.countsOk, Bool.and_eq_true, decide_eq_true_eq, and_assoc]
  exact and_left_comm

/-- R9(g). -/
theorem Config.variantOk_iff (c : Config) :
    c.variantOk = true ↔ (c.switchVariant = .twoPhase → c.switchSource = .button) :=
  decide_eq_true_iff

/-- A configuration is admitted exactly when each of its seven checks holds. -/
theorem Config.admitted_iff (c : Config) :
    c.admitted = true ↔ c.packOk = true ∧ c.slotOk = true ∧ c.linesOk = true ∧ c.trigOk = true ∧
      c.labelOk = true ∧ c.countsOk = true ∧ c.variantOk = true := by
  simp only [Config.admitted, Bool.and_eq_true, and_assoc]

namespace Machine

/-- R9: a step in any other configuration is refused. -/
theorem step_of_not_admitted {s : State} (h : s.cfg.admitted = false) : step s = .refused .illFormedConfig := by
  simp [step, h]

/-- `AIT.BUILD` is refused in any other configuration (95 section 3.1). -/
theorem exec_aitBuild_of_not_admitted {s : State} (h : s.cfg.admitted = false) :
    exec .aitBuild s = .refused .illFormedConfig := by
  simp [exec, execAitBuild, h]

/-- Settles O8: `Config.admitted` is the conjunction of R9's clauses, check by check. -/
theorem admittedConfigurations : Obligations.AdmittedConfigurations := by
  unfold Obligations.AdmittedConfigurations
  refine fun c => ⟨?_, ?_⟩
  · rw [c.admitted_iff, c.packOk_iff, c.slotOk_iff, c.linesOk_iff, c.trigOk_iff, c.labelOk_iff, c.countsOk_iff,
      c.variantOk_iff]
    tauto
  · rintro h s rfl
    exact ⟨step_of_not_admitted h, exec_aitBuild_of_not_admitted h⟩

end Machine

end Sys2Proof
end

section
/-!
SUPPORT. One turn: what a step does when its agent has an operation to perform (spec/00_scope.md R14).
-/

namespace Sys2Proof.Machine

/-- A step whose agent forms a selector that decodes performs the operation (R81). -/
theorem step_eq_exec {s : State} {w : Selector} {i : Instr} (ha : s.cfg.admitted = true)
    (hw : selectorOf s.takeTurn s.nextTurn.agent = some w) (hd : decode w = .ok i) :
    step s = exec i (s.takeTurn.passBoot s.nextTurn.agent) := by
  simp [step, ha, hw, hd]

/-- STARTUP alone moves the boot order on (R100). -/
theorem passBoot_of_ne_startup {s : State} {g : Agent} (h : g ≠ .startup) : s.passBoot g = s := by
  cases g with
  | startup => exact absurd rfl h
  | engine | switch | ipg | host => rfl

/-- The next turn is the oldest listed one. -/
theorem nextTurn_of_sched_cons {s : State} {u : Turn} {us : List Turn} (h : s.sched = u :: us) :
    s.nextTurn = u := by
  simp [State.nextTurn, h]

/-- With no turn listed the next one is the free value (log 6). -/
theorem nextTurn_of_sched_nil {s : State} (h : s.sched = []) : s.nextTurn = Config.hostTurn s.turnNo := by
  simp [State.nextTurn, h]

/-- Settles O6. -/
theorem stepRunsDecodedOperation : Obligations.StepRunsDecodedOperation := by
  unfold Obligations.StepRunsDecodedOperation
  intro s w i ha hw hd
  exact ⟨step_eq_exec ha hw hd, rfl, passBoot_of_ne_startup, rfl, fun _ _ => nextTurn_of_sched_cons,
    nextTurn_of_sched_nil⟩

end Sys2Proof.Machine
end

section
/-!
SUPPORT. Which lines reach an operation (spec/00_scope.md R13, spec/30_encoding.md R71, R83): two words of levels that
agree on the lines the build reads form the same selectors and lead to the same results, but for `SNAP`.
-/

namespace Sys2Proof.Machine

/-- The two words of levels agree on every line an agent of the build reads. -/
def AgreeOnRead (c : Config) (l m : Nat) : Prop := ∀ x ∈ readLines c, wordLevel c l x = wordLevel c m x

section
variable {s : State} {l m : Nat}

theorem AgreeOnRead.strobe_eq (h : AgreeOnRead s.cfg l m) :
    level { s with lines := l } s.cfg.lRd = level { s with lines := m } s.cfg.lRd :=
  h _ (by simp [readLines])

theorem AgreeOnRead.weLevel_eq (h : AgreeOnRead s.cfg l m) :
    weLevel { s with lines := l } = weLevel { s with lines := m } := by
  unfold weLevel
  dsimp only
  split
  · exact h _ (by simp [readLines, *])
  · rfl

theorem AgreeOnRead.btn_eq (h : AgreeOnRead s.cfg l m) (hb : s.cfg.switchSource = .button) :
    btn { s with lines := l } = btn { s with lines := m } :=
  h _ (by simp [readLines, hb])

theorem AgreeOnRead.intIn_eq (h : AgreeOnRead s.cfg l m) (hi : s.cfg.ipgVariant = .autonomous) :
    intIn { s with lines := l } = intIn { s with lines := m } :=
  h _ (by simp [readLines, hi])

/-- The packed pattern is read off the address lines only (R92), by R9(c). -/
theorem AgreeOnRead.pack_eq (h : AgreeOnRead s.cfg l m) (ha : s.cfg.Admits) :
    pack s.cfg (sample { s with lines := l }) = pack s.cfg (sample { s with lines := m }) := by
  refine BitVec.eq_of_getLsbD_eq fun k hk => ?_
  have hmem : s.cfg.packPos.toList.getD k 0 ∈ s.cfg.addrLine.toList :=
    (ha.pack_mem _).1 (getD_mem (by simpa using hk))
  have hbit := h _ (by simp only [readLines, List.append_assoc]; exact List.mem_append_left _ hmem)
  simp only [getLsbD_pack, hk, decide_true, Bool.true_and]
  exact hbit

/-- R83: each agent forms the same selector from both words. -/
theorem AgreeOnRead.selectorOf_eq (h : AgreeOnRead s.cfg l m) (g : Agent) :
    selectorOf { s with lines := l } g = selectorOf { s with lines := m } g := by
  cases g with
  | startup | host => rfl
  | engine => simp only [selectorOf, engSelector, h.strobe_eq, h.weLevel_eq]
  | switch =>
    by_cases hb : s.cfg.switchSource = .button
    · have hx : swExpiry { s with lines := l } = swExpiry { s with lines := m } := rfl
      simp only [selectorOf, swfSelector, variantBit, h.btn_eq hb, hx]
    · simp [selectorOf, hb]
  | ipg =>
    by_cases hi : s.cfg.ipgVariant = .autonomous
    · have hx : widthDone { s with lines := l } = widthDone { s with lines := m } := rfl
      simp only [selectorOf, ipgSelector, syncSeen, h.intIn_eq hi, hx]
    · simp [selectorOf, hi]

end

/-- A selector decodes to an operation of its own format (R81). -/
theorem format_of_decode {w : Selector} {i : Instr} (h : decode w = .ok i) : (rowOf i).format = Laws.formatOf w := by
  cases w with
  | boot w => simp only [decode, decodeBoot] at h; split_ifs at h <;> cases h <;> rfl
  | eng w => simp only [decode, decodeEng] at h; split_ifs at h <;> cases h <;> rfl
  | swf w => simp only [decode, decodeSwf] at h; split_ifs at h <;> cases h <;> rfl
  | ipg w => simp only [decode, decodeIpg] at h; split_ifs at h <;> cases h <;> rfl

/-- An agent forms selectors of one format. -/
theorem agent_of_selectorOf {s : State} {g : Agent} {w : Selector} (h : selectorOf s g = some w) :
    Selector.agent w = g := by
  cases g with
  | startup => obtain ⟨o, -, rfl⟩ := Option.map_eq_some_iff.1 h; rfl
  | engine | switch | ipg => simp only [selectorOf] at h; split at h <;> cases h; rfl
  | host => cases h

/-- An operation of IPG is performed in the autonomous variant only (file 43, opening). -/
theorem autonomous_of_performs {s : State} {g : Agent} {i : Instr} (h : Performs g s i)
    (hf : (rowOf i).format = .ipg) : s.cfg.ipgVariant = .autonomous := by
  obtain ⟨w, hw, hd⟩ := h
  rw [format_of_decode hd] at hf
  obtain rfl : g = .ipg := by
    rw [← agent_of_selectorOf hw]
    cases w with
    | ipg w => rfl
    | boot w | eng w | swf w => cases hf
  by_contra hne
  simp [selectorOf, hne] at hw

/-- A serve that finds a byte drives it (R114). -/
theorem execBreServe_of_fetchByte {s : State} {a : Addr} {b : Byte} (ha : lookup s (pack s.cfg (sample s)) = a)
    (hb : fetchByte s (serveSlot s a) a = .ok b) : execBreServe s = .next (served s a b) := by
  simp [execBreServe, ha, hb]

/-- R13, R83: an operation has the same result from both words, but for the lines themselves and `SNAP`. -/
theorem AgreeOnRead.exec_next {s t : State} {l m : Nat} {i : Instr} (h : AgreeOnRead s.cfg l m) (ha : s.cfg.Admits)
    (hi : (rowOf i).format = .ipg → s.cfg.ipgVariant = .autonomous)
    (ht : exec i { s with lines := l } = .next t) :
    ∃ u, exec i { s with lines := m } = .next u ∧ t = { u with lines := l, snap := t.snap } := by
  cases i
  case breServe =>
    obtain ⟨b, hb, he⟩ | ⟨f, he⟩ := execBreServe_cases { s with lines := l }
    · obtain rfl := Host.Outcome.next.inj (he.symm.trans ht)
      have hp := h.pack_eq ha
      exact ⟨_, execBreServe_of_fetchByte (s := { s with lines := m }) (by rw [← hp]; rfl) hb,
        by simp only [served, hp]; rfl⟩
    · exact nomatch he.symm.trans ht
  case aitBuild =>
    simp only [exec, execAitBuild] at ht ⊢
    split at ht
    · rw [if_pos ‹_›]; cases ht; exact ⟨_, rfl, rfl⟩
    · cases ht
  case ipgStart =>
    simp only [exec, execIpgStart] at ht ⊢
    split at ht
    · rw [if_pos ‹_›, ← h.intIn_eq ‹_›]; cases ht; exact ⟨_, rfl, rfl⟩
    · rw [if_neg ‹_›]; cases ht; exact ⟨_, rfl, rfl⟩
  case ipgWait | ipgSync | ipgHold | ipgEnd =>
    simp only [exec, execIpgWait, execIpgSync, execIpgHold, execIpgEnd] at ht ⊢
    rw [← h.intIn_eq (hi rfl)]; cases ht; exact ⟨_, rfl, rfl⟩
  all_goals (cases ht; exact ⟨_, rfl, rfl⟩)

/-- Settles O47: the selector by the lines each of its bits samples, the result operation by operation. -/
theorem unreadLinesDoNotMatter : Obligations.UnreadLinesDoNotMatter := by
  unfold Obligations.UnreadLinesDoNotMatter
  intro s g l m ha hagree
  have h : AgreeOnRead s.cfg l m := hagree
  refine ⟨h.selectorOf_eq g, fun i t hp ht => ?_⟩
  exact h.exec_next (Config.admits_of_admitted ha) (autonomous_of_performs (s := { s with lines := l }) hp) ht

end Sys2Proof.Machine
end

section
/-!
SUPPORT. STARTUP keeps the invariant (spec/40_line_maps_and_tables.md R94 to R102): the table S1 builds is the inverse
permutation, S2 converts each bank once, S3 starts steady operation, S4 and S5 launch.
-/

namespace Sys2Proof.Machine

/-- No operation writes the configuration (R84) or the boot order (R100). -/
theorem exec_cfg_boot {i : Instr} {s t : State} (h : exec i s = .next t) : t.cfg = s.cfg ∧ t.boot = s.boot := by
  cases i
  case aitBuild => simp only [exec, execAitBuild] at h; split at h <;> cases h; exact ⟨rfl, rfl⟩
  case ipgStart => simp only [exec, execIpgStart] at h; split at h <;> cases h <;> exact ⟨rfl, rfl⟩
  case breServe =>
    obtain ⟨b, -, he⟩ | ⟨f, he⟩ := execBreServe_cases s
    · obtain rfl := Host.Outcome.next.inj (he.symm.trans h)
      exact ⟨rfl, rfl⟩
    · exact nomatch he.symm.trans h
  all_goals (cases h; exact ⟨rfl, rfl⟩)

/-- R97: the closed form of the table at the packed pattern of an address is that address. -/
theorem aitEntry_pack_scatter {c : Config} (hc : c.Admits) (a : Addr) : aitEntry c (pack c (scatter c a)) = a := by
  refine BitVec.eq_of_getLsbD_eq fun i hi => ?_
  have hlen : i < c.addrLine.toList.length := by simpa using hi
  have haddr : c.addrLine.toList.getD i 0 ∈ c.addrLine.toList := getD_mem hlen
  have hpack := (hc.pack_mem _).2 haddr
  have hk : c.packPos.toList.idxOf (c.addrLine.toList.getD i 0) < 14 := by
    simpa using List.idxOf_lt_length_iff.2 hpack
  have hw : c.addrLine.toList.getD i 0 < c.w := hc.named_lt _ (by
    simp only [Config.namedLines, List.append_assoc]; exact List.mem_append_left _ haddr)
  rw [getLsbD_aitEntry, getLsbD_pack, getLsbD_scatter, getD_idxOf hpack, idxOf_getD hc.addr_nodup hlen]
  simp only [hi, hk, hw, decide_true, Bool.true_and]

/-- R95: every packed pattern is that of the address the closed form gives it. -/
theorem pack_scatter_aitEntry {c : Config} (hc : c.Admits) (r : Packed) : pack c (scatter c (aitEntry c r)) = r := by
  refine BitVec.eq_of_getLsbD_eq fun k hk => ?_
  have hlen : k < c.packPos.toList.length := by simpa using hk
  have hpack : c.packPos.toList.getD k 0 ∈ c.packPos.toList := getD_mem hlen
  have haddr := (hc.pack_mem _).1 hpack
  have hi : c.addrLine.toList.idxOf (c.packPos.toList.getD k 0) < 14 := by
    simpa using List.idxOf_lt_length_iff.2 haddr
  have hw : c.packPos.toList.getD k 0 < c.w := hc.named_lt _ (by
    simp only [Config.namedLines, List.append_assoc]; exact List.mem_append_left _ haddr)
  rw [getLsbD_pack, getLsbD_scatter, getLsbD_aitEntry, getD_idxOf haddr, idxOf_getD hc.pack_nodup hlen]
  simp only [hk, hi, hw, decide_true, Bool.true_and]

/-- What the first n turns of the loop of `AIT.BUILD` leave: the entries of the first n addresses (R94). -/
theorem read_buildTable {c : Config} (hc : c.Admits) (m : TableMem) {n : Nat} {r : Packed}
    (h : (aitEntry c r).toNat < n) :
    Memory.read (aitUnlisted c) (buildTable c n m) r.toNat = some (aitEntry c r) := by
  induction n with
  | zero => exact absurd h (Nat.not_lt_zero _)
  | succ n ih =>
    rw [buildTable, Memory.read_write]
    by_cases hr : r = pack c (scatter c (BitVec.ofNat 14 n))
    · rw [if_pos (by rw [← hr]), hr, aitEntry_pack_scatter hc]
    · have hne : (aitEntry c r).toNat ≠ n := fun e => hr (by
        rw [← e, BitVec.ofNat_toNat, BitVec.setWidth_eq, pack_scatter_aitEntry hc])
      rw [if_neg (fun e => hr (BitVec.eq_of_toNat_eq e)), ih (by omega)]

/-- R94, R97: from any contents, `AIT.BUILD` leaves the closed form. -/
theorem lookup_buildTable {s : State} (hc : s.cfg.Admits) (r : Packed) :
    lookup { s with ait := buildTable s.cfg imageSize s.ait } r = aitEntry s.cfg r := by
  rw [lookup, read_buildTable hc _ (toNat_lt_imageSize _)]
  rfl

/-- R99: `ROM.PRECONV` converts every byte of every bank. -/
theorem imgRead_preconvBanks {s : State} {b : Nat} (hb : b < s.cfg.n) (a : Addr) :
    imgRead { s with img := preconvBanks s.cfg s.cfg.n s.img } b a = (imgRead s b a).map (preconv s.cfg) := by
  have ha := toNat_lt_imageSize a
  have hin : imgAddr b a.toNat < imageSize * s.cfg.n := by
    rw [imageSize_eq] at *
    simp only [imgAddr, imageSize_eq]
    omega
  simp only [imgRead, read_preconvBanks, if_pos hin]

/-- The invariant says nothing of the lines, the listed turns or their number. -/
theorem Inv.withTurns {s : State} (h : Inv s) (l : Nat) (us : List Turn) (k : Nat) :
    Inv { s with lines := l, sched := us, turnNo := k } :=
  { h with steady := fun hi => { h.steady hi with } }

theorem Inv.takeTurn {s : State} (h : Inv s) : Inv s.takeTurn := h.withTurns _ _ _

/-- The contents of the banks, by whether S2 is still to come (R39, R99). -/
theorem Inv.images_of {s : State} (h : Inv s) {logical : Bool} (hl : s.boot.logicalImages = logical) :
    ∀ b < s.cfg.n, ∀ a, imgRead s b a =
      some (if logical then romLogical s.cfg b a else preconv s.cfg (romLogical s.cfg b a)) :=
  hl ▸ h.images

/-- S1. -/
theorem Inv.aitBuild {s : State} (h : Inv s) (hb : s.boot = .s1) :
    Inv { s with boot := .s2, ait := buildTable s.cfg imageSize s.ait } :=
  { h with
    table_wf := buildTable_wf h.table_wf
    live := by simp [h.live, hb, BootStep.engineLive]
    table := fun _ r => lookup_buildTable (Config.admits_of_admitted h.admitted) r
    images := h.images_of (by rw [hb]; rfl)
    stopped := fun _ => h.stopped (.inl (by simp [hb]))
    launched := nofun
    steady := nofun }

/-- S2. -/
theorem Inv.romPreconv {s : State} (h : Inv s) (hb : s.boot = .s2) :
    Inv { s with boot := .s3, img := preconvBanks s.cfg s.cfg.n s.img } :=
  { h with
    images_wf := preconvBanks_wf (Nat.mul_le_mul_left _ (n_le_slotCount _)) h.images_wf
    live := by simp [h.live, hb, BootStep.engineLive]
    table := fun _ => h.table (by simp [hb])
    images := fun b hn a =>
      (imgRead_preconvBanks (s := s) hn a).trans
        (congrArg (Option.map _) (h.images_of (logical := true) (by rw [hb]; rfl) b hn a))
    stopped := fun _ => h.stopped (.inl (by simp [hb]))
    launched := nofun
    steady := nofun }

/-- The registers `CORE.INIT` leaves meet the invariant of steady operation (R39, R40, R101). -/
theorem steady_coreInit {s : State} (h : Inv s) (b : BootStep) :
    Steady { s with
      boot := b, curImg := 0, engState := .waiting, nmiPrev := false, resetOut := false, nmiOut := true
      swState := .idle, btnState := .released, dbCnt := 0, tmrArmed := false, ipgState := .stopped, wCnt := 0 } :=
  have hc := Config.admits_of_admitted h.admitted
  { curImg_le := Nat.zero_le _
    label_only := fun h0 => absurd h0 (Nat.ne_of_lt hc.n_pos)
    label_shown := fun _ => nofun
    timer_armed := rfl
    timer_due := nofun
    reset_held := rfl
    button_pressed := ⟨nofun, nofun⟩
    counting := nofun
    not_counting := fun _ => rfl
    pulse_autonomous := fun _ => ⟨nofun, nofun⟩
    pulse_inline := fun _ => ⟨nofun, nofun⟩
    pulse_none := fun _ => rfl
    width_range := hc.width_pos
    skip_only_we := nofun
    no_switch := fun _ => rfl
    two_phase_only := by simp }

/-- S3. -/
theorem Inv.coreInit {s : State} (h : Inv s) (hb : s.boot = .s3) :
    Inv { s with
      boot := .s4, curImg := 0, engState := .waiting, nmiPrev := false, resetOut := false, nmiOut := true
      swState := .idle, btnState := .released, dbCnt := 0, tmrArmed := false, ipgState := .stopped, wCnt := 0 } :=
  { h with
    live := by simp [h.live, hb, BootStep.engineLive]
    table := fun _ => h.table (by simp [hb])
    images := h.images_of (by rw [hb]; rfl)
    stopped := fun _ => rfl
    launched := nofun
    steady := fun _ => steady_coreInit h _ }

/-- S4. -/
theorem Inv.engLaunch {s : State} (h : Inv s) (hb : s.boot = .s4) : Inv { s with boot := .s5, engLive := true } :=
  { h with
    live := rfl
    table := fun _ => h.table (by simp [hb])
    images := h.images_of (by rw [hb]; rfl)
    stopped := fun _ => h.stopped (.inl (by simp [hb]))
    launched := nofun
    steady := fun _ => { h.steady (by simp [hb, BootStep.initialised]) with } }

/-- S5 in the autonomous variant launches the generator (R172). -/
theorem Inv.ipgStart_autonomous {s : State} (h : Inv s) (hb : s.boot = .s5) (ha : s.cfg.ipgVariant = .autonomous)
    (p : Bool) :
    Inv { s with
      boot := .done, nmiOut := true, wCnt := 0, intPrev := p, ipgState := .armed
      pulseTiming := some ⟨s.cfg.pulsePeriod, s.cfg.pulseWidth⟩ } :=
  { h with
    live := by simp [h.live, hb, BootStep.engineLive]
    table := fun _ => h.table (by simp [hb])
    images := h.images_of (by rw [hb]; rfl)
    stopped := fun hn => hn.elim (absurd rfl) (absurd ha)
    launched := fun _ _ => ⟨nofun, rfl⟩
    steady := fun _ => { h.steady (by simp [hb, BootStep.initialised]) with
      pulse_autonomous := fun _ => ⟨nofun, nofun⟩
      pulse_inline := by simp [ha]
      pulse_none := fun _ => rfl
      width_range := (Config.admits_of_admitted h.admitted).width_pos } }

/-- S5 in the other variants. -/
theorem Inv.ipgStart_other {s : State} (h : Inv s) (hb : s.boot = .s5) (ha : s.cfg.ipgVariant ≠ .autonomous) :
    Inv { s with boot := .done } :=
  { h with
    live := by simp [h.live, hb, BootStep.engineLive]
    table := fun _ => h.table (by simp [hb])
    images := h.images_of (by rw [hb]; rfl)
    stopped := fun _ => h.stopped (.inl (by simp [hb]))
    launched := fun _ hn => absurd hn ha
    steady := fun _ => { h.steady (by simp [hb, BootStep.initialised]) with } }

/-- The operation STARTUP performs is that of its next boot step, which keeps the invariant. -/
theorem Inv.startup_performs {s : State} (h : Inv s) {w : Selector} (hw : selectorOf s .startup = some w) :
    ∃ i t, decode w = .ok i ∧ exec i (s.passBoot .startup) = .next t ∧ Inv t := by
  simp only [selectorOf] at hw
  simp only [State.passBoot]
  cases hb : s.boot <;> simp only [hb, BootStep.ordinal, Option.map_some, Option.map_none, Option.some.injEq,
    reduceCtorEq] at hw <;> subst hw <;> simp only [BootStep.succ]
  case s1 => exact ⟨.aitBuild, _, rfl, if_pos h.admitted, h.aitBuild hb⟩
  case s2 => exact ⟨.romPreconv, _, rfl, rfl, h.romPreconv hb⟩
  case s3 => exact ⟨.coreInit, _, rfl, rfl, h.coreInit hb⟩
  case s4 => exact ⟨.engLaunch, _, rfl, rfl, h.engLaunch hb⟩
  case s5 =>
    by_cases ha : s.cfg.ipgVariant = .autonomous
    · exact ⟨.ipgStart, _, rfl, if_pos ha, h.ipgStart_autonomous hb ha _⟩
    · exact ⟨.ipgStart, _, rfl, if_neg ha, h.ipgStart_other hb ha⟩

end Sys2Proof.Machine
end

section
/-!
SUPPORT. ENGINE keeps the invariant and never faults (spec/41_bus_response_engine.md R112 to R122): every slot it
serves from exists and holds a byte at every address.
-/

namespace Sys2Proof.Machine

/-- With the address trigger the selector is always a bank (R122): the label slot needs the button (R9(g)). -/
theorem Steady.curImg_lt_of_address {s : State} (hs : Steady s) (hc : s.cfg.Admits)
    (ha : s.cfg.switchSource = .address) : s.curImg < s.cfg.n :=
  Nat.lt_of_le_of_ne hs.curImg_le fun hn => by
    have hb := hc.two_phase (hs.label_only hn).1
    exact nomatch ha.symm.trans hb

/-- All the selector can be after a serve: as it was, or, with the address trigger, a bank (R122). -/
theorem Steady.servedImg_cases {s : State} (hs : Steady s) (hc : s.cfg.Admits) (a : Addr) :
    servedImg s a = s.curImg ∨ servedImg s a < s.cfg.n := by
  cases hsrc : s.cfg.switchSource with
  | button => exact .inl (servedImg_button hsrc a)
  | address =>
    rw [servedImg_address hsrc]
    exact .inr (trig_lt hc (hs.curImg_lt_of_address hc hsrc))

/-- A serve reads the selected slot, or a bank the trigger has just selected (R114). -/
theorem Steady.serveSlot_cases {s : State} (hs : Steady s) (hc : s.cfg.Admits) (a : Addr) :
    serveSlot s a = s.curImg ∨ serveSlot s a < s.cfg.n := by
  unfold serveSlot
  split
  · rename_i hsw
    exact .inr (trig_lt hc (hs.curImg_lt_of_address hc hsw.1))
  · exact .inl rfl

/-- Every byte of a bank and of the selected slot can be fetched (R56, R190). -/
theorem Inv.fetchByte_ok {s : State} (h : Inv s) (hs : Steady s) {i : Nat} (hi : i = s.curImg ∨ i < s.cfg.n)
    (a : Addr) : ∃ b, fetchByte s i a = .ok b := by
  by_cases hbank : i < s.cfg.n
  · exact ⟨_, fetchByte_of_read (Nat.lt_of_lt_of_le hbank (n_le_slotCount _)) (h.images i hbank a)⟩
  · obtain rfl := hi.resolve_right hbank
    have hlabel : s.curImg = s.cfg.n := Nat.le_antisymm hs.curImg_le (Nat.le_of_not_lt hbank)
    obtain ⟨h2, hmay⟩ := hs.label_only hlabel
    obtain ⟨-, -, hread⟩ := hs.label_shown h2 hmay
    rw [hlabel]
    exact ⟨_, fetchByte_of_read (by simp [slotCount, h2]) (hread a)⟩

/-- The operations of ENGINE other than the serve keep the invariant; only a build with `HAS_WE` skips (R25). -/
theorem Inv.engineTo {s : State} (h : Inv s) {e : EngState} (he : e = .skipping → s.cfg.hasWe = true) :
    Inv (engineTo s e) :=
  { h with
    snap_width := (sample s).isLt
    steady := fun hi => { h.steady hi with skip_only_we := he } }

/-- R121: the inline pulse keeps `NMI_OUT` low exactly while `NMI_PREV` is set. -/
theorem inlinePulse_iff {s : State} (h : s.nmiOut = false ↔ s.nmiPrev = true) (a : Addr) :
    (inlinePulse s a).1 = false ↔ (inlinePulse s a).2 = true := by
  obtain ⟨-, he⟩ | ⟨-, -, he⟩ | ⟨hp, -, he⟩ := inlinePulse_cases s a
  · simp [he]
  · simp [he]
  · simp [he, h, hp]

/-- A serve keeps the invariant of steady operation. -/
theorem Steady.serve {s : State} (hs : Steady s) (hc : s.cfg.Admits) (a : Addr) (b : Byte) :
    Steady (served s a b) :=
  { hs with
    curImg_le := by
      obtain he | hlt := hs.servedImg_cases hc a
      · exact Nat.le_trans (Nat.le_of_eq he) hs.curImg_le
      · exact Nat.le_of_lt hlt
    label_only := fun hn => by
      obtain he | hlt := hs.servedImg_cases hc a
      · exact hs.label_only (he.symm.trans hn)
      · exact absurd hn (Nat.ne_of_lt hlt)
    label_shown := fun h2 hmay => by
      obtain ⟨hcur, hrest⟩ := hs.label_shown h2 hmay
      exact ⟨(servedImg_button (hc.two_phase h2) a).trans hcur, hrest⟩
    pulse_autonomous := fun (hv : s.cfg.ipgVariant = .autonomous) => by
      have hp := servedPulse_of_ne (s := s) (by simp [hv]) a
      exact (congrArg (·.1 = false) hp).to_iff.trans (hs.pulse_autonomous hv)
    pulse_inline := fun hv => by
      have hp : servedPulse s a = inlinePulse s a := if_pos hv
      simpa only [served_nmiOut, served_nmiPrev, hp] using inlinePulse_iff (hs.pulse_inline hv) a
    pulse_none := fun (hv : s.cfg.ipgVariant = .none) => by
      have hp := servedPulse_of_ne (s := s) (by simp [hv]) a
      exact (congrArg (·.1) hp).trans (hs.pulse_none hv)
    skip_only_we := nofun }

/-- A serve finds its byte, and keeps the invariant. -/
theorem Inv.serve {s : State} (h : Inv s) (hs : Steady s) : ∃ t, execBreServe s = .next t ∧ Inv t := by
  have hc := Config.admits_of_admitted h.admitted
  obtain ⟨b, hb⟩ := h.fetchByte_ok hs (hs.serveSlot_cases hc (lookup s (pack s.cfg (sample s)))) _
  exact ⟨_, execBreServe_of_fetchByte rfl hb,
    { h with snap_width := (sample s).isLt, steady := fun _ => hs.serve hc _ b }⟩

/-- `we` is formed as 0 only in a build with `HAS_WE` (R76). -/
theorem hasWe_of_weLevel {s : State} (h : weLevel s = false) : s.cfg.hasWe = true := by
  by_contra hn
  simp [weLevel, hn] at h

/-- ENGINE steps only after `CORE.INIT` (R100, R102). -/
theorem Inv.initialised_of_engLive {s : State} (h : Inv s) (hl : s.engLive = true) : s.boot.initialised = true := by
  have hb := h.live.symm.trans hl
  cases hboot : s.boot <;> simp_all [BootStep.engineLive, BootStep.initialised]

/-- Whatever ENGINE samples, it performs one operation, which keeps the invariant. -/
theorem Inv.engineOp_next {s : State} (h : Inv s) (hl : s.engLive = true) :
    ∃ t, exec (engineOp s.engState (level s s.cfg.lRd) (weLevel s)) s = .next t ∧ Inv t := by
  have hs := h.steady (h.initialised_of_engLive hl)
  cases he : s.engState <;> cases level s s.cfg.lRd
  case waiting.true => exact ⟨_, rfl, h.engineTo nofun⟩
  case waiting.false =>
    cases hw : weLevel s with
    | true => exact h.serve hs
    | false => exact ⟨_, rfl, h.engineTo fun _ => hasWe_of_weLevel hw⟩
  case driving.true => exact ⟨_, rfl, h.engineTo nofun⟩
  case driving.false => exact ⟨_, rfl, h.engineTo nofun⟩
  case skipping.true => exact ⟨_, rfl, h.engineTo nofun⟩
  case skipping.false => exact ⟨_, rfl, h.engineTo fun _ => hs.skip_only_we he⟩

theorem Inv.engine_performs {s : State} (h : Inv s) {w : Selector} (hw : selectorOf s .engine = some w) :
    ∃ i t, decode w = .ok i ∧ exec i (s.passBoot .engine) = .next t ∧ Inv t := by
  simp only [selectorOf] at hw
  split at hw
  · cases hw
    obtain ⟨t, ht, hinv⟩ := h.engineOp_next ‹_›
    exact ⟨_, t, decode_engSelector s, ht, hinv⟩
  · cases hw

end Sys2Proof.Machine
end

section
/-!
SUPPORT. IPG keeps the invariant (spec/43_interrupt_pulse.md R174 to R178).
-/

namespace Sys2Proof.Machine

/-- Once launched, the generator may go to `Armed` or `Asserted` with the output that belongs to the state and a count
in its range (R40(f), R204(c)). -/
theorem Inv.ipgTo {s : State} (h : Inv s) (hb : s.boot = .done) (ha : s.cfg.ipgVariant = .autonomous)
    {st : IpgState} {out p : Bool} {k : Nat} (hst : st ≠ .stopped) (hout : out = false ↔ st = .asserted)
    (hk : k < s.cfg.pulseWidth) : Inv { s with nmiOut := out, wCnt := k, intPrev := p, ipgState := st } :=
  { h with
    stopped := fun hn => hn.elim (absurd hb) (absurd ha)
    launched := fun _ _ => ⟨hst, (h.launched hb ha).2⟩
    steady := fun hi => { h.steady hi with
      pulse_autonomous := fun _ => hout
      pulse_inline := by simp [ha]
      pulse_none := by simp [ha]
      width_range := hk } }

/-- Whatever IPG samples, it performs one operation, which keeps the invariant. -/
theorem Inv.ipgOp_next {s : State} (h : Inv s) (ha : s.cfg.ipgVariant = .autonomous) :
    ∃ t, exec (ipgOp s.ipgState (syncSeen s) (widthDone s)) s = .next t ∧ Inv t := by
  by_cases hb : s.boot = .done
  · have hs := h.steady (by rw [hb]; rfl)
    have hpos := (Config.admits_of_admitted h.admitted).width_pos
    have hout := hs.pulse_autonomous ha
    cases hst : s.ipgState
    case stopped => exact absurd hst (h.launched hb ha).1
    case armed =>
      rw [hst] at hout
      cases syncSeen s
      case false => exact ⟨_, rfl, h.ipgTo hb ha nofun (hout.trans ⟨nofun, nofun⟩) hs.width_range⟩
      case true => exact ⟨_, rfl, h.ipgTo hb ha nofun (by simp) hpos⟩
    case asserted =>
      rw [hst] at hout
      cases hx : widthDone s
      case false =>
        have hk : s.wCnt + 1 < s.cfg.pulseWidth := Nat.lt_of_not_le (of_decide_eq_false hx)
        exact ⟨_, rfl, h.ipgTo hb ha nofun hout hk⟩
      case true => exact ⟨_, rfl, h.ipgTo hb ha nofun (by simp) hpos⟩
  · rw [h.stopped (.inl hb)]
    exact ⟨s, rfl, h⟩

theorem Inv.ipg_performs {s : State} (h : Inv s) {w : Selector} (hw : selectorOf s .ipg = some w) :
    ∃ i t, decode w = .ok i ∧ exec i (s.passBoot .ipg) = .next t ∧ Inv t := by
  simp only [selectorOf] at hw
  split at hw
  · cases hw
    obtain ⟨t, ht, hinv⟩ := h.ipgOp_next ‹_›
    exact ⟨_, t, decode_ipgSelector s, ht, hinv⟩
  · cases hw

end Sys2Proof.Machine
end

section
/-!
SUPPORT. SWITCH keeps the invariant (spec/42_switch_fsm.md R142 to R156): one lemma for each transition, naming the
clauses of R40 it has to restore.
-/

namespace Sys2Proof.Machine

/-- The bank after this one is a bank (R80 (f)). -/
theorem nextBank_lt {c : Config} (hc : c.Admits) (b : Nat) : nextBank c b < c.n := Nat.mod_lt _ hc.n_pos

/-- Outside the states that show the label the selector is a bank (R40(a)). -/
theorem Steady.curImg_lt {s : State} (hs : Steady s) (h : s.swState.mayLabel = false) : s.curImg < s.cfg.n :=
  Nat.lt_of_le_of_ne hs.curImg_le fun hn => by
    have hmay := (hs.label_only hn).2
    simp [h] at hmay

/-- In the immediate variant the selector is always a bank (R40(a)). -/
theorem Steady.curImg_lt_of_immediate {s : State} (hs : Steady s) (h : s.cfg.switchVariant ≠ .twoPhase) :
    s.curImg < s.cfg.n :=
  Nat.lt_of_le_of_ne hs.curImg_le fun hn => h (hs.label_only hn).1

/-- `SW.DETECT`. -/
theorem Steady.swDetect {s : State} (hs : Steady s) (hc : s.cfg.Admits) (hb : s.cfg.switchSource = .button)
    (hst : s.swState = .idle) : Steady { s with dbCnt := 1, swState := .debouncing } :=
  have hcur := hs.curImg_lt (by rw [hst]; rfl)
  { hs with
    label_only := fun hn => absurd hn (Nat.ne_of_lt hcur)
    label_shown := fun _ => nofun
    timer_armed := hs.timer_armed.trans (by rw [hst]; rfl)
    timer_due := nofun
    reset_held := hs.reset_held.trans (by rw [hst]; rfl)
    button_pressed := hs.button_pressed.trans (by simp [hst])
    counting := fun _ => ⟨Nat.le_refl 1, hc.q_ge⟩
    not_counting := fun hn => absurd rfl hn
    no_switch := fun ha => nomatch hb.symm.trans ha
    two_phase_only := by simp }

/-- `SW.COUNT`: below the threshold the count may rise (R40(e)). -/
theorem Steady.swCount {s : State} (hs : Steady s) (hst : s.swState = .debouncing) (hx : swExpiry s = false) :
    Steady { s with dbCnt := s.dbCnt + 1, swState := .debouncing } := by
  have hq : s.dbCnt + 1 < s.cfg.q := by simpa [swExpiry, hst] using hx
  rw [← hst]
  exact { hs with
    counting := fun _ => ⟨Nat.le_add_left 1 _, hq⟩
    not_counting := fun hn => absurd hst hn }

/-- `SW.BOUNCE`. -/
theorem Steady.swBounce {s : State} (hs : Steady s) (hst : s.swState = .debouncing) :
    Steady { s with dbCnt := 0, swState := .idle } :=
  have hcur := hs.curImg_lt (by rw [hst]; rfl)
  { hs with
    label_only := fun hn => absurd hn (Nat.ne_of_lt hcur)
    label_shown := fun _ => nofun
    timer_armed := hs.timer_armed.trans (by rw [hst]; rfl)
    timer_due := nofun
    reset_held := hs.reset_held.trans (by rw [hst]; rfl)
    button_pressed := hs.button_pressed.trans (by simp [hst])
    counting := nofun
    not_counting := fun _ => rfl
    no_switch := fun _ => rfl
    two_phase_only := by simp }

/-- `SW.QUALIFY`: the bank advances with reset asserted (R146). -/
theorem Steady.swQualify {s : State} (hs : Steady s) (hc : s.cfg.Admits) (hb : s.cfg.switchSource = .button)
    (hv : s.cfg.switchVariant ≠ .twoPhase) (hst : s.swState = .debouncing) :
    Steady { s with
      resetOut := true, curImg := nextBank s.cfg s.curImg, btnState := .pressed, dbCnt := 0, swState := .swHold } :=
  { hs with
    curImg_le := Nat.le_of_lt (nextBank_lt hc _)
    label_only := fun hn => absurd hn (Nat.ne_of_lt (nextBank_lt hc _))
    label_shown := fun h2 => absurd h2 hv
    timer_armed := hs.timer_armed.trans (by rw [hst]; rfl)
    timer_due := nofun
    reset_held := rfl
    button_pressed := by simp
    counting := nofun
    not_counting := fun _ => rfl
    no_switch := fun ha => nomatch hb.symm.trans ha
    two_phase_only := by simp }

/-- `SW.QLABEL`: the label of the upcoming bank is complete when its slot is selected (R67, R147). -/
theorem Steady.swQlabel {s : State} (hs : Steady s) (hc : s.cfg.Admits) (hb : s.cfg.switchSource = .button)
    (hv : s.cfg.switchVariant = .twoPhase) (hst : s.swState = .debouncing) :
    Steady { s.buildLabel (nextBank s.cfg s.curImg) with
      resetOut := true, pendIdx := nextBank s.cfg s.curImg, curImg := s.cfg.n
      btnState := .pressed, dbCnt := 0, swState := .swHold } :=
  { hs with
    curImg_le := Nat.le_refl _
    label_only := fun _ => ⟨hv, rfl⟩
    label_shown := fun _ _ => ⟨rfl, nextBank_lt hc _, fun a => (imgRead_buildLabel s _ _ a).trans (if_pos rfl)⟩
    timer_armed := hs.timer_armed.trans (by rw [hst]; rfl)
    timer_due := nofun
    reset_held := rfl
    button_pressed := by simp
    counting := nofun
    not_counting := fun _ => rfl
    no_switch := fun ha => nomatch hb.symm.trans ha
    two_phase_only := by simp }

/-- `SW.UNPRESS`: the label stays shown, and the timer has the settle delay to run (R149, R150). -/
theorem Steady.swUnpress {s : State} (hs : Steady s) (hc : s.cfg.Admits) (hb : s.cfg.switchSource = .button)
    (hst : s.swState = .swHold) :
    Steady { s.arm s.cfg.settleDelay .releaseReset with btnState := .released, swState := .swSettle } :=
  have hmay : s.swState.mayLabel = true := by rw [hst]; rfl
  { hs with
    label_only := fun hn => ⟨(hs.label_only hn).1, rfl⟩
    label_shown := fun h2 _ => hs.label_shown h2 hmay
    timer_armed := rfl
    timer_due := fun _ => ⟨hc.settle_pos, rfl⟩
    reset_held := hs.reset_held.trans (by rw [hst]; rfl)
    button_pressed := by simp
    counting := nofun
    not_counting := fun _ => hs.not_counting (by simp [hst])
    no_switch := fun ha => nomatch hb.symm.trans ha
    two_phase_only := by simp }

/-- `SW.TICK`: a timer that has not expired has another tick to run (R30, R151). -/
theorem Steady.swTick {s : State} (hs : Steady s) (hx : s.tmrRem ≠ 1) : Steady { s with tmrRem := s.tmrRem - 1 } :=
  { hs with
    timer_due := fun ht => by
      obtain ⟨hpos, hact⟩ := hs.timer_due ht
      exact ⟨Nat.le_sub_one_of_lt (Nat.lt_of_le_of_ne hpos hx.symm), hact⟩ }

/-- `SW.RELEASE` and `SW.FINALREL`: from a bank selected, the host runs again (R153, R156). -/
theorem Steady.toIdle {s : State} (hs : Steady s) (hcur : s.curImg < s.cfg.n) (ht : s.swState.timed = true) :
    Steady { s with resetOut := false, tmrArmed := false, swState := .idle } :=
  { hs with
    label_only := fun hn => absurd hn (Nat.ne_of_lt hcur)
    label_shown := fun _ => nofun
    timer_armed := rfl
    timer_due := nofun
    reset_held := rfl
    button_pressed := hs.button_pressed.trans ⟨fun h => (by simp [h, SwState.timed] at ht), nofun⟩
    counting := nofun
    not_counting := fun _ => hs.not_counting fun h => by simp [h, SwState.timed] at ht
    no_switch := fun _ => rfl
    two_phase_only := by simp }

/-- `SW.SHOWLABEL`: the label stays selected while the host runs (R154). -/
theorem Steady.swShowlabel {s : State} (hs : Steady s) (hc : s.cfg.Admits) (hb : s.cfg.switchSource = .button)
    (hv : s.cfg.switchVariant = .twoPhase) (hst : s.swState = .swSettle) :
    Steady { s.arm s.cfg.labelDisplay .realSwitch with resetOut := false, swState := .labelShow } :=
  have hmay : s.swState.mayLabel = true := by rw [hst]; rfl
  { hs with
    label_only := fun _ => ⟨hv, rfl⟩
    label_shown := fun h2 _ => hs.label_shown h2 hmay
    timer_armed := rfl
    timer_due := fun _ => ⟨hc.display_pos, rfl⟩
    reset_held := rfl
    button_pressed := hs.button_pressed.trans (by simp [hst])
    counting := nofun
    not_counting := fun _ => hs.not_counting (by simp [hst])
    no_switch := fun ha => nomatch hb.symm.trans ha
    two_phase_only := fun _ => hv }

/-- `SW.REALSWITCH`: the pending bank is selected with reset asserted (R155). -/
theorem Steady.swRealswitch {s : State} (hs : Steady s) (hc : s.cfg.Admits) (hb : s.cfg.switchSource = .button)
    (hv : s.cfg.switchVariant = .twoPhase) (hst : s.swState = .labelShow) :
    Steady { s.arm s.cfg.resetHold .finalRelease with
      resetOut := true, curImg := s.pendIdx, swState := .finalHold } :=
  have hmay : s.swState.mayLabel = true := by rw [hst]; rfl
  have hpend := (hs.label_shown hv hmay).2.1
  { hs with
    curImg_le := Nat.le_of_lt hpend
    label_only := fun hn => absurd hn (Nat.ne_of_lt hpend)
    label_shown := fun _ => nofun
    timer_armed := rfl
    timer_due := fun _ => ⟨hc.hold_pos, rfl⟩
    reset_held := rfl
    button_pressed := hs.button_pressed.trans (by simp [hst])
    counting := nofun
    not_counting := fun _ => hs.not_counting (by simp [hst])
    no_switch := fun ha => nomatch hb.symm.trans ha
    two_phase_only := fun _ => hv }

/-- SWITCH's own registers are nothing to the rest of the invariant. -/
theorem Inv.withSwitch {s : State} (h : Inv s) {sw : SwState} {b : BtnState} {k p rem c : Nat} {armed reset : Bool}
    {act : TmrAct} (hs : Steady { s with
      swState := sw, btnState := b, dbCnt := k, pendIdx := p, tmrArmed := armed, tmrRem := rem, tmrAct := act
      resetOut := reset, curImg := c }) :
    Inv { s with
      swState := sw, btnState := b, dbCnt := k, pendIdx := p, tmrArmed := armed, tmrRem := rem, tmrAct := act
      resetOut := reset, curImg := c } :=
  { h with steady := fun _ => hs }

/-- `SW.QLABEL` writes the label slot and no bank (R147). -/
theorem Inv.swQlabel {s : State} (h : Inv s) (hb : s.cfg.switchSource = .button)
    (hv : s.cfg.switchVariant = .twoPhase) (hst : s.swState = .debouncing) (hs : Steady s) :
    Inv { s.buildLabel (nextBank s.cfg s.curImg) with
      resetOut := true, pendIdx := nextBank s.cfg s.curImg, curImg := s.cfg.n
      btnState := .pressed, dbCnt := 0, swState := .swHold } where
  admitted := h.admitted
  table_wf := h.table_wf
  images_wf := by simpa only [buildLabel_cfg] using buildLabel_wf (p := nextBank s.cfg s.curImg) hv h.images_wf
  snap_width := h.snap_width
  live := h.live
  table := h.table
  images := fun b hn a =>
    (imgRead_buildLabel s (nextBank s.cfg s.curImg) b a).trans
      ((if_neg (Nat.ne_of_lt hn)).trans (h.images b hn a))
  stopped := h.stopped
  launched := h.launched
  steady := fun _ => hs.swQlabel (Config.admits_of_admitted h.admitted) hb hv hst

/-- `v` is formed as 1 in the two-phase variant only (R77). -/
theorem variantBit_eq_true {s : State} : variantBit s = true ↔ s.cfg.switchVariant = .twoPhase := by
  simp [variantBit]

/-- In a timed state `x` says that the timer expires at this tick (R77). -/
theorem tmrRem_ne_of_swExpiry {s : State} (ht : s.swState.timed = true) (hx : swExpiry s = false) :
    s.tmrRem ≠ 1 := by
  cases hst : s.swState <;> simp_all [swExpiry, SwState.timed]

/-- `SW.IDLE` and `SW.HOLD` write the state SWITCH is in. -/
theorem Inv.swStays {s : State} (h : Inv s) {sw : SwState} (hst : s.swState = sw) : Inv { s with swState := sw } := by
  subst hst
  exact h

/-- `SW.TICK`, in each timed state. -/
theorem Inv.swTick {s : State} (h : Inv s) (hs : Steady s) (ht : s.swState.timed = true)
    (hx : swExpiry s = false) : Inv { s with tmrRem := s.tmrRem - 1 } :=
  h.withSwitch (hs.swTick (tmrRem_ne_of_swExpiry ht hx))

/-- Whatever operation SWITCH performs, it keeps the invariant. -/
theorem Inv.switchOp_next {s : State} {i : Instr} (h : Inv s) (hd : s.boot = .done) (hb : s.cfg.switchSource = .button)
    (hi : switchOp (variantBit s) s.swState (btn s) (swExpiry s) = .ok i) : ∃ t, exec i s = .next t ∧ Inv t := by
  have hs := h.steady (by rw [hd]; rfl)
  have hc := Config.admits_of_admitted h.admitted
  have himm (hv : variantBit s = false) : s.cfg.switchVariant ≠ .twoPhase := fun h2 => by
    simp [variantBit_eq_true.2 h2] at hv
  obtain ⟨hst, -, rfl⟩ | ⟨hst, -, rfl⟩ | ⟨hst, -, hx, rfl⟩ | ⟨hst, -, rfl⟩ | ⟨hst, -, -, hv, rfl⟩ |
    ⟨hst, -, -, hv, rfl⟩ | ⟨hst, -, rfl⟩ | ⟨hst, -, rfl⟩ | ⟨hst, hx, rfl⟩ | ⟨hst, hx, -, rfl⟩ | ⟨hst, hx, -, rfl⟩ |
    ⟨hst, -, hv, rfl⟩ | ⟨hst, -, hv, rfl⟩ | ⟨hst, -, hv, rfl⟩ | ⟨hst, -, -, rfl⟩ := switchOp_cases hi
  · exact ⟨_, rfl, h.swStays hst⟩
  · exact ⟨_, rfl, h.withSwitch (hs.swDetect hc hb hst)⟩
  · exact ⟨_, rfl, h.withSwitch (hs.swCount hst hx)⟩
  · exact ⟨_, rfl, h.withSwitch (hs.swBounce hst)⟩
  · exact ⟨_, rfl, h.withSwitch (hs.swQualify hc hb (himm hv) hst)⟩
  · exact ⟨_, rfl, h.swQlabel hb (variantBit_eq_true.1 hv) hst hs⟩
  · exact ⟨_, rfl, h.swStays hst⟩
  · exact ⟨_, rfl, h.withSwitch (hs.swUnpress hc hb hst)⟩
  · exact ⟨_, rfl, h.swTick hs (by rw [hst]; rfl) hx⟩
  · exact ⟨_, rfl, h.swTick hs (by rw [hst]; rfl) hx⟩
  · exact ⟨_, rfl, h.swTick hs (by rw [hst]; rfl) hx⟩
  · exact ⟨_, rfl, h.withSwitch
      (hs.toIdle (hs.curImg_lt_of_immediate (himm hv)) (by rw [hst]; rfl))⟩
  · exact ⟨_, rfl, h.withSwitch (hs.swShowlabel hc hb (variantBit_eq_true.1 hv) hst)⟩
  · exact ⟨_, rfl, h.withSwitch (hs.swRealswitch hc hb (variantBit_eq_true.1 hv) hst)⟩
  · exact ⟨_, rfl, h.withSwitch
      (hs.toIdle (hs.curImg_lt (by rw [hst]; rfl)) (by rw [hst]; rfl))⟩

theorem Inv.switch_performs {s : State} (h : Inv s) {w : Selector} (hw : selectorOf s .switch = some w) :
    ∃ i t, decode w = .ok i ∧ exec i (s.passBoot .switch) = .next t ∧ Inv t := by
  simp only [selectorOf] at hw
  split at hw
  · rename_i hon
    obtain ⟨hd, hb⟩ := hon
    cases hw
    have hs := h.steady (by rw [hd]; rfl)
    obtain ⟨i, hi⟩ := switchOp_ok (b := btn s) (x := swExpiry s)
      fun hst => variantBit_eq_true.2 (hs.two_phase_only hst)
    obtain ⟨t, ht, hinv⟩ := h.switchOp_next hd hb hi
    exact ⟨i, t, hi, ht, hinv⟩
  · cases hw

end Sys2Proof.Machine
end

section
/-!
SUPPORT. Every turn of every agent keeps the invariant and meets no stop (spec/10_state.md R40, spec/60 R190).
-/

namespace Sys2Proof.Machine

/-- Under the invariant an agent that forms a selector performs an operation, which keeps the invariant. -/
theorem Inv.performs {s : State} (h : Inv s) {g : Agent} {w : Selector} (hw : selectorOf s g = some w) :
    ∃ i t, decode w = .ok i ∧ exec i (s.passBoot g) = .next t ∧ Inv t := by
  cases g with
  | startup => exact h.startup_performs hw
  | engine => exact h.engine_performs hw
  | switch => exact h.switch_performs hw
  | ipg => exact h.ipg_performs hw
  | host => cases hw

/-- Under the invariant there is a next state, and it meets the invariant. -/
theorem Inv.step_next {s : State} (h : Inv s) : ∃ t, step s = .next t ∧ Inv t := by
  cases hw : selectorOf s.takeTurn s.nextTurn.agent with
  | none => exact ⟨s.takeTurn, by simp [step, h.admitted, hw], h.takeTurn⟩
  | some w =>
    obtain ⟨i, t, hd, ht, hinv⟩ := h.takeTurn.performs hw
    exact ⟨t, (step_eq_exec h.admitted hw hd).trans ht, hinv⟩

/-- The invariant is kept by every step. -/
theorem Inv.of_step {s t : State} (h : Inv s) (hst : step s = .next t) : Inv t := by
  obtain ⟨u, hu, hinv⟩ := h.step_next
  exact Host.Outcome.next.inj (hu.symm.trans hst) ▸ hinv

end Sys2Proof.Machine
end

section
/-!
SUPPORT. Infinite runs (spec/70_reset_and_hazards.md R235, R236): every choice of turns has one, and in a weakly fair
one an agent that stays able to step does so again and again.
-/

namespace Sys2Proof.Machine

/-- The state one given turn leads to; a stop, which no state under the invariant meets, would leave it as it is. -/
def afterTurn (s : State) (u : Turn) : State :=
  match step (s.given u) with
  | .next t => t
  | .fault _ => s
  | .refused _ => s

/-- The states that the turns of a choice lead through. -/
def runFrom (turn : Nat → Turn) (s : State) : Nat → State
  | 0 => s
  | n + 1 => afterTurn (runFrom turn s n) (turn n)

theorem afterTurn_eq {s t : State} {u : Turn} (h : step (s.given u) = .next t) : afterTurn s u = t := by
  simp [afterTurn, h]

theorem Inv.given {s : State} (h : Inv s) (u : Turn) : Inv (s.given u) := h.withTurns _ _ _

theorem Inv.step_afterTurn {s : State} (h : Inv s) (u : Turn) :
    step (s.given u) = .next (afterTurn s u) ∧ Inv (afterTurn s u) := by
  obtain ⟨t, ht, hinv⟩ := (h.given u).step_next
  rw [afterTurn_eq ht]
  exact ⟨ht, hinv⟩

theorem Inv.inv_runFrom {s : State} (h : Inv s) (turn : Nat → Turn) (n : Nat) : Inv (runFrom turn s n) := by
  induction n with
  | zero => exact h
  | succ n ih => exact (ih.step_afterTurn (turn n)).2

/-- R235: the turns of any choice make an infinite run. -/
theorem Inv.infiniteRun_runFrom {s : State} (h : Inv s) (turn : Nat → Turn) :
    InfiniteRun turn (runFrom turn s) :=
  fun n => ((h.inv_runFrom turn n).step_afterTurn (turn n)).1

/-- How many boot steps are still to come (R100). -/
def BootStep.left : BootStep → Nat
  | .s1 => 5
  | .s2 => 4
  | .s3 => 3
  | .s4 => 2
  | .s5 => 1
  | .done => 0

theorem BootStep.left_succ (b : BootStep) : b.succ.left = b.left - 1 := by cases b <;> rfl

theorem BootStep.left_pos {b : BootStep} (h : b ≠ .done) : 0 < b.left := by
  cases b with
  | done => exact absurd rfl h
  | s1 | s2 | s3 | s4 | s5 => exact Nat.succ_pos _

/-- STARTUP has a step until S5 is done (R100). -/
theorem selectorOf_startup_eq_none {s : State} : selectorOf s .startup = none ↔ s.boot = .done := by
  rw [selectorOf, Option.map_eq_none_iff]
  cases s.boot <;> simp [BootStep.ordinal]

/-- ENGINE has a step once launched (R102). -/
theorem selectorOf_engine_eq_none {s : State} : selectorOf s .engine = none ↔ s.engLive = false := by
  cases hl : s.engLive <;> simp [selectorOf, hl]

/-- SWITCH has a step after S5, with the button (R100; file 42, opening). -/
theorem selectorOf_switch_eq_none {s : State} :
    selectorOf s .switch = none ↔ ¬(s.boot = .done ∧ s.cfg.switchSource = .button) := by
  by_cases hon : s.boot = .done ∧ s.cfg.switchSource = .button <;> simp [selectorOf, hon]

/-- IPG has a step in the autonomous variant (file 43, opening). -/
theorem selectorOf_ipg_eq_none {s : State} : selectorOf s .ipg = none ↔ s.cfg.ipgVariant ≠ .autonomous := by
  by_cases ha : s.cfg.ipgVariant = .autonomous <;> simp [selectorOf, ha]

/-- Whether an agent has a step does not depend on the turn. -/
theorem selectorOf_takeTurn_eq_none {s : State} {g : Agent} :
    selectorOf s.takeTurn g = none ↔ selectorOf s g = none := by
  cases g with
  | startup | host => exact Iff.rfl
  | engine => rw [selectorOf_engine_eq_none, selectorOf_engine_eq_none]; rfl
  | switch => rw [selectorOf_switch_eq_none, selectorOf_switch_eq_none]; rfl
  | ipg => rw [selectorOf_ipg_eq_none, selectorOf_ipg_eq_none]; rfl

/-- A step keeps the configuration, and moves the boot order on at a turn of STARTUP (R84, R100). -/
theorem step_cfg_boot {s t : State} (h : step s = .next t) :
    t.cfg = s.cfg ∧ t.boot = if s.nextTurn.agent = .startup then s.boot.succ else s.boot := by
  obtain ⟨-, he⟩ | ⟨-, hn, he⟩ | ⟨w, i, -, -, -, he⟩ | ⟨w, e, -, -, -, he⟩ := step_cases s <;> rw [he] at h
  · cases h
  · cases h
    refine ⟨rfl, ?_⟩
    split
    · rename_i hg
      have hdone : s.boot = .done := selectorOf_startup_eq_none.1 (selectorOf_takeTurn_eq_none.1 (hg ▸ hn))
      rw [takeTurn_boot, hdone]
      rfl
    · rfl
  · obtain ⟨hcfg, hboot⟩ := exec_cfg_boot h
    exact ⟨hcfg.trans (passBoot_cfg _ _), hboot.trans (passBoot_boot _ _)⟩
  · cases h

section
variable {turn : Nat → Turn} {r : Nat → State}

theorem InfiniteRun.inv (hrun : InfiniteRun turn r) (h0 : Inv (r 0)) (n : Nat) : Inv (r n) := by
  induction n with
  | zero => exact h0
  | succ n ih => exact (ih.given (turn n)).of_step (hrun n)

theorem InfiniteRun.cfg_eq (hrun : InfiniteRun turn r) (n : Nat) : (r n).cfg = (r 0).cfg := by
  induction n with
  | zero => rfl
  | succ n ih => exact (step_cfg_boot (hrun n)).1.trans ih

theorem InfiniteRun.boot_succ (hrun : InfiniteRun turn r) (n : Nat) :
    (r (n + 1)).boot = if (turn n).agent = .startup then (r n).boot.succ else (r n).boot :=
  (step_cfg_boot (hrun n)).2

theorem InfiniteRun.left_antitone (hrun : InfiniteRun turn r) : Antitone fun n => (r n).boot.left :=
  antitone_nat_of_succ_le fun n => by
    rw [hrun.boot_succ]
    split
    · rw [BootStep.left_succ]; exact Nat.sub_le _ _
    · exact Nat.le_refl _

/-- STARTUP, once finished, stays so (R100). -/
theorem InfiniteRun.done_of_le (hrun : InfiniteRun turn r) {n m : Nat} (hn : (r n).boot = .done) (h : n ≤ m) :
    (r m).boot = .done := by
  by_contra hm
  have hle : (r m).boot.left ≤ (r n).boot.left := hrun.left_antitone h
  have hpos := BootStep.left_pos hm
  rw [hn] at hle
  exact absurd hle (Nat.not_le_of_lt hpos)

/-- In a weakly fair run STARTUP finishes: until then it always has a step, and each step brings S5 nearer. -/
theorem WeaklyFair.finishes (hfair : WeaklyFair turn r) (hrun : InfiniteRun turn r) (k n : Nat)
    (hk : (r n).boot.left ≤ k) : ∃ m, (r m).boot = .done := by
  by_contra hnever
  have hne (m : Nat) : (r m).boot ≠ .done := fun hm => hnever ⟨m, hm⟩
  induction k generalizing n with
  | zero => exact absurd (BootStep.left_pos (hne n)) (Nat.not_lt_of_le hk)
  | succ k ih =>
    obtain ⟨m, hm, hg⟩ := hfair .startup n fun m _ => mt selectorOf_startup_eq_none.1 (hne m)
    refine ih (m + 1) ?_
    have hle : (r m).boot.left ≤ (r n).boot.left := hrun.left_antitone hm
    rw [hrun.boot_succ, if_pos hg, BootStep.left_succ]
    omega

/-- In a weakly fair run an agent that from some moment on always has a step takes infinitely many (R236). -/
theorem WeaklyFair.steps_again (hfair : WeaklyFair turn r) (hrun : InfiniteRun turn r) (h0 : Inv (r 0)) {g : Agent}
    {k : Nat} (hen : ∀ m, k ≤ m → selectorOf (r m) g ≠ none) (n : Nat) : ∃ m, n ≤ m ∧ Steps turn r g m := by
  obtain ⟨m, hm, hg⟩ := hfair g (max n k) fun m hm => hen m (le_of_max_le_right hm)
  refine ⟨m, le_of_max_le_left hm, hg, ?_⟩
  have hsome : selectorOf ((r m).given (turn m)).takeTurn g ≠ none :=
    mt selectorOf_takeTurn_eq_none.1 (hen m (le_of_max_le_right hm))
  obtain ⟨w, hw⟩ := Option.ne_none_iff_exists'.1 hsome
  obtain ⟨i, -, hd, -, -⟩ := ((hrun.inv h0 m).given (turn m)).takeTurn.performs hw
  exact ⟨i, w, hw, hd⟩

end

/-- Settles O59: runs by progress under the invariant; under weak fairness STARTUP's boot steps run out, and from then
on the other agents of the build always have a step. -/
theorem fairRunsStepEveryAgent : Obligations.FairRunsStepEveryAgent := by
  unfold Obligations.FairRunsStepEveryAgent
  refine ⟨fun s turn h => ⟨runFrom turn s, rfl, h.infiniteRun_runFrom turn⟩, fun turn r h0 hrun hfair => ?_⟩
  obtain ⟨k, hk⟩ := hfair.finishes hrun _ 0 (Nat.le_refl _)
  have hdone (m : Nat) (hm : k ≤ m) : (r m).boot = .done := hrun.done_of_le hk hm
  refine ⟨⟨k, hdone⟩, hfair.steps_again hrun h0 (k := k) fun m hm => ?_,
    fun hb => hfair.steps_again hrun h0 (k := k) fun m hm => ?_,
    fun ha => hfair.steps_again hrun h0 (k := k) fun m hm => ?_⟩
  · have hlive : (r m).engLive = true := (hrun.inv h0 m).live.trans (by rw [hdone m hm]; rfl)
    simp [selectorOf_engine_eq_none, hlive]
  · simp [selectorOf_switch_eq_none, hdone m hm, hrun.cfg_eq m, hb]
  · simp [selectorOf_ipg_eq_none, hrun.cfg_eq m, ha]

end Sys2Proof.Machine
end

section
/-!
SUPPORT. What each agent's turn writes (spec/10_state.md R38): the elements it owns, and of the shared ones the image
selector, `NMI_OUT` and the label slot only as the build allows.
-/

namespace Sys2Proof.Machine

/-- All a completed step can be: a turn of an agent with no step, or one operation that its agent performs. -/
theorem step_performs {s t : State} (h : step s = .next t) :
    (selectorOf s.takeTurn s.nextTurn.agent = none ∧ t = s.takeTurn) ∨
    ∃ i, Performs s.nextTurn.agent s.takeTurn i ∧ exec i (s.takeTurn.passBoot s.nextTurn.agent) = .next t := by
  obtain ⟨-, he⟩ | ⟨-, hn, he⟩ | ⟨w, i, -, hw, hd, he⟩ | ⟨w, e, -, -, -, he⟩ := step_cases s
  · exact nomatch he.symm.trans h
  · exact .inl ⟨hn, Host.Outcome.next.inj (h.symm.trans he)⟩
  · exact .inr ⟨i, ⟨w, hw, hd⟩, he.symm.trans h⟩
  · exact nomatch he.symm.trans h

/-- The format of the operations an agent performs; HOST performs none (R3). -/
def agentFormat : Agent → Option Format
  | .startup => some .boot
  | .engine => some .eng
  | .switch => some .swf
  | .ipg => some .ipg
  | .host => none

theorem format_of_performs {s : State} {g : Agent} {i : Instr} (h : Performs g s i) :
    agentFormat g = some (rowOf i).format := by
  obtain ⟨w, hw, hd⟩ := h
  rw [format_of_decode hd, ← agent_of_selectorOf hw]
  cases w <;> rfl

/-- An agent performs at most one operation in a state. -/
theorem performs_unique {s : State} {g : Agent} {i j : Instr} (hi : Performs g s i) (hj : Performs g s j) : i = j := by
  obtain ⟨w, hw, hd⟩ := hi
  obtain ⟨v, hv, he⟩ := hj
  obtain rfl : w = v := Option.some.inj (hw.symm.trans hv)
  exact Except.ok.inj (hd.symm.trans he)

/-- What ENGINE may write: its own elements; the selector not with the button (R122), the pulse only in the inline
variant (R121). -/
structure EngineFrame (s t : State) : Prop where
  only : t = { s with
    engState := t.engState, snap := t.snap, raw := t.raw, laddr := t.laddr, outByte := t.outByte
    dataOut := t.dataOut, nmiPrev := t.nmiPrev, curImg := t.curImg, nmiOut := t.nmiOut }
  selector : s.cfg.switchSource = .button → t.curImg = s.curImg
  pulse : s.cfg.ipgVariant ≠ .inline → t.nmiOut = s.nmiOut ∧ t.nmiPrev = s.nmiPrev

theorem EngineFrame.refl (s : State) : EngineFrame s s := ⟨rfl, fun _ => rfl, fun _ => ⟨rfl, rfl⟩⟩

theorem EngineFrame.engineTo (s : State) (e : EngState) : EngineFrame s (engineTo s e) :=
  ⟨rfl, fun _ => rfl, fun _ => ⟨rfl, rfl⟩⟩

theorem EngineFrame.served (s : State) (a : Addr) (b : Byte) : EngineFrame s (served s a b) where
  only := rfl
  selector hb := servedImg_button hb a
  pulse hv := by simp [servedPulse_of_ne hv]

/-- Every operation of ENGINE stays within its frame. -/
theorem EngineFrame.of_exec {i : Instr} {s t : State} (hf : (rowOf i).format = .eng) (h : exec i s = .next t) :
    EngineFrame s t := by
  cases i
  case breServe =>
    obtain ⟨b, -, he⟩ | ⟨f, he⟩ := execBreServe_cases s
    · obtain rfl := Host.Outcome.next.inj (he.symm.trans h)
      exact .served s _ b
    · exact nomatch he.symm.trans h
  case brePoll | breSkipwr | breHold | breRelease | breSkiphold | breSkipend =>
    obtain rfl := Host.Outcome.next.inj h
    exact .engineTo s _
  all_goals cases hf

theorem EngineFrame.of_step {s t : State} (h : step s = .next t) (hg : s.nextTurn.agent = .engine) :
    EngineFrame s.takeTurn t := by
  obtain ⟨-, rfl⟩ | ⟨i, hp, he⟩ := step_performs h
  · exact .refl _
  · rw [hg] at hp he
    exact .of_exec (Option.some.inj (format_of_performs hp)).symm he

/-- What an operation of SWITCH may write: its own elements; the images only in `SW.QLABEL`, which writes no bank and
selects the slot it fills (R67, R147); the selector only with reset asserted (R160). -/
structure SwitchFrame (i : Instr) (s t : State) : Prop where
  only : t = { s with
    swState := t.swState, btnState := t.btnState, dbCnt := t.dbCnt, pendIdx := t.pendIdx
    tmrArmed := t.tmrArmed, tmrRem := t.tmrRem, tmrAct := t.tmrAct, resetOut := t.resetOut
    curImg := t.curImg, img := t.img }
  images : i ≠ .swQlabel → t.img = s.img
  banks : ∀ b, b ≠ s.cfg.n → ∀ a, imgRead t b a = imgRead s b a
  label : i = .swQlabel → t.curImg = s.cfg.n ∧ t.resetOut = true
  under_reset : t.curImg ≠ s.curImg → t.resetOut = true

/-- `SW.QLABEL` fills the label slot alone. -/
theorem SwitchFrame.of_swQlabel {s t : State} (h : exec .swQlabel s = .next t) : SwitchFrame .swQlabel s t := by
  obtain rfl := Host.Outcome.next.inj h
  exact
    { only := rfl
      images := absurd rfl
      banks := fun b hb a => (imgRead_buildLabel s (nextBank s.cfg s.curImg) b a).trans (if_neg hb)
      label := fun _ => ⟨rfl, rfl⟩
      under_reset := fun _ => rfl }

/-- Every operation of SWITCH stays within its frame. -/
theorem SwitchFrame.of_exec {i : Instr} {s t : State} (hf : (rowOf i).format = .swf) (h : exec i s = .next t) :
    SwitchFrame i s t := by
  cases i
  case swQlabel => exact .of_swQlabel h
  case swQualify | swRealswitch =>
    obtain rfl := Host.Outcome.next.inj h
    exact ⟨rfl, fun _ => rfl, fun _ _ _ => rfl, nofun, fun _ => rfl⟩
  case swIdle | swDetect | swCount | swBounce | swHold | swUnpress | swTick | swRelease | swShowlabel | swFinalrel =>
    obtain rfl := Host.Outcome.next.inj h
    exact ⟨rfl, fun _ => rfl, fun _ _ _ => rfl, nofun, absurd rfl⟩
  all_goals cases hf

/-- A turn of SWITCH: nothing with the address trigger (file 42, opening), or an operation within its frame. -/
theorem SwitchFrame.of_step {s t : State} (h : step s = .next t) (hg : s.nextTurn.agent = .switch) :
    ((∀ i, ¬Performs .switch s.takeTurn i) ∧ t = s.takeTurn) ∨
    (s.cfg.switchSource = .button ∧ ∃ i, Performs .switch s.takeTurn i ∧ SwitchFrame i s.takeTurn t) := by
  obtain ⟨hn, ht⟩ | ⟨i, hp, he⟩ := step_performs h
  · rw [hg] at hn
    exact .inl ⟨fun i ⟨w, hw, _⟩ => (nomatch hn.symm.trans hw), ht⟩
  · rw [hg] at hp he
    have hon : s.cfg.switchSource = .button := by
      obtain ⟨w, hw, -⟩ := hp
      by_contra hoff
      exact nomatch hw.symm.trans (selectorOf_switch_eq_none.2 fun hon => hoff hon.2)
    exact .inr ⟨hon, i, hp, .of_exec (Option.some.inj (format_of_performs hp)).symm he⟩

/-- A turn of SWITCH that changes the selector ends with reset asserted. -/
theorem resetOut_of_switch_step {s t : State} (h : step s = .next t) (hg : s.nextTurn.agent = .switch)
    (hne : t.curImg ≠ s.curImg) : t.resetOut = true := by
  obtain ⟨-, rfl⟩ | ⟨-, i, -, hf⟩ := SwitchFrame.of_step h hg
  · exact absurd rfl hne
  · exact hf.under_reset hne

/-- What IPG may write: its own elements, and `NMI_OUT` only in the autonomous variant. -/
structure IpgFrame (s t : State) : Prop where
  only : t = { s with ipgState := t.ipgState, wCnt := t.wCnt, intPrev := t.intPrev, nmiOut := t.nmiOut }
  pulse : s.cfg.ipgVariant ≠ .autonomous → t.nmiOut = s.nmiOut

theorem IpgFrame.of_exec {i : Instr} {s t : State} (hf : (rowOf i).format = .ipg)
    (ha : s.cfg.ipgVariant = .autonomous) (h : exec i s = .next t) : IpgFrame s t := by
  cases i
  case ipgOff | ipgWait | ipgSync | ipgHold | ipgEnd =>
    obtain rfl := Host.Outcome.next.inj h
    exact ⟨rfl, absurd ha⟩
  all_goals cases hf

theorem IpgFrame.of_step {s t : State} (h : step s = .next t) (hg : s.nextTurn.agent = .ipg) :
    IpgFrame s.takeTurn t := by
  obtain ⟨-, rfl⟩ | ⟨i, hp, he⟩ := step_performs h
  · exact ⟨rfl, fun _ => rfl⟩
  · rw [hg] at hp he
    have hf := (Option.some.inj (format_of_performs hp)).symm
    exact .of_exec hf (autonomous_of_performs hp hf) he

/-- A turn of HOST, and of STARTUP once it has finished, changes only the lines (log 7). -/
theorem step_of_no_agent {s t : State} (h : step s = .next t)
    (hg : s.boot = .done ∧ s.nextTurn.agent = .startup ∨ s.nextTurn.agent = .host) : t = s.takeTurn := by
  have hn : selectorOf s.takeTurn s.nextTurn.agent = none := by
    obtain ⟨hb, hg⟩ | hg := hg <;> rw [hg]
    · exact selectorOf_startup_eq_none.2 hb
    · rfl
  obtain ⟨-, ht⟩ | ⟨i, ⟨w, hw, -⟩, -⟩ := step_performs h
  · exact ht
  · exact nomatch hn.symm.trans hw

/-- Settles O46: the frame of each agent. -/
theorem agentsWriteOnlyTheirOwn : Obligations.AgentsWriteOnlyTheirOwn := by
  unfold Obligations.AgentsWriteOnlyTheirOwn
  intro s t hb h
  refine ⟨fun hg => ?_, fun hg => ?_, fun hg => ?_, fun hg => step_of_no_agent h (hg.imp (⟨hb, ·⟩) id)⟩
  · have hf := EngineFrame.of_step h hg
    exact ⟨hf.only, hf.selector, hf.pulse⟩
  · obtain ⟨hno, rfl⟩ | ⟨hsrc, i, hp, hf⟩ := SwitchFrame.of_step h hg
    · exact ⟨rfl, fun _ => rfl, fun _ _ _ => rfl, fun _ => rfl, fun hp => absurd hp (hno _)⟩
    · refine ⟨hf.only, fun ha => absurd ha (by simp [hsrc]), hf.banks, fun hq => hf.images ?_, fun hq => ?_⟩
      · rintro rfl; exact hq hp
      · exact (hf.label (performs_unique hp hq)).1
  · have hf := IpgFrame.of_step h hg
    exact ⟨hf.only, hf.pulse⟩

/-- After startup no step undoes a launch, the latched timing or the table (R35, R40(h), R102). -/
theorem launches_kept_after_startup {s t : State} (hb : s.boot = .done) (h : step s = .next t) :
    t.engLive = s.engLive ∧ t.pulseTiming = s.pulseTiming ∧ t.ait = s.ait := by
  cases hg : s.nextTurn.agent with
  | startup => rw [step_of_no_agent h (.inl ⟨hb, hg⟩)]; exact ⟨rfl, rfl, rfl⟩
  | engine => rw [(EngineFrame.of_step h hg).only]; exact ⟨rfl, rfl, rfl⟩
  | switch =>
    obtain ⟨-, rfl⟩ | ⟨-, i, -, hf⟩ := SwitchFrame.of_step h hg
    · exact ⟨rfl, rfl, rfl⟩
    · rw [hf.only]; exact ⟨rfl, rfl, rfl⟩
  | ipg => rw [(IpgFrame.of_step h hg).only]; exact ⟨rfl, rfl, rfl⟩
  | host => rw [step_of_no_agent h (.inr hg)]; exact ⟨rfl, rfl, rfl⟩

/-- After startup only operations of SWITCH write images (R38). -/
theorem images_after_startup {s t : State} (hb : s.boot = .done) (h : step s = .next t) :
    t.img = s.img ∨ ∃ i, SwitchFrame i s.takeTurn t := by
  cases hg : s.nextTurn.agent with
  | startup => exact .inl (by rw [step_of_no_agent h (.inl ⟨hb, hg⟩)]; rfl)
  | engine => exact .inl (by rw [(EngineFrame.of_step h hg).only]; rfl)
  | switch =>
    obtain ⟨-, rfl⟩ | ⟨-, i, -, hf⟩ := SwitchFrame.of_step h hg
    · exact .inl rfl
    · exact .inr ⟨i, hf⟩
  | ipg => exact .inl (by rw [(IpgFrame.of_step h hg).only]; rfl)
  | host => exact .inl (by rw [step_of_no_agent h (.inr hg)]; rfl)

/-- Settles O45. -/
theorem configurationNeverChanges : Obligations.ConfigurationNeverChanges := by
  unfold Obligations.ConfigurationNeverChanges
  intro s t h
  obtain ⟨hcfg, hboot⟩ := step_cfg_boot h
  refine ⟨hcfg, fun hb => ?_⟩
  obtain ⟨hlive, htiming, -⟩ := launches_kept_after_startup hb h
  exact ⟨by simp [hboot, hb, BootStep.succ], hlive, htiming⟩

/-- Settles O44: only SWITCH writes images, and only in `SW.QLABEL`. -/
theorem tablesNeverChangeAfterStartup : Obligations.TablesNeverChangeAfterStartup := by
  unfold Obligations.TablesNeverChangeAfterStartup
  intro s t hb h
  have hcfg := (step_cfg_boot h).1
  obtain ⟨-, -, hait⟩ := launches_kept_after_startup hb h
  refine ⟨hait, ?_⟩
  obtain himg | ⟨i, hf⟩ := images_after_startup hb h
  · exact ⟨fun b _ => imgRead_congr hcfg himg b, fun ⟨a, ha⟩ => absurd (imgRead_congr hcfg himg _ a) ha⟩
  · refine ⟨hf.banks, fun ⟨a, ha⟩ => hf.label ?_⟩
    by_contra hq
    exact ha (imgRead_congr hcfg (hf.images hq) _ a)

/-- STARTUP performs the operation of its next boot step (R79, R81). -/
theorem bootOp_of_performs {s : State} {i : Instr} (h : Performs .startup s i) : bootOp s.boot = some i := by
  obtain ⟨w, hw, hd⟩ := h
  simp only [selectorOf] at hw
  cases hb : s.boot <;> rw [hb] at hw <;> cases hw <;> cases hd <;> rfl

theorem performs_of_bootOp {s : State} {i : Instr} (h : bootOp s.boot = some i) : Performs .startup s i := by
  cases hb : s.boot <;> rw [hb] at h <;> cases h <;> exact ⟨_, by rw [selectorOf, hb]; rfl, rfl⟩

/-- All that `IPG.START` can do (R172). -/
theorem exec_ipgStart_cases {s t : State} (h : exec .ipgStart s = .next t) :
    (s.cfg.ipgVariant = .autonomous ∧ t = { s with
      nmiOut := true, wCnt := 0, intPrev := intIn s, ipgState := .armed
      pulseTiming := some ⟨s.cfg.pulsePeriod, s.cfg.pulseWidth⟩ }) ∨
    (s.cfg.ipgVariant ≠ .autonomous ∧ t = s) := by
  simp only [exec, execIpgStart] at h
  split at h
  · exact .inl ⟨‹_›, (Host.Outcome.next.inj h).symm⟩
  · exact .inr ⟨‹_›, (Host.Outcome.next.inj h).symm⟩

/-- After `CORE.INIT` STARTUP only launches, and leaves the selector (R102, R172). -/
theorem curImg_of_startup_step {s t : State} (hb : s.boot.initialised = true) (h : step s = .next t)
    (hg : s.nextTurn.agent = .startup) : t.curImg = s.curImg := by
  obtain ⟨-, rfl⟩ | ⟨i, hp, he⟩ := step_performs h
  · rfl
  · rw [hg] at hp he
    have hop := bootOp_of_performs hp
    rw [takeTurn_boot] at hop
    cases hs : s.boot with
    | s1 | s2 | s3 => simp [hs, BootStep.initialised] at hb
    | s4 =>
      rw [hs] at hop
      cases hop
      rw [← Host.Outcome.next.inj he]
      rfl
    | s5 =>
      rw [hs] at hop
      cases hop
      obtain ⟨-, rfl⟩ | ⟨-, rfl⟩ := exec_ipgStart_cases he <;> rfl
    | done => simp [hs, bootOp] at hop

/-- Settles O43: of the agents only SWITCH then moves the selector, and it asserts reset as it does. -/
theorem bankChangesOnlyUnderReset : Obligations.BankChangesOnlyUnderReset := by
  unfold Obligations.BankChangesOnlyUnderReset
  intro s t hsrc hb h hne
  cases hg : s.nextTurn.agent with
  | startup => exact absurd (curImg_of_startup_step hb h hg) hne
  | engine => exact absurd ((EngineFrame.of_step h hg).selector hsrc) hne
  | switch => exact resetOut_of_switch_step h hg hne
  | ipg => exact absurd (by rw [(IpgFrame.of_step h hg).only]; rfl) hne
  | host => exact absurd (by rw [step_of_no_agent h (.inr hg)]; rfl) hne

end Sys2Proof.Machine
end

section
/-!
SUPPORT. The invariant holds in the reset state, which is what S3 to S5 make of tables already built, and every step
keeps it (spec/10_state.md R39, R40).
-/

namespace Sys2Proof.Machine

/-- Settles O40: agent by agent (`Inv.startup_performs`, `Inv.engine_performs`, `Inv.switch_performs`,
`Inv.ipg_performs`), every operation keeps each clause. -/
theorem invKeptByEveryStep : Obligations.InvKeptByEveryStep := by
  unfold Obligations.InvKeptByEveryStep
  exact fun _ _ h hst => h.of_step hst

/-- The reset registers of a build whose table and banks stand but whose S3 to S5 are still to come. -/
def State.beforeInit (c : Config) (lines : Nat) : State :=
  { State.resetOf c lines with boot := .s3, engLive := false, ipgState := .stopped, pulseTiming := none }

/-- The empty lists of exceptions hold the contents S1 and S2 leave (R97, R99). -/
theorem inv_beforeInit {c : Config} (h : c.admitted = true) (lines : Nat) : Inv (State.beforeInit c lines) where
  admitted := h
  table_wf := rfl
  images_wf := rfl
  snap_width := Nat.two_pow_pos _
  live := rfl
  table := fun _ => lookup_of_nil rfl
  images := fun _ hb _ => imgUnlisted_bank hb
  stopped := fun _ => rfl
  launched := nofun
  steady := nofun

/-- R39, R215: S3, S4 and S5 lead from there to the reset state. -/
theorem inv_resetOf {c : Config} (h : c.admitted = true) (lines : Nat) : Inv (State.resetOf c lines) := by
  have h5 := ((inv_beforeInit h lines).coreInit rfl).engLaunch rfl
  by_cases ha : c.ipgVariant = .autonomous
  · have h6 := h5.ipgStart_autonomous rfl ha ((BitVec.ofNat c.w lines).getLsbD c.lInt)
    simpa [State.resetOf, State.beforeInit, ha] using h6
  · have h6 := h5.ipgStart_other rfl ha
    simpa [State.resetOf, State.beforeInit, ha] using h6

/-- Settles O39. -/
theorem invHoldsAtReset : Obligations.InvHoldsAtReset := by
  unfold Obligations.InvHoldsAtReset
  exact ⟨fun _ lines h => inv_resetOf h lines, inv_resetOf (by decide) _⟩

end Sys2Proof.Machine
end

section
/-!
SUPPORT. Runs of given turns, one turn at a time.
-/

namespace Sys2Proof.Machine

/-- No operation touches the list of turns (log 6). -/
theorem exec_sched {i : Instr} {s t : State} (h : exec i s = .next t) : t.sched = s.sched := by
  have hsame : exec i s = .next { t with sched := s.sched, turnNo := s.turnNo } :=
    exec_next_turns s.sched s.turnNo h
  rw [Host.Outcome.next.inj (h.symm.trans hsame)]

/-- A step spends the oldest listed turn. -/
theorem step_sched {s t : State} (h : step s = .next t) : t.sched = s.sched.tail := by
  obtain ⟨-, rfl⟩ | ⟨i, -, he⟩ := step_performs h
  · rfl
  · exact (exec_sched he).trans (passBoot_sched _ _)

theorem runTurns_nil (s : State) : runTurns [] s = .next { s with sched := [] } := rfl

theorem run_succ_of_next {M : Host.Core} {k : Nat} {s t : M.State} (h : M.step s = .next t) :
    M.run (k + 1) s = M.run k t := by
  simp only [Host.Core.run, h]

/-- A run takes its first turn, and then runs the others. -/
theorem runTurns_cons {s m : State} {u : Turn} {us : List Turn} (h : step { s with sched := u :: us } = .next m) :
    runTurns (u :: us) s = runTurns us m := by
  obtain rfl : m.sched = us := step_sched h
  exact run_succ_of_next (M := core) (k := m.sched.length) h

/-- A run of one turn is one step. -/
theorem runTurns_singleton {s t : State} {u : Turn} (h : step { s with sched := [u] } = .next t) :
    runTurns [u] s = .next t := by
  have ht : t.sched = [] := step_sched h
  rw [runTurns_cons h, runTurns_nil, ← ht]

/-- A property of a state and the turns still to come that does not look at the model's own list of turns, and that
every turn keeps, holds once these turns are taken; the run then goes on from there. -/
theorem runTurns_append_of_kept {P : List Turn → State → Prop}
    (hsched : ∀ us s ts, P us s → P us { s with sched := ts })
    (hstep : ∀ us s, P (s.nextTurn :: us) s → ∃ m, step s = .next m ∧ P us m)
    (ts rest : List Turn) {s : State} (hs : P ts s) : ∃ m, P [] m ∧ runTurns (ts ++ rest) s = runTurns rest m := by
  induction ts generalizing s with
  | nil => exact ⟨s, hs, rfl⟩
  | cons u us ih =>
    obtain ⟨m, hm, hP⟩ := hstep us { s with sched := u :: (us ++ rest) } (hsched (u :: us) s _ hs)
    obtain ⟨r, hr, hrun⟩ := ih hP
    exact ⟨r, hr, (runTurns_cons hm).trans hrun⟩

end Sys2Proof.Machine
end

section
/-!
SUPPORT. The boot from power-on (spec/40_line_maps_and_tables.md R100, spec/70_reset_and_hazards.md R215): until S4 only
STARTUP writes, between S4 and S5 ENGINE writes its own elements too.
-/

namespace Sys2Proof.Machine

/-- The values `CORE.INIT` gives the elements that ENGINE does not own (R39, R101), `CUR_IMG` with the button and
`NMI_OUT`, `NMI_PREV` outside the inline variant among them (R215). -/
structure Rested (s : State) : Prop where
  resetOut : s.resetOut = false
  swState : s.swState = .idle
  btnState : s.btnState = .released
  dbCnt : s.dbCnt = 0
  tmrArmed : s.tmrArmed = false
  wCnt : s.wCnt = 0
  selector : s.cfg.switchSource = .button → s.curImg = 0
  pulse : s.cfg.ipgVariant ≠ .inline → s.nmiOut = true ∧ s.nmiPrev = false

/-- The values `CORE.INIT` gives ENGINE's elements. -/
structure EngineRested (s : State) : Prop where
  curImg : s.curImg = 0
  engState : s.engState = .waiting
  nmiPrev : s.nmiPrev = false
  nmiOut : s.nmiOut = true

/-- ENGINE leaves the elements it does not own. -/
theorem Rested.engine {s t : State} (h : Rested s) (hf : EngineFrame s t) : Rested t := by
  rw [hf.only]
  exact
    { h with
      selector := fun hb => (hf.selector hb).trans (h.selector hb)
      pulse := fun hv => by
        obtain ⟨hout, hprev⟩ := hf.pulse hv
        obtain ⟨hout', hprev'⟩ := h.pulse hv
        exact ⟨hout.trans hout', hprev.trans hprev'⟩ }

theorem rested_of_coreInit {s t : State} (h : exec .coreInit s = .next t) : Rested t ∧ EngineRested t := by
  obtain rfl := Host.Outcome.next.inj h
  exact ⟨⟨rfl, rfl, rfl, rfl, rfl, rfl, fun _ => rfl, fun _ => ⟨rfl, rfl⟩⟩, ⟨rfl, rfl, rfl, rfl⟩⟩

/-- A turn of STARTUP performs the operation of its boot step. -/
theorem step_startup {s : State} {i : Instr} (ha : s.cfg.admitted = true) (hg : s.nextTurn.agent = .startup)
    (hop : bootOp s.boot = some i) : step s = exec i { s.takeTurn with boot := s.boot.succ } := by
  obtain ⟨w, hw, hd⟩ := performs_of_bootOp (s := s.takeTurn) hop
  rw [step_eq_exec ha (by rw [hg]; exact hw) hd, hg]
  rfl

/-- A turn of an agent with no step changes only the lines (log 7). -/
theorem step_of_selectorOf_eq_none {s : State} (ha : s.cfg.admitted = true)
    (hn : selectorOf s.takeTurn s.nextTurn.agent = none) : step s = .next s.takeTurn := by
  simp [step, ha, hn]

/-- Until S5 is done a turn of SWITCH, IPG or HOST changes only the lines, and so does one of ENGINE until S4 is. -/
theorem Inv.step_before_done {s : State} (h : Inv s) (hb : s.boot ≠ .done) (hs : s.nextTurn.agent ≠ .startup)
    (he : s.nextTurn.agent = .engine → s.engLive = false) : step s = .next s.takeTurn := by
  cases hg : s.nextTurn.agent with
  | startup => exact absurd hg hs
  | engine =>
    refine step_of_selectorOf_eq_none h.admitted ?_
    rw [hg, selectorOf_takeTurn_eq_none, selectorOf_engine_eq_none]
    exact he hg
  | switch =>
    refine step_of_selectorOf_eq_none h.admitted ?_
    rw [hg, selectorOf_takeTurn_eq_none, selectorOf_switch_eq_none]
    exact fun hon => hb hon.1
  | ipg =>
    by_cases ha : s.cfg.ipgVariant = .autonomous
    · have hoff : ipgOp s.takeTurn.ipgState (syncSeen s.takeTurn) (widthDone s.takeTurn) =
          .ipgOff (syncSeen s.takeTurn) (widthDone s.takeTurn) := by
        rw [takeTurn_ipgState, h.stopped (.inl hb)]; rfl
      have hd := decode_ipgSelector s.takeTurn
      rw [hoff] at hd
      rw [step_eq_exec h.admitted (by rw [hg]; exact if_pos ha) hd, hg]
      rfl
    · refine step_of_selectorOf_eq_none h.admitted ?_
      rw [hg, selectorOf_takeTurn_eq_none, selectorOf_ipg_eq_none]
      exact ha
  | host => exact step_of_selectorOf_eq_none h.admitted (by rw [hg]; rfl)

/-- What holds before S4, with turns `us` still to come up to it, as many of STARTUP among them as there are boot steps
left before S4. -/
structure BeforeLaunch (c : Config) (us : List Turn) (s : State) : Prop where
  inv : Inv s
  cfg : s.cfg = c
  left : s.boot.left = 2 + (us.filter (fun u => u.agent == .startup)).length
  rested : s.boot = .s4 → Rested s ∧ EngineRested s

theorem BootStep.eq_s4_of_left {b : BootStep} (h : b.left = 2) : b = .s4 := by
  cases b with
  | s4 => rfl
  | s1 | s2 | s3 | s5 | done => cases h

theorem BootStep.eq_s3_of_succ {b : BootStep} (h : b.succ = .s4) : b = .s3 := by
  cases b with
  | s3 => rfl
  | s1 | s2 | s4 | s5 | done => cases h

section
variable {c : Config} {us : List Turn} {s : State}

theorem BeforeLaunch.withSched (h : BeforeLaunch c us s) (ts : List Turn) :
    BeforeLaunch c us { s with sched := ts } :=
  { h with
    inv := h.inv.withTurns _ _ _
    rested := fun h4 => (h.rested h4).imp (fun hr => { hr with }) (fun he => { he with }) }

/-- Before S4 a turn of STARTUP performs a boot step, S3 among them, and the other agents change only the lines. -/
theorem BeforeLaunch.turn (h : BeforeLaunch c (s.nextTurn :: us) s) :
    ∃ m, step s = .next m ∧ BeforeLaunch c us m := by
  obtain ⟨m, hm, hmi⟩ := h.inv.step_next
  obtain ⟨hcfg, hboot⟩ := step_cfg_boot hm
  have hleft := h.left
  refine ⟨m, hm, ?_⟩
  by_cases hg : s.nextTurn.agent = .startup
  · rw [if_pos hg] at hboot
    refine ⟨hmi, hcfg.trans h.cfg, ?_, fun h4 => ?_⟩
    · rw [List.filter_cons_of_pos (by simp [hg]), List.length_cons] at hleft
      rw [hboot, BootStep.left_succ]
      omega
    · have hs3 : s.boot = .s3 := BootStep.eq_s3_of_succ (hboot.symm.trans h4)
      have hstep := step_startup (i := .coreInit) h.inv.admitted hg (by rw [hs3]; rfl)
      exact rested_of_coreInit (hstep.symm.trans hm)
  · rw [if_neg hg] at hboot
    rw [List.filter_cons_of_neg (by simp [hg])] at hleft
    refine ⟨hmi, hcfg.trans h.cfg, hboot ▸ hleft, fun h4 => ?_⟩
    have hs4 : s.boot = .s4 := hboot.symm.trans h4
    have hstep := h.inv.step_before_done (by simp [hs4]) hg fun _ => h.inv.live.trans (by rw [hs4]; rfl)
    obtain rfl := Host.Outcome.next.inj (hm.symm.trans hstep)
    exact (h.rested hs4).imp (fun hr => { hr with }) (fun he => { he with })

/-- What holds between S4 and S5, with turns `us` still to come up to S5; `quiet` says that ENGINE takes none of the
turns between. -/
structure BetweenLaunches (c : Config) (quiet : Prop) (us : List Turn) (s : State) : Prop where
  inv : Inv s
  cfg : s.cfg = c
  boot : s.boot = .s5
  rested : Rested s
  others : ∀ u ∈ us, u.agent ≠ .startup
  engine : quiet → (∀ u ∈ us, u.agent ≠ .engine) ∧ EngineRested s

/-- S4. -/
theorem BeforeLaunch.launch (h : BeforeLaunch c [] s) (hg : s.nextTurn.agent = .startup)
    (hus : ∀ u ∈ us, u.agent ≠ .startup) :
    ∃ m, step s = .next m ∧ BetweenLaunches c (∀ u ∈ us, u.agent ≠ .engine) us m := by
  have h4 : s.boot = .s4 := BootStep.eq_s4_of_left h.left
  have hstep := step_startup (i := .engLaunch) h.inv.admitted hg (by rw [h4]; rfl)
  obtain ⟨hr, he⟩ := h.rested h4
  exact ⟨_, hstep,
    { inv := h.inv.of_step hstep
      cfg := h.cfg
      boot := congrArg BootStep.succ h4
      rested := { hr with }
      others := hus
      engine := fun hq => ⟨hq, { he with }⟩ }⟩

variable {quiet : Prop}

theorem BetweenLaunches.withSched (h : BetweenLaunches c quiet us s) (ts : List Turn) :
    BetweenLaunches c quiet us { s with sched := ts } :=
  { h with
    inv := h.inv.withTurns _ _ _
    rested := { h.rested with }
    engine := fun hq => (h.engine hq).imp id fun he => { he with } }

/-- Between S4 and S5 only ENGINE writes, and only its own elements (R215). -/
theorem BetweenLaunches.turn (h : BetweenLaunches c quiet (s.nextTurn :: us) s) :
    ∃ m, step s = .next m ∧ BetweenLaunches c quiet us m := by
  obtain ⟨hg, hothers⟩ := List.forall_mem_cons.1 h.others
  obtain ⟨m, hm, hmi⟩ := h.inv.step_next
  obtain ⟨hcfg, hboot⟩ := step_cfg_boot hm
  rw [if_neg hg] at hboot
  by_cases he : s.nextTurn.agent = .engine
  · exact ⟨m, hm,
      { inv := hmi
        cfg := hcfg.trans h.cfg
        boot := hboot.trans h.boot
        rested := Rested.engine (s := s.takeTurn) { h.rested with } (.of_step hm he)
        others := hothers
        engine := fun hq => absurd he ((h.engine hq).1 _ List.mem_cons_self) }⟩
  · have hstep := h.inv.step_before_done (by simp [h.boot]) hg fun hg => absurd hg he
    exact ⟨_, hstep,
      { inv := h.inv.takeTurn
        cfg := h.cfg
        boot := h.boot
        rested := { h.rested with }
        others := hothers
        engine := fun hq => (h.engine hq).imp (fun hno => (List.forall_mem_cons.1 hno).2) fun he => { he with } }⟩

/-- The values of R39 after S5, the turn of S5 having put the levels `l` on the lines; `quiet` as above. -/
structure Booted (c : Config) (quiet : Prop) (l : Nat) (t : State) : Prop where
  inv : Inv t
  cfg : t.cfg = c
  boot : t.boot = .done
  rested : Rested t
  engine : quiet → EngineRested t
  pulse : c.ipgVariant = .autonomous → t.ipgState = .armed ∧ t.intPrev = wordLevel c l c.lInt

/-- S5. -/
theorem BetweenLaunches.start {l : Nat} (h : BetweenLaunches c quiet [] s) (hg : s.nextTurn = ⟨.startup, l⟩) :
    ∃ t, step s = .next t ∧ Booted c quiet l t := by
  obtain ⟨t, ht, hti⟩ := h.inv.step_next
  have hr := h.rested
  have hexec := (step_startup (i := .ipgStart) h.inv.admitted (by rw [hg]) (by rw [h.boot]; rfl)).symm.trans ht
  refine ⟨t, ht, ?_⟩
  obtain ⟨ha, rfl⟩ | ⟨ha, rfl⟩ := exec_ipgStart_cases hexec
  · exact
      { inv := hti
        cfg := h.cfg
        boot := congrArg BootStep.succ h.boot
        rested := { hr with wCnt := rfl, pulse := fun hv => ⟨rfl, (hr.pulse hv).2⟩ }
        engine := fun hq => { (h.engine hq).2 with nmiOut := rfl }
        pulse := fun _ => ⟨rfl, by rw [← h.cfg]; exact congrArg (fun u => wordLevel s.cfg u.lines s.cfg.lInt) hg⟩ }
  · exact
      { inv := hti
        cfg := h.cfg
        boot := congrArg BootStep.succ h.boot
        rested := { hr with }
        engine := fun hq => { (h.engine hq).2 with }
        pulse := fun hv => absurd (h.cfg ▸ hv) ha }

end

/-- R95, R97: the closed form of the table puts bit k of the pattern at `sigma(k)`. -/
theorem getLsbD_aitEntry_sigma {c : Config} (hc : c.Admits) (r : Packed) {k : Nat} (hk : k < 14) :
    (aitEntry c r).getLsbD (sigma c k) = r.getLsbD k := by
  have hlen : k < c.packPos.toList.length := by simpa using hk
  have haddr := (hc.pack_mem _).1 (getD_mem hlen)
  have hi : c.addrLine.toList.idxOf (c.packPos.toList.getD k 0) < 14 := by
    simpa using List.idxOf_lt_length_iff.2 haddr
  rw [getLsbD_aitEntry, sigma, getD_idxOf haddr, idxOf_getD hc.pack_nodup hlen, decide_eq_true hi, Bool.true_and]

/-- S1 to S5 performed, with the turns of other agents between them. -/
theorem PoweredOn.boots {s : State} {first second : List Turn} (l4 l5 : Nat) (h : PoweredOn s)
    (hfirst : (first.filter (fun u => u.agent == .startup)).length = 3) (hsecond : ∀ u ∈ second, u.agent ≠ .startup) :
    ∃ t, runTurns (first ++ ⟨.startup, l4⟩ :: (second ++ [⟨.startup, l5⟩])) s = .next t ∧
      Booted s.cfg (∀ u ∈ second, u.agent ≠ .engine) l5 t := by
  obtain ⟨hinv, hs1⟩ := h
  have h0 : BeforeLaunch s.cfg first s := ⟨hinv, rfl, by rw [hs1, hfirst]; rfl, by simp [hs1]⟩
  obtain ⟨m₁, h₁, hrun₁⟩ := runTurns_append_of_kept (fun _ _ ts h => h.withSched ts) (fun _ _ h => h.turn) first
    (⟨.startup, l4⟩ :: (second ++ [⟨.startup, l5⟩])) h0
  obtain ⟨m₂, hstep₂, h₂⟩ := (h₁.withSched (⟨.startup, l4⟩ :: (second ++ [⟨.startup, l5⟩]))).launch rfl hsecond
  obtain ⟨m₃, h₃, hrun₃⟩ := runTurns_append_of_kept (fun _ _ ts h => h.withSched ts) (fun _ _ h => h.turn) second
    [⟨.startup, l5⟩] h₂
  obtain ⟨t, hstep₄, ht⟩ := (h₃.withSched [⟨.startup, l5⟩]).start rfl
  refine ⟨t, ?_, ht⟩
  calc
    runTurns (first ++ ⟨.startup, l4⟩ :: (second ++ [⟨.startup, l5⟩])) s
      = runTurns (⟨.startup, l4⟩ :: (second ++ [⟨.startup, l5⟩])) m₁ := hrun₁
    _ = runTurns (second ++ [⟨.startup, l5⟩]) m₂ := runTurns_cons hstep₂
    _ = runTurns [⟨.startup, l5⟩] m₃ := hrun₃
    _ = .next t := runTurns_singleton hstep₄

/-- Settles O58: the table and the banks by the invariant, the registers by what the boot steps and ENGINE write. -/
theorem bootReachesTheResetState : Obligations.BootReachesTheResetState := by
  unfold Obligations.BootReachesTheResetState
  intro s first second l4 l5 h hfirst hsecond
  obtain ⟨t, hrun, ht⟩ := h.boots l4 l5 hfirst hsecond
  have hinv := ht.inv
  have hr := ht.rested
  rw [← ht.cfg]
  refine ⟨t, hrun, ht.boot, hinv.live.trans (by rw [ht.boot]; rfl), rfl, fun r k hk => ?_, ?_, hr.resetOut, hr.swState,
    hr.btnState, hr.dbCnt, hr.tmrArmed, hr.wCnt, ?_, fun ha => hinv.stopped (.inr ha), hr.selector, hr.pulse,
    fun hq => ?_⟩
  · rw [hinv.table (by simp [ht.boot]), getLsbD_aitEntry_sigma (Config.admits_of_admitted hinv.admitted) r hk]
  · exact hinv.images_of (logical := false) (by rw [ht.boot]; rfl)
  · rw [ht.cfg]; exact ht.pulse
  · have he := ht.engine hq
    exact ⟨he.curImg, he.engState, he.nmiPrev, he.nmiOut⟩

end Sys2Proof.Machine
end

section
/-!
Progress (spec/60_exceptions.md R190): the invariant rules out every stop of the model.
-/

namespace Sys2Proof.Machine

/-- Settles O41: agent by agent the selector formed is not reserved and its operation has a result
(`Inv.performs`). -/
theorem neverStuck : Obligations.NeverStuck := by
  unfold Obligations.NeverStuck
  intro s h
  obtain ⟨t, ht, -⟩ := h.step_next
  exact ⟨t, ht⟩

end Sys2Proof.Machine
end

section
/-!
SUPPORT. A serve whose snapshot carries an address (spec/40_line_maps_and_tables.md R92 to R103,
spec/41_bus_response_engine.md R114): the lookup answers that address, and what the data lines show of a byte in line
form is the logical byte.
-/

namespace Sys2Proof.Machine

/-- R9(e): an address line is one of the W input lines. -/
theorem addrLine_lt {c : Config} (hc : c.Admits) {l : Nat} (h : l ∈ c.addrLine.toList) : l < c.w :=
  hc.named_lt _ (by simp only [Config.namedLines, List.append_assoc]; exact List.mem_append_left _ h)

/-- R9(e): a data line is one of the W input lines. -/
theorem dataLine_lt {c : Config} (hc : c.Admits) {l : Nat} (h : l ∈ c.dataLine.toList) : l < c.w :=
  hc.named_lt _ (by
    simp only [Config.namedLines, List.append_assoc]
    exact List.mem_append_right _ (List.mem_append_left _ h))

/-- R92: every packed position is an address line, so the other lines do not reach the pattern. -/
theorem pack_and_addrMask {c : Config} (hc : c.Admits) (w : BitVec c.w) : pack c (w &&& addrMask c) = pack c w := by
  refine BitVec.eq_of_getLsbD_eq fun k hk => ?_
  have haddr : c.packPos.toList.getD k 0 ∈ c.addrLine.toList := (hc.pack_mem _).1 (getD_mem (by simpa using hk))
  have hmask : (addrMask c).getLsbD (c.packPos.toList.getD k 0) = true := by
    rw [getLsbD_addrMask, decide_eq_true (addrLine_lt hc haddr), List.contains_iff_mem.2 haddr, Bool.true_and]
  rw [getLsbD_pack, getLsbD_pack, BitVec.getLsbD_and, hmask, Bool.and_true]

/-- R96: once S1 has built the table, the lookup of a snapshot answers the address its lines carry. -/
theorem Inv.lookup_of_carries {s : State} {a : Addr} (h : Inv s) (hb : s.boot ≠ .s1) (ha : Carries s a) :
    lookup s (pack s.cfg (sample s)) = a := by
  have hc := Config.admits_of_admitted h.admitted
  have hlines : sample s &&& addrMask s.cfg = scatter s.cfg a := ha
  calc lookup s (pack s.cfg (sample s))
      = aitEntry s.cfg (pack s.cfg (sample s)) := h.table hb _
    _ = aitEntry s.cfg (pack s.cfg (scatter s.cfg a)) := by rw [← pack_and_addrMask hc, hlines]
    _ = a := aitEntry_pack_scatter hc a

/-- R103: bit i of a logical byte is the level its line form puts on `DATA_LINE[i]`. -/
theorem getLsbD_place_preconv {c : Config} (hc : c.Admits) (b : Byte) {i : Nat} (hi : i < 8) :
    (place c (preconv c b)).getLsbD (c.dataLine.toList.getD i 0) = b.getLsbD i := by
  have hlen : i < c.dataLine.toList.length := by simpa using hi
  have hline : c.dataLine.toList.getD i 0 ∈ c.dataLine.toList := getD_mem hlen
  have hslot := (hc.slot_mem _).2 hline
  have hj : c.dataSlot.toList.idxOf (c.dataLine.toList.getD i 0) < 8 := by
    simpa using List.idxOf_lt_length_iff.2 hslot
  have hw : c.dataLine.toList.getD i 0 < c.w := dataLine_lt hc hline
  rw [getLsbD_place, getLsbD_preconv, getD_idxOf hslot, idxOf_getD hc.data_nodup hlen]
  simp only [hj, hw, decide_true, Bool.true_and]

/-- R103, R232: while the line form of a byte is driven, the host reads the byte itself. -/
theorem hostByte_of_preconv {s : State} {b : Byte} (hc : s.cfg.Admits) (h : s.dataOut = preconv s.cfg b) :
    hostByte s = b := by
  refine BitVec.eq_of_getLsbD_eq fun i hi => ?_
  rw [getLsbD_hostByte, decide_eq_true hi, Bool.true_and, dataLines, h, getLsbD_place_preconv hc b hi]

/-- R114: a serve of the address the lines carry drives the byte of the slot it reads. -/
theorem Inv.serve_of_read {s : State} {a : Addr} {b : Byte} (h : Inv s) (hl : s.engLive = true) (ha : Carries s a)
    (hslot : serveSlot s a < slotCount s.cfg) (hb : imgRead s (serveSlot s a) a = some b) :
    exec .breServe s = .next (served s a b) := by
  have hboot : s.boot ≠ .s1 := fun hs1 => by simp [h.live, hs1, BootStep.engineLive] at hl
  exact execBreServe_of_fetchByte (h.lookup_of_carries hboot ha) (fetchByte_of_read hslot hb)

/-- With `SWITCH_SOURCE = button` a serve reads the selected slot: there is no trigger (R114). -/
theorem serveSlot_button {s : State} (h : s.cfg.switchSource = .button) (a : Addr) : serveSlot s a = s.curImg := by
  simp [serveSlot, h]

/-- Settles O53: the two-phase variant has the button, so the serve reads the selected slot, which is the label slot and
holds the label of the upcoming bank whole (`Steady.label_shown`). -/
theorem labelIsServedWhileSelected : Obligations.LabelIsServedWhileSelected := by
  unfold Obligations.LabelIsServedWhileSelected
  intro s a h hl h2 hmay ha
  have hc := Config.admits_of_admitted h.admitted
  obtain ⟨hcur, -, hlabel⟩ := (h.steady (h.initialised_of_engLive hl)).label_shown h2 hmay
  have hslot : serveSlot s a = s.cfg.n := (serveSlot_button (hc.two_phase h2) a).trans hcur
  have hserve := h.serve_of_read hl ha (by simp [hslot, slotCount, h2]) (hslot ▸ hlabel a)
  exact ⟨_, hserve, rfl, hostByte_of_preconv hc rfl⟩

end Sys2Proof.Machine
end

section
/-!
SUPPORT. The selector words by their fields (spec/30_encoding.md R75 to R79, R81): the word of each control state and
condition bits, the operation it names, and the reserved words (R82).
-/

namespace Sys2Proof.Machine

/-- An ENG word from its fields (R76). -/
def engWord (st : BitVec 2) (rd we : Bool) : BitVec 4 := st ++ bit rd ++ bit we

/-- An SWF word from its fields (R77). -/
def swfWord (v : Bool) (st : BitVec 3) (btn x : Bool) : BitVec 6 := bit v ++ st ++ bit btn ++ bit x

/-- An IPG word from its fields (R78). -/
def ipgWord (st : BitVec 2) (e x : Bool) : BitVec 4 := st ++ bit e ++ bit x

theorem engSelector_eq (s : State) :
    engSelector s = engWord s.engState.code (level s s.cfg.lRd) (weLevel s) := rfl

theorem swfSelector_eq (s : State) :
    swfSelector s = swfWord (variantBit s) s.swState.code (btn s) (swExpiry s) := rfl

theorem ipgSelector_eq (s : State) :
    ipgSelector s = ipgWord s.ipgState.code (syncSeen s) (widthDone s) := rfl

theorem engWord_fields : ∀ w : BitVec 4, engWord (w.extractLsb' 2 2) (w.getLsbD 1) (w.getLsbD 0) = w := by decide

theorem swfWord_fields :
    ∀ w : BitVec 6, swfWord (w.getLsbD 5) (w.extractLsb' 2 3) (w.getLsbD 1) (w.getLsbD 0) = w := by decide

theorem ipgWord_fields : ∀ w : BitVec 4, ipgWord (w.extractLsb' 2 2) (w.getLsbD 1) (w.getLsbD 0) = w := by decide

/-- Every code but 11 is that of a state of ENGINE (R75). -/
theorem code_engOf : ∀ st : BitVec 2, st ≠ 0b11#2 → (engOf st).code = st := by decide

/-- Every code but 011 and 111 is that of a state of SWITCH (R75). -/
theorem code_swOf : ∀ st : BitVec 3, st ≠ 0b011#3 → st ≠ 0b111#3 → (swOf st).code = st := by decide

/-- Every code but 11 is that of a state of IPG (R75). -/
theorem code_ipgOf : ∀ st : BitVec 2, st ≠ 0b11#2 → (ipgOf st).code = st := by decide

theorem decode_engWord (st : EngState) (rd we : Bool) :
    decode (.eng (engWord st.code rd we)) = .ok (engineOp st rd we) := by
  cases st <;> cases rd <;> cases we <;> rfl

theorem encode_engineOp (st : EngState) (rd we : Bool) :
    encode (engineOp st rd we) = .eng (engWord st.code rd we) := by
  cases st <;> cases rd <;> cases we <;> rfl

theorem wellFormed_engineOp (st : EngState) (rd we : Bool) : (engineOp st rd we).wellFormed = true := by
  cases st <;> cases rd <;> cases we <;> rfl

theorem decode_ipgWord (st : IpgState) (e x : Bool) :
    decode (.ipg (ipgWord st.code e x)) = .ok (ipgOp st e x) := by
  cases st <;> cases e <;> cases x <;> rfl

theorem encode_ipgOp (st : IpgState) (e x : Bool) : encode (ipgOp st e x) = .ipg (ipgWord st.code e x) := by
  cases st <;> cases e <;> cases x <;> rfl

theorem wellFormed_ipgOp (st : IpgState) (e x : Bool) : (ipgOp st e x).wellFormed = true := by
  cases st <;> cases e <;> cases x <;> rfl

/-- The operation of SWITCH in a state its variant has (R81). -/
def switchInstr (v : Bool) (st : SwState) (btn x : Bool) : Instr :=
  match st with
  | .idle => if btn then .swDetect v x else .swIdle v x
  | .debouncing =>
    if btn then (if x then (if v then .swQlabel else .swQualify) else .swCount v) else .swBounce v x
  | .swHold => if btn then .swHold v x else .swUnpress v x
  | .swSettle => if x then (if v then .swShowlabel btn else .swRelease btn) else .swTick v .swSettle btn
  | .labelShow => if x then .swRealswitch btn else .swTick v .labelShow btn
  | .finalHold => if x then .swFinalrel btn else .swTick v .finalHold btn

section
variable {v btn x : Bool} {st : SwState} (h : st = .labelShow ∨ st = .finalHold → v = true)
include h

theorem decode_swfWord : decode (.swf (swfWord v st.code btn x)) = .ok (switchInstr v st btn x) := by
  obtain ⟨i, hi⟩ := switchOp_ok (b := btn) (x := x) h
  refine Eq.trans hi (congrArg _ ?_)
  obtain ⟨rfl, rfl, rfl⟩ | ⟨rfl, rfl, rfl⟩ | ⟨rfl, rfl, rfl, rfl⟩ | ⟨rfl, rfl, rfl⟩ | ⟨rfl, rfl, rfl, rfl, rfl⟩ |
    ⟨rfl, rfl, rfl, rfl, rfl⟩ | ⟨rfl, rfl, rfl⟩ | ⟨rfl, rfl, rfl⟩ | ⟨rfl, rfl, rfl⟩ | ⟨rfl, rfl, rfl, rfl⟩ |
    ⟨rfl, rfl, rfl, rfl⟩ | ⟨rfl, rfl, rfl, rfl⟩ | ⟨rfl, rfl, rfl, rfl⟩ | ⟨rfl, rfl, rfl, rfl⟩ |
    ⟨rfl, rfl, rfl, rfl⟩ := switchOp_cases hi <;> rfl

theorem encode_switchInstr : encode (switchInstr v st btn x) = .swf (swfWord v st.code btn x) := by
  cases st with
  | idle | debouncing | swHold | swSettle => cases v <;> cases btn <;> cases x <;> rfl
  | labelShow | finalHold => obtain rfl := h (by simp); cases btn <;> cases x <;> rfl

theorem wellFormed_switchInstr : (switchInstr v st btn x).wellFormed = true := by
  cases st with
  | idle | debouncing | swHold | swSettle => cases v <;> cases btn <;> cases x <;> rfl
  | labelShow | finalHold => obtain rfl := h (by simp); cases btn <;> cases x <;> rfl

theorem decode_encode_switchInstr : decode (encode (switchInstr v st btn x)) = .ok (switchInstr v st btn x) := by
  rw [encode_switchInstr h, decode_swfWord h]

end

theorem decode_encode_engineOp (st : EngState) (rd we : Bool) :
    decode (encode (engineOp st rd we)) = .ok (engineOp st rd we) := by
  rw [encode_engineOp, decode_engWord]

theorem decode_encode_ipgOp (st : IpgState) (e x : Bool) :
    decode (encode (ipgOp st e x)) = .ok (ipgOp st e x) := by
  rw [encode_ipgOp, decode_ipgWord]

/-- The reserved selector values (R82). -/
def IsReserved : Selector → Prop
  | .boot w => w = 0 ∨ w = 6 ∨ w = 7
  | .eng w => w.extractLsb' 2 2 = 0b11#2
  | .swf w => w.extractLsb' 2 3 = 0b011#3 ∨ w.extractLsb' 2 3 = 0b111#3 ∨
      (w.getLsbD 5 = false ∧ (w.extractLsb' 2 3 = 0b101#3 ∨ w.extractLsb' 2 3 = 0b110#3))
  | .ipg w => w.extractLsb' 2 2 = 0b11#2

/-- A selector names one operation: it decodes to a well-formed one whose word it is (R81). -/
structure Names (w : Selector) (i : Instr) : Prop where
  decode_eq : decode w = .ok i
  encode_eq : encode i = w
  wellFormed : i.wellFormed = true

theorem names_eng {w : BitVec 4} (h : ¬IsReserved (.eng w)) : ∃ i, Names (.eng w) i := by
  rw [← engWord_fields w, ← code_engOf _ h]
  exact ⟨_, decode_engWord .., encode_engineOp .., wellFormed_engineOp ..⟩

theorem names_swf {w : BitVec 6} (h : ¬IsReserved (.swf w)) : ∃ i, Names (.swf w) i := by
  simp only [IsReserved, not_or, not_and] at h
  obtain ⟨h3, h7, hv⟩ := h
  have hcode := code_swOf _ h3 h7
  have htwo (hst : swOf (w.extractLsb' 2 3) = .labelShow ∨ swOf (w.extractLsb' 2 3) = .finalHold) :
      w.getLsbD 5 = true := by
    by_contra hne
    obtain ⟨h5, h6⟩ := hv (Bool.eq_false_of_not_eq_true hne)
    obtain hst | hst := hst <;> rw [hst] at hcode
    · exact h5 hcode.symm
    · exact h6 hcode.symm
  rw [← swfWord_fields w, ← hcode]
  exact ⟨_, decode_swfWord htwo, encode_switchInstr htwo, wellFormed_switchInstr htwo⟩

theorem names_ipg {w : BitVec 4} (h : ¬IsReserved (.ipg w)) : ∃ i, Names (.ipg w) i := by
  rw [← ipgWord_fields w, ← code_ipgOf _ h]
  exact ⟨_, decode_ipgWord .., encode_ipgOp .., wellFormed_ipgOp ..⟩

/-- Every ordinal but 0, 6 and 7 is that of a boot step (R79). -/
theorem ordinal_bootOf :
    ∀ w : BitVec 3, ¬(w = 0 ∨ w = 6 ∨ w = 7) → (bootOf w).ordinal = some w := by decide

theorem names_of_ordinal {b : BootStep} {w : BitVec 3} (h : b.ordinal = some w) : ∃ i, Names (.boot w) i := by
  cases b <;> cases h <;> exact ⟨_, rfl, rfl, rfl⟩

/-- Every selector that is not reserved names an operation. -/
theorem names_of_not_reserved {w : Selector} (h : ¬IsReserved w) : ∃ i, Names w i := by
  cases w with
  | boot w => exact names_of_ordinal (ordinal_bootOf w h)
  | eng w => exact names_eng h
  | swf w => exact names_swf h
  | ipg w => exact names_ipg h

theorem decode_of_reserved {w : Selector} (h : IsReserved w) : ∃ r, decode w = .error r := by
  cases w with
  | boot w => obtain rfl | rfl | rfl := h <;> exact ⟨_, rfl⟩
  | eng w => exact ⟨.engState w, by simp [decode, decodeEng, show w.extractLsb' 2 2 = 0b11#2 from h]⟩
  | swf w =>
    obtain h | h | ⟨hv, h⟩ := h
    · exact ⟨.swfState w, if_pos (.inl h)⟩
    · exact ⟨.swfState w, if_pos (.inr h)⟩
    · refine ⟨.swfVariant w, (if_neg ?_).trans (if_pos ⟨hv, h⟩)⟩
      obtain h | h := h <;> rw [h] <;> decide
  | ipg w => exact ⟨.ipgState w, by simp [decode, decodeIpg, show w.extractLsb' 2 2 = 0b11#2 from h]⟩

/-- A selector that decodes names the operation it decodes to. -/
theorem names_of_decode {w : Selector} {i : Instr} (h : decode w = .ok i) : Names w i := by
  have hw : ¬IsReserved w := fun hr => by
    obtain ⟨r, he⟩ := decode_of_reserved hr
    exact nomatch h.symm.trans he
  obtain ⟨j, hj⟩ := names_of_not_reserved hw
  obtain rfl : i = j := Except.ok.inj (h.symm.trans hj.decode_eq)
  exact hj

/-- The decoder refuses a selector exactly when it is reserved (R82). -/
theorem decode_eq_error_iff {w : Selector} : (∃ r, decode w = .error r) ↔ IsReserved w := by
  refine ⟨fun ⟨r, he⟩ => ?_, decode_of_reserved⟩
  by_contra hw
  obtain ⟨i, hi⟩ := names_of_not_reserved hw
  exact nomatch hi.decode_eq.symm.trans he

end Sys2Proof.Machine
end

section
/-!
The encoding (spec/30_encoding.md R76 to R82): decoder and encoder are inverse to each other, the decoder refuses the
reserved words and no other, and no agent forms one.
-/

namespace Sys2Proof.Machine

/-- Settles O1: each operation is that of a control state and condition bits of its agent, whose word both decoder and
encoder know by its fields. -/
theorem decodeOfEncode : Obligations.DecodeOfEncode := by
  unfold Obligations.DecodeOfEncode
  intro i hwf
  cases i with
  | aitBuild | romPreconv | coreInit | engLaunch | ipgStart => rfl
  | brePoll we => exact decode_encode_engineOp .waiting true we
  | breServe => exact decode_encode_engineOp .waiting false true
  | breSkipwr => exact decode_encode_engineOp .waiting false false
  | breHold we => exact decode_encode_engineOp .driving false we
  | breRelease we => exact decode_encode_engineOp .driving true we
  | breSkiphold we => exact decode_encode_engineOp .skipping false we
  | breSkipend we => exact decode_encode_engineOp .skipping true we
  | swIdle v x => exact decode_encode_switchInstr (st := .idle) (btn := false) (by simp)
  | swDetect v x => exact decode_encode_switchInstr (st := .idle) (btn := true) (by simp)
  | swCount v => exact decode_encode_switchInstr (st := .debouncing) (btn := true) (x := false) (by simp)
  | swBounce v x => exact decode_encode_switchInstr (st := .debouncing) (btn := false) (by simp)
  | swQualify =>
    exact decode_encode_switchInstr (v := false) (st := .debouncing) (btn := true) (x := true) (by simp)
  | swQlabel => exact decode_encode_switchInstr (v := true) (st := .debouncing) (btn := true) (x := true) (by simp)
  | swHold v x => exact decode_encode_switchInstr (st := .swHold) (btn := true) (by simp)
  | swUnpress v x => exact decode_encode_switchInstr (st := .swHold) (btn := false) (by simp)
  | swTick v ss btn =>
    cases ss with
    | swSettle => exact decode_encode_switchInstr (st := .swSettle) (x := false) (by simp)
    | labelShow => exact decode_encode_switchInstr (st := .labelShow) (x := false) fun _ => hwf
    | finalHold => exact decode_encode_switchInstr (st := .finalHold) (x := false) fun _ => hwf
  | swRelease btn => exact decode_encode_switchInstr (v := false) (st := .swSettle) (x := true) (by simp)
  | swShowlabel btn => exact decode_encode_switchInstr (v := true) (st := .swSettle) (x := true) (by simp)
  | swRealswitch btn => exact decode_encode_switchInstr (v := true) (st := .labelShow) (x := true) (by simp)
  | swFinalrel btn => exact decode_encode_switchInstr (v := true) (st := .finalHold) (x := true) (by simp)
  | ipgOff e x => exact decode_encode_ipgOp .stopped e x
  | ipgWait x => exact decode_encode_ipgOp .armed false x
  | ipgSync x => exact decode_encode_ipgOp .armed true x
  | ipgHold e => exact decode_encode_ipgOp .asserted e false
  | ipgEnd e => exact decode_encode_ipgOp .asserted e true

/-- Settles O2. -/
theorem encodeOfDecode : Obligations.EncodeOfDecode := by
  unfold Obligations.EncodeOfDecode
  exact fun _ _ h => ⟨(names_of_decode h).encode_eq, (names_of_decode h).wellFormed⟩

/-- Settles O5: under the invariant an agent performs an operation (`Inv.performs`), so its selector decodes. -/
theorem formedSelectorDecodes : Obligations.FormedSelectorDecodes := by
  unfold Obligations.FormedSelectorDecodes
  intro s g w h hw
  obtain ⟨i, -, hd, -⟩ := h.performs hw
  obtain ⟨-, hword, hwf⟩ := names_of_decode hd
  exact ⟨i, hd, hwf, hword⟩

/-- Settles O3. -/
theorem reservedSelectorsRefused : Obligations.ReservedSelectorsRefused := by
  unfold Obligations.ReservedSelectorsRefused
  exact ⟨fun _ => decode_eq_error_iff, fun _ => decode_eq_error_iff, fun _ => decode_eq_error_iff,
    fun _ => decode_eq_error_iff⟩

/-- Settles O4: each of the words is the encoder's word of its operation (O1). -/
theorem specWordsDecode : Obligations.SpecWordsDecode := by
  unfold Obligations.SpecWordsDecode
  exact ⟨decodeOfEncode .aitBuild rfl, decodeOfEncode .ipgStart rfl, decodeOfEncode .breServe rfl,
    decodeOfEncode (.breRelease true) rfl, decodeOfEncode .swQualify rfl, decodeOfEncode .swQlabel rfl,
    decodeOfEncode (.swTick true .labelShow false) rfl, decodeOfEncode (.swShowlabel false) rfl,
    decodeOfEncode (.ipgSync false) rfl, decodeOfEncode (.ipgEnd false) rfl⟩

/-- Under the invariant an agent that has a step performs exactly one operation, of its own format (R81). -/
theorem Inv.performs_one {s : State} (h : Inv s) {g : Agent} {f : Format} (hg : selectorOf s g ≠ none)
    (hf : agentFormat g = some f) :
    ∃ i, Performs g s i ∧ (rowOf i).format = f ∧ ∀ j, Performs g s j → j = i := by
  obtain ⟨w, hw⟩ := Option.ne_none_iff_exists'.1 hg
  obtain ⟨i, -, hd, -⟩ := h.performs hw
  have hp : Performs g s i := ⟨w, hw, hd⟩
  exact ⟨i, hp, Option.some.inj ((format_of_performs hp).symm.trans hf), fun j hj => performs_unique hj hp⟩

/-- Settles O42. -/
theorem agentsAlwaysHaveOneOperation : Obligations.AgentsAlwaysHaveOneOperation := by
  unfold Obligations.AgentsAlwaysHaveOneOperation
  refine fun s h => ⟨fun hl => h.performs_one ?_ rfl, fun hd hb => h.performs_one ?_ rfl,
    fun ha => h.performs_one ?_ rfl⟩
  · simp [selectorOf_engine_eq_none, hl]
  · simp [selectorOf_switch_eq_none, hd, hb]
  · simp [selectorOf_ipg_eq_none, ha]

end Sys2Proof.Machine
end

section
/-!
The data lines (spec/40_line_maps_and_tables.md R103, spec/41_bus_response_engine.md R114, R115): what a drive changes,
and what a serve puts on them.
-/

namespace Sys2Proof.Machine

theorem getLsbD_dataMask {c : Config} {l : Nat} :
    (dataMask c).getLsbD l = (decide (l < c.w) && c.dataSlot.toList.contains l) := getLsbD_ofBits

/-- R9(d), R9(e): a data slot is one of the W lines. -/
theorem dataSlot_lt {c : Config} (hc : c.Admits) {l : Nat} (h : l ∈ c.dataSlot.toList) : l < c.w :=
  dataLine_lt hc ((hc.slot_mem l).1 h)

/-- The drive as a word operation (R115): the old levels off the data slots, the byte on them. -/
def driven (c : Config) (out : BitVec c.w) (b : Byte) : BitVec c.w := (out &&& ~~~dataMask c) ||| place c b

/-- R115: a data slot gets its bit of the byte. -/
theorem getLsbD_driven_of_mem {c : Config} (hc : c.Admits) {out : BitVec c.w} {b : Byte} {l : Nat}
    (h : l ∈ c.dataSlot.toList) : (driven c out b).getLsbD l = b.getLsbD (c.dataSlot.toList.idxOf l) := by
  rw [driven, BitVec.getLsbD_or, BitVec.getLsbD_and, BitVec.getLsbD_not, getLsbD_dataMask, getLsbD_place,
    List.contains_iff_mem.2 h, decide_eq_true (dataSlot_lt hc h)]
  simp only [Bool.and_true, Bool.not_true, Bool.and_false, Bool.false_or, Bool.true_and]

/-- R115: every other line keeps its level. -/
theorem getLsbD_driven_of_not_mem {c : Config} {out : BitVec c.w} {b : Byte} {l : Nat}
    (h : l ∉ c.dataSlot.toList) : (driven c out b).getLsbD l = out.getLsbD l := by
  have hplace : b.getLsbD (c.dataSlot.toList.idxOf l) = false := by
    rw [List.idxOf_eq_length h]
    exact BitVec.getLsbD_of_ge _ _ (by simp)
  have hmask : (dataMask c).getLsbD l = false := by simp [getLsbD_dataMask, h]
  rw [driven, BitVec.getLsbD_or, BitVec.getLsbD_and, BitVec.getLsbD_not, hmask, getLsbD_place, hplace]
  simpa using BitVec.lt_of_getLsbD

/-- Settles O38: line by line, `DATA_SLOT` being injective. -/
theorem driveTouchesOnlyDataLines : Obligations.DriveTouchesOnlyDataLines := by
  unfold Obligations.DriveTouchesOnlyDataLines
  intro c ha out b
  have hc := Config.admits_of_admitted ha
  refine ⟨fun j hj => ?_, fun l hl => getLsbD_driven_of_not_mem hl⟩
  have hlen : j < c.dataSlot.toList.length := by simpa using hj
  calc (driven c out b).getLsbD (c.dataSlot.toList.getD j 0)
      = b.getLsbD (c.dataSlot.toList.idxOf (c.dataSlot.toList.getD j 0)) := getLsbD_driven_of_mem hc (getD_mem hlen)
    _ = b.getLsbD j := by rw [idxOf_getD hc.slot_nodup hlen]

/-- R99, R100, R102: once ENGINE is launched, every byte of a bank is in line form. -/
theorem Inv.bank_of_engLive {s : State} (h : Inv s) (hl : s.engLive = true) {b : Nat} (hb : b < s.cfg.n) (a : Addr) :
    imgRead s b a = some (preconv s.cfg (romLogical s.cfg b a)) := by
  have hlog : s.boot.logicalImages = false := by
    rw [h.live] at hl
    cases hboot : s.boot with
    | s5 | done => rfl
    | s1 | s2 | s3 | s4 => simp [hboot, BootStep.engineLive] at hl
  exact h.images_of hlog b hb a

/-- Settles O48: the serve drives the line form of the logical byte (`Inv.bank_of_engLive`), which the host reads as
the logical byte (`getLsbD_place_preconv`). -/
theorem serveDrivesTheLogicalByte : Obligations.ServeDrivesTheLogicalByte := by
  unfold Obligations.ServeDrivesTheLogicalByte
  intro s a h hl ha c hcn
  have hslot : serveSlot s a < s.cfg.n := hcn
  have hserve := h.serve_of_read hl ha (hslot.trans_le (n_le_slotCount _)) (h.bank_of_engLive hl hslot a)
  exact ⟨_, hserve, fun i hi => getLsbD_place_preconv (Config.admits_of_admitted h.admitted) _ hi⟩

end Sys2Proof.Machine
end

section
/-!
The line maps (spec/40_line_maps_and_tables.md R91 to R98): where a line of one map stands in another map of the same
lines, and so that sigma, P and the table are permutations.
-/

namespace Sys2Proof.Machine

/-- Two line maps of the same lines, neither listing a line twice (R9(c), R9(d)). -/
structure SameLines {n : Nat} (l m : Vector Nat n) : Prop where
  left_nodup : l.toList.Nodup
  right_nodup : m.toList.Nodup
  mem_iff : ∀ x, x ∈ l.toList ↔ x ∈ m.toList

/-- Where in `l` the line at position k of `m` stands. -/
def positionIn {n : Nat} (l m : Vector Nat n) (k : Nat) : Nat := l.toList.idxOf (m.toList.getD k 0)

theorem sigma_eq_positionIn (c : Config) : sigma c = positionIn c.addrLine c.packPos := rfl

theorem dataPerm_eq_positionIn (c : Config) : dataPerm c = positionIn c.dataSlot c.dataLine := rfl

namespace SameLines

variable {n j k : Nat} {l m : Vector Nat n}

theorem symm (h : SameLines l m) : SameLines m l := ⟨h.right_nodup, h.left_nodup, fun x => (h.mem_iff x).symm⟩

theorem getD_mem_left (h : SameLines l m) (hk : k < n) : m.toList.getD k 0 ∈ l.toList :=
  (h.mem_iff _).2 (getD_mem (by simpa using hk))

theorem getD_positionIn (h : SameLines l m) (hk : k < n) : l.toList.getD (positionIn l m k) 0 = m.toList.getD k 0 :=
  getD_idxOf (h.getD_mem_left hk)

theorem positionIn_lt (h : SameLines l m) (hk : k < n) : positionIn l m k < n :=
  (List.idxOf_lt_length_iff.2 (h.getD_mem_left hk)).trans_eq l.length_toList

/-- The two ways round undo each other. -/
theorem positionIn_positionIn (h : SameLines l m) (hk : k < n) : positionIn m l (positionIn l m k) = k := by
  rw [positionIn, h.getD_positionIn hk, idxOf_getD h.right_nodup (by simpa using hk)]

theorem positionIn_inj (h : SameLines l m) (hj : j < n) (hk : k < n) (e : positionIn l m j = positionIn l m k) :
    j = k := by
  rw [← h.positionIn_positionIn hj, e, h.positionIn_positionIn hk]

/-- The positions are 0 .. n-1 in another order. -/
theorem map_positionIn_perm (h : SameLines l m) : ((List.range n).map (positionIn l m)).Perm (List.range n) := by
  have hnodup : ((List.range n).map (positionIn l m)).Nodup :=
    List.nodup_range.map_on fun j hj k hk => h.positionIn_inj (List.mem_range.1 hj) (List.mem_range.1 hk)
  refine (List.perm_ext_iff_of_nodup hnodup List.nodup_range).2 fun i => ?_
  simp only [List.mem_map, List.mem_range]
  constructor
  · rintro ⟨k, hk, rfl⟩
    exact h.positionIn_lt hk
  · exact fun hi => ⟨positionIn m l i, h.symm.positionIn_lt hi, h.symm.positionIn_positionIn hi⟩

end SameLines

/-- R98: bit j of `preconv(b)` is bit `P^-1(j)` of b. -/
theorem getLsbD_preconv_of_lt (c : Config) (b : Byte) {j : Nat} (hj : j < 8) :
    (preconv c b).getLsbD j = b.getLsbD (positionIn c.dataLine c.dataSlot j) := by
  rw [getLsbD_preconv, decide_eq_true hj, Bool.true_and]
  rfl

theorem aitEntry_zero (c : Config) : aitEntry c 0 = 0 :=
  BitVec.eq_of_getLsbD_eq fun i _ => by simp [getLsbD_aitEntry]

theorem preconv_zero (c : Config) : preconv c 0 = 0 :=
  BitVec.eq_of_getLsbD_eq fun j _ => by simp [getLsbD_preconv]

theorem preconv_or (c : Config) (x y : Byte) : preconv c (x ||| y) = preconv c x ||| preconv c y :=
  BitVec.eq_of_getLsbD_eq fun j _ => by simp only [getLsbD_preconv, BitVec.getLsbD_or, Bool.and_or_distrib_left]

section
variable {c : Config} (hc : c.Admits)
include hc

/-- R9(c). -/
theorem sameLines_addrLine_packPos : SameLines c.addrLine c.packPos :=
  ⟨hc.addr_nodup, hc.pack_nodup, fun l => (hc.pack_mem l).symm⟩

/-- R9(d). -/
theorem sameLines_dataSlot_dataLine : SameLines c.dataSlot c.dataLine :=
  ⟨hc.slot_nodup, hc.data_nodup, hc.slot_mem⟩

/-- R93: bit k of the packed pattern of an address is its bit `sigma(k)`. -/
theorem getLsbD_pack_scatter (a : Addr) {k : Nat} (hk : k < 14) :
    (pack c (scatter c a)).getLsbD k = a.getLsbD (sigma c k) := by
  have hw := addrLine_lt hc ((sameLines_addrLine_packPos hc).getD_mem_left hk)
  rw [getLsbD_pack, getLsbD_scatter, decide_eq_true hk, decide_eq_true hw, Bool.true_and, Bool.true_and]
  rfl

/-- R95: packed patterns and addresses correspond one to one. -/
theorem aitEntry_bijective : Function.Bijective (aitEntry c) :=
  Function.bijective_iff_has_inverse.2
    ⟨fun a => pack c (scatter c a), pack_scatter_aitEntry hc, aitEntry_pack_scatter hc⟩

/-- Each bit of an entry is a bit of the pattern, so of the pattern of ones it is a one. -/
theorem aitEntry_allOnes : aitEntry c (BitVec.allOnes 14) = BitVec.allOnes 14 := by
  refine BitVec.eq_of_getLsbD_eq fun i hi => ?_
  have hk : positionIn c.packPos c.addrLine i < 14 := (sameLines_addrLine_packPos hc).symm.positionIn_lt hi
  rw [getLsbD_aitEntry, BitVec.getLsbD_allOnes, BitVec.getLsbD_allOnes, decide_eq_true hi, Bool.true_and]
  exact decide_eq_true hk

/-- R98: bit `P(i)` of `preconv(b)` is bit i of b. -/
theorem getLsbD_preconv_dataPerm (b : Byte) {i : Nat} (hi : i < 8) :
    (preconv c b).getLsbD (dataPerm c i) = b.getLsbD i := by
  have h := sameLines_dataSlot_dataLine hc
  rw [dataPerm_eq_positionIn, getLsbD_preconv_of_lt c b (h.positionIn_lt hi), h.positionIn_positionIn hi]

theorem preconv_bijective : Function.Bijective (preconv c) := by
  refine Finite.injective_iff_bijective.1 fun x y hxy => BitVec.eq_of_getLsbD_eq fun i hi => ?_
  rw [← getLsbD_preconv_dataPerm hc x hi, hxy, getLsbD_preconv_dataPerm hc y hi]

theorem preconv_allOnes : preconv c (BitVec.allOnes 8) = BitVec.allOnes 8 := by
  refine BitVec.eq_of_getLsbD_eq fun j hj => ?_
  have hi := (sameLines_dataSlot_dataLine hc).symm.positionIn_lt hj
  rw [getLsbD_preconv_of_lt c _ hj, BitVec.getLsbD_allOnes, BitVec.getLsbD_allOnes, decide_eq_true hi,
    decide_eq_true hj]

/-- R98: a permutation of the bits leaves the number of ones. -/
theorem countP_preconv (b : Byte) :
    (List.range 8).countP (fun i => (preconv c b).getLsbD i) = (List.range 8).countP (fun i => b.getLsbD i) :=
  calc (List.range 8).countP (fun i => (preconv c b).getLsbD i)
      = (List.range 8).countP (fun j => b.getLsbD (positionIn c.dataLine c.dataSlot j)) :=
        List.countP_congr fun j hj => by rw [getLsbD_preconv_of_lt c b (List.mem_range.1 hj)]
    _ = ((List.range 8).map (positionIn c.dataLine c.dataSlot)).countP (fun i => b.getLsbD i) :=
        List.countP_map.symm
    _ = (List.range 8).countP (fun i => b.getLsbD i) :=
        (sameLines_dataSlot_dataLine hc).symm.map_positionIn_perm.countP_eq _

end

/-- Settles O34: sigma is where the packed lines stand among the address lines, and `ADDR_LINE` and `PACK_POS` list the
same lines. -/
theorem packScatterIsSigma : Obligations.PackScatterIsSigma := by
  unfold Obligations.PackScatterIsSigma
  intro c ha
  have hc := Config.admits_of_admitted ha
  have h := sameLines_addrLine_packPos hc
  rw [sigma_eq_positionIn]
  exact ⟨fun a k hk => getLsbD_pack_scatter hc a hk, fun k hk => ⟨h.positionIn_lt hk, h.getD_positionIn hk⟩,
    fun j hj k hk => h.positionIn_inj hj hk,
    fun i hi => ⟨_, h.symm.positionIn_lt hi, h.symm.positionIn_positionIn hi⟩⟩

/-- Settles O37: P is where the data lines stand among the data slots, which are the same lines. -/
theorem preconvIsAPermutation : Obligations.PreconvIsAPermutation := by
  unfold Obligations.PreconvIsAPermutation
  intro c ha
  have hc := Config.admits_of_admitted ha
  have h := sameLines_dataSlot_dataLine hc
  rw [dataPerm_eq_positionIn]
  exact ⟨fun i hi => ⟨h.positionIn_lt hi, h.getD_positionIn hi⟩, fun i hi j hj => h.positionIn_inj hi hj,
    fun b i hi => getLsbD_preconv_dataPerm hc b hi, preconv_zero c, preconv_allOnes hc, preconv_bijective hc,
    countP_preconv hc, preconv_or c⟩

/-- Settles O35: under the invariant the table is the closed form of R97. -/
theorem tableIsTheInversePermutation : Obligations.TableIsTheInversePermutation := by
  unfold Obligations.TableIsTheInversePermutation
  intro s h hb
  have hc := Config.admits_of_admitted h.admitted
  have htable : lookup s = aitEntry s.cfg := funext (h.table hb)
  rw [htable]
  exact ⟨aitEntry_pack_scatter hc, aitEntry_bijective hc, fun r k hk => getLsbD_aitEntry_sigma hc r hk,
    aitEntry_zero _, aitEntry_allOnes hc⟩

/-- Settles O36: any word of levels is the snapshot of a state whose lines hold it. -/
theorem lookupFindsTheAddress : Obligations.LookupFindsTheAddress := by
  unfold Obligations.LookupFindsTheAddress
  intro s h
  refine ⟨fun w => (pack_and_addrMask (Config.admits_of_admitted h.admitted) w).symm, fun hb w a hw => ?_⟩
  have hsample : BitVec.ofNat s.cfg.w w.toNat = w := by simp
  have hfound := (h.withTurns w.toNat s.sched s.turnNo).lookup_of_carries (a := a) hb
    ((congrArg (· &&& addrMask s.cfg) hsample).trans hw)
  exact (congrArg (fun v => lookup s (pack s.cfg v)) hsample).symm.trans hfound

end Sys2Proof.Machine
end

section
/-!
The boot operations (spec/40_line_maps_and_tables.md R94, R99 to R102): what each of S1 to S4 writes, and which agents
have a step.
-/

namespace Sys2Proof.Machine

/-- Settles O7: agent by agent (`selectorOf_startup_eq_none` and its like). -/
theorem turnOfAgentWithoutAStep : Obligations.TurnOfAgentWithoutAStep := by
  unfold Obligations.TurnOfAgentWithoutAStep
  intro s
  have hsource : ¬s.cfg.switchSource = .button ↔ s.cfg.switchSource = .address := by
    cases s.cfg.switchSource <;> simp
  exact ⟨selectorOf_startup_eq_none, selectorOf_engine_eq_none,
    selectorOf_switch_eq_none.trans (not_and_or.trans (or_congr_right hsource)), selectorOf_ipg_eq_none, rfl,
    step_of_selectorOf_eq_none⟩

/-- Settles O9: the entry at the packed pattern of an address is the closed form's (`lookup_buildTable`), which is that
address. -/
theorem aitBuildResult : Obligations.AitBuildResult := by
  unfold Obligations.AitBuildResult
  intro s ha
  have hc := Config.admits_of_admitted ha
  refine ⟨fun hb => performs_of_bootOp (by rw [hb]; rfl), _, if_pos ha, fun a => ?_, rfl⟩
  rw [lookup_buildTable hc, aitEntry_pack_scatter hc]

/-- R99: `ROM.PRECONV` writes no byte beyond the banks. -/
theorem imgRead_preconvBanks_of_ge {s : State} {b : Nat} (hb : s.cfg.n ≤ b) (a : Addr) :
    imgRead { s with img := preconvBanks s.cfg s.cfg.n s.img } b a = imgRead s b a := by
  have hout : ¬imgAddr b a.toNat < imageSize * s.cfg.n :=
    Nat.not_lt.2 (Nat.le_add_right_of_le (Nat.mul_le_mul_left _ hb))
  simp only [imgRead, read_preconvBanks, if_neg hout]

/-- Settles O10: a byte of a bank by `imgRead_preconvBanks`, of any other slot by `imgRead_preconvBanks_of_ge`. -/
theorem romPreconvResult : Obligations.RomPreconvResult := by
  unfold Obligations.RomPreconvResult
  intro s
  refine ⟨fun hb => performs_of_bootOp (by rw [hb]; rfl), _, rfl, fun b hb => imgRead_preconvBanks hb,
    fun b hb a hread => ?_, fun b hb => imgRead_preconvBanks_of_ge hb, rfl⟩
  rw [imgRead_preconvBanks hb, hread, Option.map_some]

/-- Settles O11. -/
theorem coreInitResult : Obligations.CoreInitResult := by
  unfold Obligations.CoreInitResult
  exact fun s => ⟨fun hb => performs_of_bootOp (by rw [hb]; rfl), rfl⟩

/-- No operation clears `ENG_LIVE` (R102). -/
theorem engLive_of_exec {i : Instr} {s t : State} (h : exec i s = .next t) (hl : s.engLive = true) :
    t.engLive = true := by
  cases i
  case engLaunch => cases h; rfl
  case aitBuild => simp only [exec, execAitBuild] at h; split at h <;> cases h; exact hl
  case ipgStart => obtain ⟨-, rfl⟩ | ⟨-, rfl⟩ := exec_ipgStart_cases h <;> exact hl
  case breServe =>
    obtain ⟨b, -, he⟩ | ⟨f, he⟩ := execBreServe_cases s
    · obtain rfl := Host.Outcome.next.inj (he.symm.trans h)
      exact hl
    · exact nomatch he.symm.trans h
  all_goals (cases h; exact hl)

/-- Settles O12: ENGINE has a step exactly while `ENG_LIVE` is set, and that is never cleared (`engLive_of_exec`). -/
theorem engLaunchResult : Obligations.EngLaunchResult := by
  unfold Obligations.EngLaunchResult
  intro s
  exact ⟨fun hb => performs_of_bootOp (by rw [hb]; rfl), rfl, selectorOf_engine_eq_none.2,
    fun hl => by simp [selectorOf_engine_eq_none, hl], fun _ _ => engLive_of_exec⟩

end Sys2Proof.Machine
end

section
/-!
SUPPORT. Runs of given turns put together: a run of more turns goes on from where the run of the first ones ends.
-/

namespace Sys2Proof.Machine

/-- No operation reads or writes the list of turns (log 6). -/
theorem exec_withSched {i : Instr} {s t : State} (ts : List Turn) (h : exec i s = .next t) :
    exec i { s with sched := ts } = .next { t with sched := ts } := by
  have hsame : t = { t with sched := s.sched, turnNo := s.turnNo } :=
    Host.Outcome.next.inj (h.symm.trans (exec_next_turns s.sched s.turnNo h))
  have hturn : t.turnNo = s.turnNo := by rw [hsame]
  exact (exec_next_turns ts s.turnNo h).trans (by rw [← hturn])

/-- A step depends on the oldest listed turn alone, and passes the later ones on. -/
theorem step_withLater {s t : State} {u : Turn} {us : List Turn} (vs : List Turn)
    (h : step { s with sched := u :: us } = .next t) :
    step { s with sched := u :: vs } = .next { t with sched := vs } := by
  have hsel : selectorOf (State.takeTurn { s with sched := u :: vs }) u.agent =
      selectorOf (State.takeTurn { s with sched := u :: us }) u.agent := by
    cases u.agent <;> rfl
  obtain ⟨-, he⟩ | ⟨ha, hn, he⟩ | ⟨w, i, ha, hw, hd, he⟩ | ⟨w, e, -, -, -, he⟩ := step_cases { s with sched := u :: us }
  · exact nomatch he.symm.trans h
  · obtain rfl := Host.Outcome.next.inj (he.symm.trans h)
    exact step_of_selectorOf_eq_none ha (hsel.trans hn)
  · have hstep := step_eq_exec (s := { s with sched := u :: vs }) ha (hsel.trans hw) hd
    refine (hstep.trans ?_).trans (exec_withSched vs (he.symm.trans h))
    cases u with
    | mk g l => cases g <;> rfl
  · exact nomatch he.symm.trans h

/-- A run that completes takes its first turn, and completes from there. -/
theorem step_of_runTurns_cons {s m : State} {u : Turn} {us : List Turn} (h : runTurns (u :: us) s = .next m) :
    ∃ t, step { s with sched := u :: us } = .next t ∧ runTurns us t = .next m := by
  cases hs : step { s with sched := u :: us } with
  | next t => exact ⟨t, rfl, (runTurns_cons hs).symm.trans h⟩
  | fault f | refused f => simp [runTurns, Host.Core.run, core, hs] at h

/-- A run of more turns goes on from where the run of the first ones ends. -/
theorem runTurns_append {ts rest : List Turn} {s m : State} (h : runTurns ts s = .next m) :
    runTurns (ts ++ rest) s = runTurns rest m := by
  induction ts generalizing s with
  | nil =>
    obtain rfl := Host.Outcome.next.inj h
    rfl
  | cons u us ih =>
    obtain ⟨t, ht, hrest⟩ := step_of_runTurns_cons h
    rw [List.cons_append, runTurns_cons (step_withLater (us ++ rest) ht), ← ih hrest]
    rfl

/-- The run of the turns of a kept property (`runTurns_append_of_kept`) completes. -/
theorem runTurns_of_kept {P : List Turn → State → Prop}
    (hsched : ∀ us s ts, P us s → P us { s with sched := ts })
    (hstep : ∀ us s, P (s.nextTurn :: us) s → ∃ m, step s = .next m ∧ P us m)
    (ts : List Turn) {s : State} (hs : P ts s) : ∃ m, runTurns ts s = .next m ∧ P [] m := by
  obtain ⟨m, hm, hrun⟩ := runTurns_append_of_kept hsched hstep ts [] hs
  rw [List.append_nil, runTurns_nil] at hrun
  exact ⟨_, hrun, hsched _ _ _ hm⟩

end Sys2Proof.Machine
end

section
/-!
A read cycle (spec/40_line_maps_and_tables.md R123, spec/41_bus_response_engine.md R111 to R120): the turn of ENGINE
that sees the read serves it, and what it drove stays until the next read begins.
-/

namespace Sys2Proof.Machine

/-- A turn of ENGINE performs the operation of its control state and its samples (R76, R81). -/
theorem step_engine {s : State} (ha : s.cfg.admitted = true) (hl : s.engLive = true)
    (hg : s.nextTurn.agent = .engine) :
    step s = exec (engineOp s.engState (level s.takeTurn s.cfg.lRd) (weLevel s.takeTurn)) s.takeTurn := by
  have hw : selectorOf s.takeTurn s.nextTurn.agent = some (.eng (engSelector s.takeTurn)) := by
    rw [hg]; exact if_pos hl
  rw [step_eq_exec ha hw (decode_engSelector _), hg]
  rfl

/-- ENGINE's sample of the write-enable line (R76). -/
theorem weLevel_eq_false {s : State} : weLevel s = false ↔ s.cfg.hasWe = true ∧ level s s.cfg.lWe = false := by
  cases hw : s.cfg.hasWe <;> simp [weLevel, hw]

/-- The control state after an operation of ENGINE other than the serve: a released strobe ends the cycle (R112, R118,
R120), an asserted one begins a write cycle or goes on with the cycle (R116, R117, R119). -/
def EngState.quietNext (st : EngState) (rd : Bool) : EngState :=
  if rd then .waiting else if st = .waiting then .skipping else st

theorem EngState.quietNext_ne_waiting (st : EngState) (rd : Bool) :
    decide (st.quietNext rd ≠ .waiting) = !rd := by
  cases st <;> cases rd <;> rfl

/-- Every operation of ENGINE other than the serve changes `SNAP` and the control state only. -/
theorem exec_engineOp_of_not_read {s : State} {st : EngState} {rd we : Bool}
    (h : st = .waiting → rd = false → we = false) :
    exec (engineOp st rd we) s = .next (engineTo s (st.quietNext rd)) := by
  cases st <;> cases rd
  case waiting.false => obtain rfl := h rfl rfl; rfl
  all_goals rfl

/-- A sample of ENGINE begins no read if the strobe is released, or was asserted before, or it is a write. -/
theorem beginsNoRead_engine {c : Config} {us : List Turn} {asserted : Bool} {u : Turn}
    (hu : u.agent = .engine) :
    beginsNoRead c asserted (u :: us) = true ↔
      (wordLevel c u.lines c.lRd = false →
        asserted = true ∨ c.hasWe = true ∧ wordLevel c u.lines c.lWe = false) ∧
      beginsNoRead c (!wordLevel c u.lines c.lRd) us = true := by
  cases hr : wordLevel c u.lines c.lRd <;> simp [beginsNoRead, hu, hr]

theorem beginsNoRead_other {c : Config} {us : List Turn} {asserted : Bool} {u : Turn}
    (hu : u.agent ≠ .engine) :
    beginsNoRead c asserted (u :: us) = beginsNoRead c asserted us := by
  simp [beginsNoRead, hu]

/-- ENGINE, once launched, stays launched (R102). -/
theorem engLive_of_step {s t : State} (h : step s = .next t) (hl : s.engLive = true) : t.engLive = true := by
  obtain ⟨-, rfl⟩ | ⟨i, -, he⟩ := step_performs h
  · exact hl
  · exact engLive_of_exec he ((passBoot_engLive _ _).trans hl)

/-- Once ENGINE is launched, no other agent writes its control state or drives the data lines (R38). -/
theorem Inv.engine_kept_by_others {s t : State} (h : Inv s) (hl : s.engLive = true) (hst : step s = .next t)
    (hg : s.nextTurn.agent ≠ .engine) : t.engState = s.engState ∧ t.dataOut = s.dataOut := by
  cases ha : s.nextTurn.agent with
  | engine => exact absurd ha hg
  | startup =>
    obtain ⟨-, rfl⟩ | ⟨i, hp, he⟩ := step_performs hst
    · exact ⟨rfl, rfl⟩
    · rw [ha] at hp he
      have hop : bootOp s.boot = some i := bootOp_of_performs hp
      have hlive := h.live.symm.trans hl
      cases hb : s.boot with
      | s1 | s2 | s3 | s4 => simp [hb, BootStep.engineLive] at hlive
      | s5 =>
        rw [hb] at hop
        cases hop
        obtain ⟨-, rfl⟩ | ⟨-, rfl⟩ := exec_ipgStart_cases he <;> exact ⟨rfl, rfl⟩
      | done => simp [hb, bootOp] at hop
  | switch =>
    obtain ⟨-, rfl⟩ | ⟨-, i, -, hf⟩ := SwitchFrame.of_step hst ha
    · exact ⟨rfl, rfl⟩
    · rw [hf.only]; exact ⟨rfl, rfl⟩
  | ipg => rw [(IpgFrame.of_step hst ha).only]; exact ⟨rfl, rfl⟩
  | host => rw [step_of_no_agent hst (.inr ha)]; exact ⟨rfl, rfl⟩

/-- ENGINE waits for a cycle, and the turns `us` still to come are not its own. -/
structure AwaitingCycle (c : Config) (us : List Turn) (s : State) : Prop where
  inv : Inv s
  cfg : s.cfg = c
  live : s.engLive = true
  waiting : s.engState = .waiting
  others : ∀ u ∈ us, u.agent ≠ .engine

/-- The line byte `d` stands on the data lines, and in the turns `us` still to come ENGINE sees no read begin. -/
structure Driven (c : Config) (d : Byte) (us : List Turn) (s : State) : Prop where
  inv : Inv s
  cfg : s.cfg = c
  live : s.engLive = true
  dataOut : s.dataOut = d
  quiet : beginsNoRead c (decide (s.engState ≠ .waiting)) us = true

section
variable {c : Config} {d : Byte} {us : List Turn} {s : State}

theorem AwaitingCycle.withSched (h : AwaitingCycle c us s) (ts : List Turn) :
    AwaitingCycle c us { s with sched := ts } :=
  { h with inv := h.inv.withTurns _ _ _ }

/-- No turn of another agent ends the wait. -/
theorem AwaitingCycle.turn (h : AwaitingCycle c (s.nextTurn :: us) s) :
    ∃ m, step s = .next m ∧ AwaitingCycle c us m := by
  obtain ⟨hg, hothers⟩ := List.forall_mem_cons.1 h.others
  obtain ⟨m, hm, hmi⟩ := h.inv.step_next
  obtain ⟨hstate, -⟩ := h.inv.engine_kept_by_others h.live hm hg
  exact ⟨m, hm, hmi, (step_cfg_boot hm).1.trans h.cfg, engLive_of_step hm h.live, hstate.trans h.waiting, hothers⟩

theorem Driven.withSched (h : Driven c d us s) (ts : List Turn) : Driven c d us { s with sched := ts } :=
  { h with inv := h.inv.withTurns _ _ _ }

/-- R117 to R120: no turn drives the data lines anew before the next read. -/
theorem Driven.turn (h : Driven c d (s.nextTurn :: us) s) : ∃ m, step s = .next m ∧ Driven c d us m := by
  have hquiet := h.quiet
  obtain rfl := h.cfg
  by_cases hg : s.nextTurn.agent = .engine
  · obtain ⟨hno, hrest⟩ := (beginsNoRead_engine hg).1 hquiet
    have hstep : step s = .next (engineTo s.takeTurn (s.engState.quietNext (level s.takeTurn s.cfg.lRd))) := by
      rw [step_engine h.inv.admitted h.live hg]
      exact exec_engineOp_of_not_read fun hw hr =>
        weLevel_eq_false.2 ((hno hr).resolve_left (by simp [hw]))
    refine ⟨_, hstep, h.inv.of_step hstep, rfl, h.live, h.dataOut, ?_⟩
    rw [engineTo_engState, EngState.quietNext_ne_waiting]
    exact hrest
  · obtain ⟨m, hm, hmi⟩ := h.inv.step_next
    obtain ⟨hstate, hdata⟩ := h.inv.engine_kept_by_others h.live hm hg
    rw [beginsNoRead_other hg, ← hstate] at hquiet
    exact ⟨m, hm, hmi, (step_cfg_boot hm).1, engLive_of_step hm h.live, hdata.trans h.dataOut, hquiet⟩

end

/-- A turn of ENGINE that sees a read of address a from `Waiting` serves it: the byte it fetches is driven, the line
form of the logical byte if it reads a bank (R103, R114). -/
theorem Inv.read_turn {s : State} {a : Addr} (h : Inv s) (hl : s.engLive = true) (hw : s.engState = .waiting)
    (hg : s.nextTurn.agent = .engine) (hr : ReadOf s.cfg a s.nextTurn) :
    ∃ b, step s = .next (served s.takeTurn a b) ∧
      (serveSlot s a < s.cfg.n → b = preconv s.cfg (romLogical s.cfg (serveSlot s a) a)) := by
  obtain ⟨hrd, hwe, haddr⟩ := hr
  have hi := h.takeTurn
  have hs := hi.steady (hi.initialised_of_engLive hl)
  obtain ⟨b, hb⟩ := hi.fetchByte_ok hs (hs.serveSlot_cases (Config.admits_of_admitted h.admitted) a) a
  have hboot : s.boot ≠ .s1 := fun hs1 => by simp [h.live, hs1, BootStep.engineLive] at hl
  have hop : engineOp s.engState (level s.takeTurn s.cfg.lRd) (weLevel s.takeTurn) = .breServe := by
    have hrd' : level s.takeTurn s.cfg.lRd = false := hrd
    have hwe' : weLevel s.takeTurn = true := by
      rw [← Bool.not_eq_false, weLevel_eq_false]
      exact fun ⟨hon, hlow⟩ => nomatch (hwe hon).symm.trans hlow
    rw [hw, hrd', hwe']
    rfl
  refine ⟨b, ?_, fun hbank => ?_⟩
  · rw [step_engine h.admitted hl hg, hop]
    exact execBreServe_of_fetchByte (hi.lookup_of_carries hboot haddr) hb
  · exact Except.ok.inj (hb.symm.trans
      (fetchByte_of_read (hbank.trans_le (n_le_slotCount _)) (hi.bank_of_engLive hl hbank a)))

/-- Settles O49: ENGINE still waits when its turn comes (`AwaitingCycle.turn`), serves the read (`Inv.read_turn`), and
what it drove stays (`Driven.turn`). -/
theorem readCycleIsAnswered : Obligations.ReadCycleIsAnswered := by
  unfold Obligations.ReadCycleIsAnswered
  intro s a before after e h hl hw hbefore hg hread hafter
  obtain ⟨m, hrun, hm⟩ := runTurns_of_kept (fun _ _ ts h => h.withSched ts) (fun _ _ h => h.turn) before
    (⟨h, rfl, hl, hw, hbefore⟩ : AwaitingCycle s.cfg before s)
  have hm' := hm.withSched (e :: after)
  rw [← hm.cfg] at hread hafter ⊢
  obtain ⟨b, hserve, hbyte⟩ := hm'.inv.read_turn hm'.live hm'.waiting hg hread
  obtain ⟨t, hrest, ht⟩ := runTurns_of_kept (fun _ _ ts h => h.withSched ts) (fun _ _ h => h.turn) after
    (⟨hm'.inv.of_step hserve, rfl, hm'.live, rfl, hafter⟩ : Driven m.cfg b after _)
  refine ⟨m, t, hrun, ?_, fun hbank => ?_⟩
  · rw [runTurns_append hrun, runTurns_cons hserve, hrest]
  · have hdata : t.dataOut = preconv t.cfg (romLogical m.cfg (serveSlot m a) a) := by
      rw [ht.dataOut, ht.cfg]
      exact hbyte hbank
    exact hostByte_of_preconv (Config.admits_of_admitted ht.inv.admitted) hdata

end Sys2Proof.Machine
end

section
/-!
What ENGINE performs (spec/41_bus_response_engine.md R112 to R120): the operation by its control state and its two
samples, and the whole next state of each.
-/

namespace Sys2Proof.Machine

/-- Once launched, ENGINE performs the operation of its control state and its samples (R76, R81). -/
theorem performs_engineOp {s : State} {st : EngState} {rd we : Bool} (hl : s.engLive = true)
    (hst : s.engState = st) (hrd : level s s.cfg.lRd = rd) (hwe : weLevel s = we) :
    Performs .engine s (engineOp st rd we) := by
  subst hst hrd hwe
  exact ⟨_, if_pos hl, decode_engSelector s⟩

/-- ENGINE's sample of the write-enable line is high unless it sees a write (R76, R111). -/
theorem weLevel_eq_true {s : State} : weLevel s = true ↔ (s.cfg.hasWe = true → level s s.cfg.lWe = true) := by
  cases hw : s.cfg.hasWe <;> simp [weLevel, hw]

/-- Settles O14: the six operations are `engineOp` of the states and samples named (`performs_engineOp`). -/
theorem engineQuietOperations : Obligations.EngineQuietOperations := by
  unfold Obligations.EngineQuietOperations
  intro s we
  exact ⟨⟨rfl, rfl, rfl, rfl, rfl, rfl⟩, fun hl =>
    ⟨fun hst hrd => performs_engineOp hl hst hrd rfl,
     fun hst hrd hon hlow => performs_engineOp hl hst hrd (weLevel_eq_false.2 ⟨hon, hlow⟩),
     fun hst hrd => performs_engineOp hl hst hrd rfl,
     fun hst hrd => performs_engineOp hl hst hrd rfl,
     fun hst hrd => performs_engineOp hl hst hrd rfl,
     fun hst hrd => performs_engineOp hl hst hrd rfl⟩⟩

/-- The order decides whether a serve reads the image selected before it or the one selected after it (R114, R122). -/
theorem serveSlot_eq (s : State) (a : Addr) :
    serveSlot s a = if s.cfg.trigOrder = .switchThenFetch then servedImg s a else s.curImg := by
  by_cases ho : s.cfg.trigOrder = .switchThenFetch <;> simp [serveSlot, servedImg, ho]

/-- Settles O15: the serve fetches from the slot of `serveSlot_eq`, and drives what it finds. -/
theorem serveResult : Obligations.ServeResult := by
  unfold Obligations.ServeResult
  intro s b
  refine ⟨fun hl hst hrd hwe => performs_engineOp hl hst hrd (weLevel_eq_true.2 hwe), ?_⟩
  intro a target slot pulse hslot hb
  have hserve : serveSlot s a = slot := serveSlot_eq s a
  exact execBreServe_of_fetchByte rfl (hserve ▸ fetchByte_of_read hslot hb)

end Sys2Proof.Machine
end

section
/-!
The address trigger (spec/41_bus_response_engine.md R114, R122): the bank an address selects, and which image the serve
of that address reads.
-/

namespace Sys2Proof.Machine

/-- A listed address selects its bank: R9(h) lists it once (R122). -/
theorem trig_of_mem {c : Config} (hc : c.Admits) {a : Addr} {b : Nat} (h : (a, b) ∈ c.trigTable) (cur : Nat) :
    trig c a cur = b := by
  unfold trig
  split
  · rename_i e he
    have hkey : e.1 = a := by simpa using List.find?_some he
    exact congrArg Prod.snd (List.inj_on_of_nodup_map hc.trig_nodup (List.mem_of_find?_eq_some he) h hkey)
  · rename_i hnone
    exact absurd (List.find?_eq_none.1 hnone _ h) (by simp)

/-- An address that is not listed leaves the selector (R122). -/
theorem trig_of_not_mem {c : Config} {a : Addr} (h : ∀ b, (a, b) ∉ c.trigTable) (cur : Nat) :
    trig c a cur = cur := by
  unfold trig
  split
  · rename_i e he
    have hkey : e.1 = a := by simpa using List.find?_some he
    exact absurd (hkey ▸ List.mem_of_find?_eq_some he) (h e.2)
  · rfl

/-- With the address trigger a serve reads a bank, never the label slot (R122). -/
theorem Steady.serveSlot_lt_of_address {s : State} (hs : Steady s) (hc : s.cfg.Admits)
    (ha : s.cfg.switchSource = .address) (a : Addr) : serveSlot s a < s.cfg.n := by
  have hcur := hs.curImg_lt_of_address hc ha
  obtain he | hlt := hs.serveSlot_cases hc a
  · exact he.trans_lt hcur
  · exact hlt

/-- With the address trigger there is no switch FSM to hold the host in reset (R122, R40(c)). -/
theorem Steady.resetOut_of_address {s : State} (hs : Steady s) (ha : s.cfg.switchSource = .address) :
    s.resetOut = false := by
  rw [hs.reset_held, hs.no_switch ha]
  rfl

/-- Settles O52: the serve reads a bank (`Steady.serveSlot_lt_of_address`), whose byte it finds, and the trigger acts in
either order (`serveSlot_eq`). -/
theorem addressTriggerSelects : Obligations.AddressTriggerSelects := by
  unfold Obligations.AddressTriggerSelects
  intro s a h hl hsrc ha
  have hc := Config.admits_of_admitted h.admitted
  have hs := h.steady (h.initialised_of_engLive hl)
  have hbank := hs.serveSlot_lt_of_address hc hsrc a
  have hread := h.bank_of_engLive hl hbank a
  have himg : servedImg s a = trig s.cfg a s.curImg := servedImg_address hsrc a
  refine ⟨_, h.serve_of_read hl ha (hbank.trans_le (n_le_slotCount _)) hread, rfl,
    fun b hb => himg.trans (trig_of_mem hc hb _), fun hno => himg.trans (trig_of_not_mem hno _),
    fun ho => ?_, fun ho => ?_, hs.resetOut_of_address hsrc⟩
  · have hslot : serveSlot s a = s.curImg := by rw [serveSlot_eq, ho]; rfl
    exact hslot ▸ hread
  · have hslot : serveSlot s a = servedImg s a := by rw [serveSlot_eq, ho]; rfl
    exact hslot ▸ hread

end Sys2Proof.Machine
end

section
/-!
What only a serve writes (spec/10_state.md R38, spec/41_bus_response_engine.md R114 to R121): every other step leaves
the data lines, the registers of the serve and, in the builds where it is the serve that writes them, the pulse and the
selector.
-/

namespace Sys2Proof.Machine

/-- From s to t nothing that only a serve writes has changed. -/
structure Unserved (s t : State) : Prop where
  cfg : t.cfg = s.cfg
  dataOut : t.dataOut = s.dataOut
  raw : t.raw = s.raw
  laddr : t.laddr = s.laddr
  outByte : t.outByte = s.outByte
  nmiPrev : t.nmiPrev = s.nmiPrev
  nmiOut : s.cfg.ipgVariant = .inline → t.nmiOut = s.nmiOut
  curImg : s.cfg.switchSource = .address → t.curImg = s.curImg

theorem Unserved.refl (s : State) : Unserved s s := ⟨rfl, rfl, rfl, rfl, rfl, rfl, fun _ => rfl, fun _ => rfl⟩

theorem Unserved.takeTurn (s : State) : Unserved s s.takeTurn := { Unserved.refl s with }

theorem Unserved.engineTo (s : State) (e : EngState) : Unserved s (engineTo s e) := { Unserved.refl s with }

theorem Unserved.trans {s t u : State} (h : Unserved s t) (k : Unserved t u) : Unserved s u where
  cfg := k.cfg.trans h.cfg
  dataOut := k.dataOut.trans h.dataOut
  raw := k.raw.trans h.raw
  laddr := k.laddr.trans h.laddr
  outByte := k.outByte.trans h.outByte
  nmiPrev := k.nmiPrev.trans h.nmiPrev
  nmiOut hv := (k.nmiOut (h.cfg ▸ hv)).trans (h.nmiOut hv)
  curImg hv := (k.curImg (h.cfg ▸ hv)).trans (h.curImg hv)

/-- Once ENGINE is launched STARTUP has only S5 left, which touches `NMI_OUT` in the autonomous variant alone (R172). -/
theorem Inv.unserved_of_startup {s t : State} (h : Inv s) (hl : s.engLive = true) (hst : step s = .next t)
    (hg : s.nextTurn.agent = .startup) : Unserved s t := by
  obtain ⟨-, rfl⟩ | ⟨i, hp, he⟩ := step_performs hst
  · exact .takeTurn s
  · rw [hg] at hp he
    have hop : bootOp s.boot = some i := bootOp_of_performs hp
    have hlive := h.live.symm.trans hl
    cases hb : s.boot with
    | s1 | s2 | s3 | s4 => simp [hb, BootStep.engineLive] at hlive
    | s5 =>
      rw [hb] at hop
      cases hop
      obtain ⟨ha, rfl⟩ | ⟨-, rfl⟩ := exec_ipgStart_cases he
      · exact { Unserved.refl s with nmiOut := fun hv => nomatch ha.symm.trans hv }
      · exact { Unserved.refl s with }
    | done => simp [hb, bootOp] at hop

/-- Once ENGINE is launched, no turn of another agent writes what a serve writes (R38). -/
theorem Inv.unserved_of_other {s t : State} (h : Inv s) (hl : s.engLive = true) (hst : step s = .next t)
    (hg : s.nextTurn.agent ≠ .engine) : Unserved s t := by
  cases ha : s.nextTurn.agent with
  | engine => exact absurd ha hg
  | startup => exact h.unserved_of_startup hl hst ha
  | switch =>
    obtain ⟨-, rfl⟩ | ⟨hsrc, i, -, hf⟩ := SwitchFrame.of_step hst ha
    · exact .takeTurn s
    · rw [hf.only]
      exact { Unserved.takeTurn s with curImg := fun hv => nomatch hsrc.symm.trans hv }
  | ipg =>
    have hf := IpgFrame.of_step hst ha
    rw [hf.only]
    exact { Unserved.takeTurn s with nmiOut := fun (hv : s.cfg.ipgVariant = .inline) => hf.pulse (by simp [hv]) }
  | host => rw [step_of_no_agent hst (.inr ha)]; exact .takeTurn s

/-- Every operation of ENGINE but the serve writes `SNAP` and its control state only (R112, R116 to R120). -/
theorem engineTo_of_exec {i : Instr} {s t : State} (hf : (rowOf i).format = .eng) (hi : i ≠ .breServe)
    (h : exec i s = .next t) : ∃ e, t = engineTo s e := by
  cases i
  case breServe => exact absurd rfl hi
  case brePoll | breSkipwr | breHold | breRelease | breSkiphold | breSkipend =>
    exact ⟨_, (Host.Outcome.next.inj h).symm⟩
  all_goals cases hf

/-- A turn of ENGINE that performs no serve writes nothing that a serve writes. -/
theorem unserved_of_engine {s t : State} (hst : step s = .next t) (hg : s.nextTurn.agent = .engine)
    (hno : ¬Performs .engine s.takeTurn .breServe) : Unserved s t := by
  obtain ⟨-, rfl⟩ | ⟨i, hp, he⟩ := step_performs hst
  · exact .takeTurn s
  · rw [hg] at hp he
    obtain ⟨e, rfl⟩ := engineTo_of_exec (Option.some.inj (format_of_performs hp)).symm
      (fun hi => hno (hi ▸ hp)) he
    exact (Unserved.takeTurn s).trans (.engineTo _ e)

/-- A completed serve has resolved the address of `LADDR` and driven a byte (R114). -/
theorem served_of_exec {s t : State} (h : exec .breServe s = .next t) : ∃ b, t = served s t.laddr b := by
  obtain ⟨b, -, he⟩ | ⟨f, he⟩ := execBreServe_cases s
  · obtain rfl := Host.Outcome.next.inj (he.symm.trans h)
    exact ⟨b, rfl⟩
  · exact nomatch he.symm.trans h

/-- A turn of ENGINE that performs a serve ends as the serve does. -/
theorem served_of_step {s t : State} (hst : step s = .next t) (hg : s.nextTurn.agent = .engine)
    (hp : Performs .engine s.takeTurn .breServe) : ∃ b, t = served s.takeTurn t.laddr b := by
  obtain ⟨hn, -⟩ | ⟨i, hi, he⟩ := step_performs hst
  · obtain ⟨w, hw, -⟩ := hp
    exact nomatch (hg ▸ hn).symm.trans hw
  · rw [hg] at hi he
    obtain rfl := performs_unique hi hp
    exact served_of_exec he

/-- Settles O51: a serve pulses as R121 says (`inlinePulse`), any other step is `Unserved`. -/
theorem inlinePulseLastsToTheNextServe : Obligations.InlinePulseLastsToTheNextServe := by
  unfold Obligations.InlinePulseLastsToTheNextServe
  intro s t h hb hv hst
  have hl : s.engLive = true := h.live.trans (by rw [hb]; rfl)
  refine ⟨fun hg hp => ?_, fun hno => ?_⟩
  · obtain ⟨b, ht⟩ := served_of_step hst hg hp
    have hpulse : servedPulse s.takeTurn t.laddr = inlinePulse s.takeTurn t.laddr := if_pos hv
    have hout : t.nmiOut = (inlinePulse s.takeTurn t.laddr).1 := by rw [← hpulse, ht]; rfl
    have hprev : t.nmiPrev = (inlinePulse s.takeTurn t.laddr).2 := by rw [← hpulse, ht]; rfl
    rw [hout, hprev]
    refine ⟨fun hset => ?_, fun hclear hcond => ?_, fun hclear hcond => ?_⟩
    · simp [inlinePulse, hset]
    · simp [inlinePulse, hclear, hcond]
    · have hidle := (h.steady (by rw [hb]; rfl)).pulse_inline hv
      simpa [inlinePulse, hclear, hcond] using hidle
  · have hun : Unserved s t := by
      by_cases hg : s.nextTurn.agent = .engine
      · exact unserved_of_engine hst hg fun hp => hno ⟨hg, hp⟩
      · exact h.unserved_of_other hl hst hg
    exact ⟨hun.nmiOut hv, hun.nmiPrev⟩

end Sys2Proof.Machine
end

section
/-!
A write cycle (spec/41_bus_response_engine.md R116, R119, R120, R194): ENGINE skips it from the sample that sees the
write to the one that sees the strobe released.
-/

namespace Sys2Proof.Machine

/-- Since state o nothing has been served, ENGINE is in state st, and no turn of `us`, still to come, moves it: they
are turns of other agents, or hold the strobe of a cycle being skipped. -/
structure Stays (o : State) (st : EngState) (us : List Turn) (s : State) : Prop where
  inv : Inv s
  live : s.engLive = true
  state : s.engState = st
  unserved : Unserved o s
  calm : ∀ u ∈ us, u.agent = .engine → st = .skipping ∧ StrobeHeld o.cfg u

section
variable {o : State} {st : EngState} {us : List Turn} {s : State}

theorem Stays.withSched (h : Stays o st us s) (ts : List Turn) : Stays o st us { s with sched := ts } :=
  { h with inv := h.inv.withTurns _ _ _, unserved := { h.unserved with } }

/-- A turn of ENGINE that begins no read moves the control state on (`EngState.quietNext`), and serves nothing. -/
theorem Stays.engine_turn {vs : List Turn} {rd : Bool} (h : Stays o st vs s) (hg : s.nextTurn.agent = .engine)
    (hrd : wordLevel o.cfg s.nextTurn.lines o.cfg.lRd = rd)
    (hno : st = .waiting → rd = false → WriteOf o.cfg s.nextTurn)
    (hcalm : ∀ u ∈ us, u.agent = .engine → st.quietNext rd = .skipping ∧ StrobeHeld o.cfg u) :
    ∃ m, step s = .next m ∧ Stays o (st.quietNext rd) us m := by
  rw [← h.unserved.cfg] at hrd hno
  have hop := step_engine h.inv.admitted h.live hg
  rw [h.state, show level s.takeTurn s.cfg.lRd = rd from hrd] at hop
  have hstep : step s = .next (engineTo s.takeTurn (st.quietNext rd)) :=
    hop.trans (exec_engineOp_of_not_read fun hw hr => by
      obtain ⟨hon, -, hlow⟩ := hno hw hr
      exact weLevel_eq_false.2 ⟨hon, hlow⟩)
  exact ⟨_, hstep, h.inv.of_step hstep, h.live, rfl,
    h.unserved.trans ((Unserved.takeTurn s).trans (.engineTo _ _)), hcalm⟩

/-- R119: a turn with the strobe held goes on with the cycle; a turn of another agent leaves ENGINE alone. -/
theorem Stays.turn (h : Stays o st (s.nextTurn :: us) s) : ∃ m, step s = .next m ∧ Stays o st us m := by
  obtain ⟨hturn, hcalm⟩ := List.forall_mem_cons.1 h.calm
  by_cases hg : s.nextTurn.agent = .engine
  · obtain ⟨rfl, hheld⟩ := hturn hg
    exact h.engine_turn hg hheld nofun hcalm
  · obtain ⟨m, hm, hmi⟩ := h.inv.step_next
    exact ⟨m, hm, hmi, engLive_of_step hm h.live, (h.inv.engine_kept_by_others h.live hm hg).1.trans h.state,
      h.unserved.trans (h.inv.unserved_of_other h.live hm hg), hcalm⟩

theorem Stays.run {ts : List Turn} (h : Stays o st ts s) : ∃ m, runTurns ts s = .next m ∧ Stays o st [] m :=
  runTurns_of_kept (fun _ _ ts h => h.withSched ts) (fun _ _ h => h.turn) ts h

/-- R116: a turn of ENGINE that sees a write from `Waiting` begins to skip the cycle. -/
theorem Stays.begin_skip (h : Stays o .waiting [] s) (hg : s.nextTurn.agent = .engine)
    (hw : WriteOf o.cfg s.nextTurn) (hheld : ∀ u ∈ us, u.agent = .engine → StrobeHeld o.cfg u) :
    ∃ m, step s = .next m ∧ Stays o .skipping us m := by
  have ⟨_, hrd, _⟩ := hw
  exact h.engine_turn hg hrd (fun _ _ => hw) fun u hu he => ⟨rfl, hheld u hu he⟩

/-- R120: the turn of ENGINE that sees the strobe released ends the cycle. -/
theorem Stays.end_skip (h : Stays o .skipping [] s) (hg : s.nextTurn.agent = .engine)
    (hr : ¬StrobeHeld o.cfg s.nextTurn) : ∃ m, step s = .next m ∧ Stays o .waiting [] m :=
  h.engine_turn hg (eq_true_of_ne_false hr) nofun nofun

end

/-- Settles O50: ENGINE still waits when its turn comes, skips the cycle while the strobe is held (`Stays.run`), and
waits again after the release. -/
theorem writeCycleDrivesNothing : Obligations.WriteCycleDrivesNothing := by
  unfold Obligations.WriteCycleDrivesNothing
  intro s before held e r h hl hw hbefore he hwrite hheld hr hrelease
  have hstart : Stays s .waiting before s :=
    ⟨h, hl, hw, .refl s, fun u hu hg => absurd hg (hbefore u hu)⟩
  obtain ⟨p, hp, hwait⟩ := hstart.run
  obtain ⟨q, hq, hskip⟩ := (hwait.withSched (e :: held)).begin_skip he hwrite hheld
  obtain ⟨m, hm, hend⟩ := hskip.run
  obtain ⟨t, ht, hdone⟩ := (hend.withSched [r]).end_skip hr hrelease
  have hrun : runTurns (before ++ e :: held) s = .next m := by
    rw [runTurns_append hp, runTurns_cons hq, hm]
  have hrun' : runTurns (before ++ e :: (held ++ [r])) s = .next t := by
    rw [← List.cons_append, ← List.append_assoc, runTurns_append hrun, runTurns_singleton ht]
  have hun := hdone.unserved
  exact ⟨m, t, hrun, hrun', hend.state, hdone.state, hun.dataOut, hun.raw, hun.laddr, hun.outByte, hun.nmiPrev,
    hun.nmiOut, hun.curImg⟩

end Sys2Proof.Machine
end

section
/-!
What SWITCH performs (spec/42_switch_fsm.md R142 to R156): the operation by its control state, its sample and the bits
R77 forms, and the whole next state of each.
-/

namespace Sys2Proof.Machine

/-- After startup and with the button, SWITCH performs the operation of its control state and its samples (R77, R81). -/
theorem performs_switchInstr {s : State} {st : SwState} {v b x : Bool} (hd : s.boot = .done)
    (hb : s.cfg.switchSource = .button) (hv : variantBit s = v) (hst : s.swState = st) (hbtn : btn s = b)
    (hx : swExpiry s = x) (h2 : st = .labelShow ∨ st = .finalHold → v = true) :
    Performs .switch s (switchInstr v st b x) := by
  subst hv hst hbtn hx
  exact ⟨_, if_pos ⟨hd, hb⟩, decode_swfWord h2⟩

theorem variantBit_eq_false {s : State} (h : s.cfg.switchVariant = .immediate) : variantBit s = false := by
  simp [variantBit, h]

/-- In `Debouncing` the `x` bit says that this sample reaches the threshold (R77). -/
theorem swExpiry_of_debouncing {s : State} (h : s.swState = .debouncing) :
    swExpiry s = decide (s.cfg.q ≤ s.dbCnt + 1) := by
  simp [swExpiry, h]

/-- In a timed state the `x` bit says that the timer expires at this tick (R77). -/
theorem swExpiry_of_timed {s : State} (h : s.swState.timed = true) : swExpiry s = decide (s.tmrRem = 1) := by
  cases hst : s.swState <;> simp_all [swExpiry, SwState.timed]

/-- In the other states the `x` bit is 0 (R77). -/
theorem swExpiry_of_untimed {s : State} (h : s.swState = .idle ∨ s.swState = .swHold) : swExpiry s = false := by
  obtain h | h := h <;> simp [swExpiry, h]

section
variable {s : State} {st : SwState} {v : Bool} (hd : s.boot = .done) (hb : s.cfg.switchSource = .button)
  (hv : variantBit s = v) (hst : s.swState = st) (h2 : st = .labelShow ∨ st = .finalHold → v = true)
include hd hb hv hst h2

/-- R151: in a timed state whose timer has not expired SWITCH ticks. -/
theorem performs_before_expiry (ht : st.timed = true) (hr : 1 < s.tmrRem) :
    Performs .switch s (switchInstr v st (btn s) false) :=
  performs_switchInstr hd hb hv hst rfl
    ((swExpiry_of_timed (hst ▸ ht)).trans (decide_eq_false (Nat.ne_of_gt hr))) h2

/-- R153 to R156: in a timed state whose timer expires SWITCH performs the deferred action. -/
theorem performs_at_expiry (ht : st.timed = true) (hr : s.tmrRem = 1) :
    Performs .switch s (switchInstr v st (btn s) true) :=
  performs_switchInstr hd hb hv hst rfl ((swExpiry_of_timed (hst ▸ ht)).trans (decide_eq_true hr)) h2

end

/-- Settles O17. -/
theorem switchStays : Obligations.SwitchStays := by
  unfold Obligations.SwitchStays
  exact fun s v x => ⟨rfl, rfl, fun hd hb =>
    ⟨fun hst h => performs_switchInstr hd hb rfl hst h (swExpiry_of_untimed (.inl hst)) (by simp),
     fun hst h => performs_switchInstr hd hb rfl hst h (swExpiry_of_untimed (.inr hst)) (by simp)⟩⟩

/-- Settles O18. -/
theorem switchDetectResult : Obligations.SwitchDetectResult := by
  unfold Obligations.SwitchDetectResult
  exact fun s v x => ⟨rfl, fun hd hb hst h =>
    performs_switchInstr hd hb rfl hst h (swExpiry_of_untimed (.inl hst)) (by simp)⟩

/-- Settles O19. -/
theorem switchCountResult : Obligations.SwitchCountResult := by
  unfold Obligations.SwitchCountResult
  exact fun s v => ⟨rfl, fun hd hb hst h hq => performs_switchInstr hd hb rfl hst h
    ((swExpiry_of_debouncing hst).trans (decide_eq_false (Nat.not_le_of_lt hq))) (by simp)⟩

/-- Settles O20. -/
theorem switchBounceResult : Obligations.SwitchBounceResult := by
  unfold Obligations.SwitchBounceResult
  exact fun s v x => ⟨rfl, fun hd hb hst h =>
    performs_switchInstr hd hb rfl hst h (swExpiry_of_debouncing hst) (by simp)⟩

/-- Settles O21. -/
theorem switchQualifyResult : Obligations.SwitchQualifyResult := by
  unfold Obligations.SwitchQualifyResult
  exact fun s => ⟨rfl, fun hd hb hv hst h hq => performs_switchInstr hd hb (variantBit_eq_false hv) hst h
    ((swExpiry_of_debouncing hst).trans (decide_eq_true hq)) (by simp)⟩

/-- Settles O22: the label build fills slot N and no other slot (`imgRead_buildLabel`). -/
theorem switchLabelResult : Obligations.SwitchLabelResult := by
  unfold Obligations.SwitchLabelResult
  intro s
  refine ⟨⟨_, rfl, fun a => ?_, fun b hb a => ?_, rfl⟩, fun hd hb hv hst h hq => ?_⟩
  · exact (imgRead_buildLabel s (nextBank s.cfg s.curImg) s.cfg.n a).trans (if_pos rfl)
  · exact (imgRead_buildLabel s (nextBank s.cfg s.curImg) b a).trans (if_neg hb)
  · exact performs_switchInstr hd hb (variantBit_eq_true.2 hv) hst h
      ((swExpiry_of_debouncing hst).trans (decide_eq_true hq)) (by simp)

/-- Settles O23. -/
theorem switchUnpressResult : Obligations.SwitchUnpressResult := by
  unfold Obligations.SwitchUnpressResult
  exact fun s v x => ⟨rfl, fun hd hb hst h =>
    performs_switchInstr hd hb rfl hst h (swExpiry_of_untimed (.inr hst)) (by simp)⟩

/-- Settles O24. -/
theorem switchTickResult : Obligations.SwitchTickResult := by
  unfold Obligations.SwitchTickResult
  exact fun s v ss b => ⟨rfl, fun hd hb hr =>
    ⟨fun hst => performs_before_expiry hd hb rfl hst (by simp) rfl hr, fun hv =>
      have h1 := variantBit_eq_true.2 hv
      ⟨fun hst => performs_before_expiry hd hb h1 hst (fun _ => rfl) rfl hr,
       fun hst => performs_before_expiry hd hb h1 hst (fun _ => rfl) rfl hr⟩⟩⟩

/-- Settles O25. -/
theorem switchReleaseResult : Obligations.SwitchReleaseResult := by
  unfold Obligations.SwitchReleaseResult
  exact fun s b => ⟨rfl, fun hd hb hv hst hr =>
    performs_at_expiry hd hb (variantBit_eq_false hv) hst (by simp) rfl hr⟩

/-- Settles O26. -/
theorem switchShowLabelResult : Obligations.SwitchShowLabelResult := by
  unfold Obligations.SwitchShowLabelResult
  exact fun s b => ⟨rfl, fun hd hb hv hst hr =>
    performs_at_expiry hd hb (variantBit_eq_true.2 hv) hst (fun _ => rfl) rfl hr⟩

/-- Settles O27. -/
theorem switchRealSwitchResult : Obligations.SwitchRealSwitchResult := by
  unfold Obligations.SwitchRealSwitchResult
  exact fun s b => ⟨rfl, fun hd hb hv hst hr =>
    performs_at_expiry hd hb (variantBit_eq_true.2 hv) hst (fun _ => rfl) rfl hr⟩

/-- Settles O28. -/
theorem switchFinalReleaseResult : Obligations.SwitchFinalReleaseResult := by
  unfold Obligations.SwitchFinalReleaseResult
  exact fun s b => ⟨rfl, fun hd hb hv hst hr =>
    performs_at_expiry hd hb (variantBit_eq_true.2 hv) hst (fun _ => rfl) rfl hr⟩

end Sys2Proof.Machine
end

section
/-!
SUPPORT. The switch FSM as its button samples drive it (spec/42_switch_fsm.md R142 to R156): the registers its
transitions read, what one sample makes of them, and that a turn of SWITCH does just that to the state while a turn of
any other agent leaves them alone.
-/

namespace Sys2Proof.Machine

/-- The registers the transitions of the switch FSM read: its control state, `DB_CNT`, `TMR_REM`, `CUR_IMG` and
`PEND_IDX`. -/
structure SwView where
  st : SwState
  cnt : Nat
  rem : Nat
  cur : Nat
  pend : Nat

/-- The registers of the switch FSM in a state. -/
def State.swView (s : State) : SwView := ⟨s.swState, s.dbCnt, s.tmrRem, s.curImg, s.pendIdx⟩

/-- A qualified press: the bank advances, or in the two-phase variant its label is selected (R146, R147). -/
def SwView.press (c : Config) (v : SwView) : SwView :=
  if c.switchVariant = .twoPhase then
    { v with st := .swHold, cnt := 0, cur := c.n, pend := nextBank c v.cur }
  else { v with st := .swHold, cnt := 0, cur := nextBank c v.cur }

/-- What one button sample does (R142 to R156). -/
def SwView.next (c : Config) (v : SwView) (b : Bool) : SwView :=
  match v.st with
  | .idle => if b then { v with st := .debouncing, cnt := 1 } else v
  | .debouncing =>
    if b then (if c.q ≤ v.cnt + 1 then v.press c else { v with cnt := v.cnt + 1 })
    else { v with st := .idle, cnt := 0 }
  | .swHold => if b then v else { v with st := .swSettle, rem := c.settleDelay }
  | .swSettle =>
    if v.rem = 1 then
      (if c.switchVariant = .twoPhase then { v with st := .labelShow, rem := c.labelDisplay }
      else { v with st := .idle })
    else { v with rem := v.rem - 1 }
  | .labelShow =>
    if v.rem = 1 then { v with st := .finalHold, cur := v.pend, rem := c.resetHold } else { v with rem := v.rem - 1 }
  | .finalHold => if v.rem = 1 then { v with st := .idle } else { v with rem := v.rem - 1 }

/-- The operation of SWITCH makes of the registers what the sample does. -/
theorem swView_of_exec {s t : State} {b : Bool}
    (h : exec (switchInstr (variantBit s) s.swState b (swExpiry s)) s = .next t) :
    t.swView = s.swView.next s.cfg b := by
  have hv : variantBit s = decide (s.cfg.switchVariant = .twoPhase) := by
    rw [Bool.eq_iff_iff, variantBit_eq_true, decide_eq_true_iff]
  cases hst : s.swState <;> rw [hst] at h <;> simp only [switchInstr] at h <;>
    simp only [SwView.next, State.swView, hst]
  case idle => cases b <;> cases h <;> rfl
  case debouncing =>
    rw [swExpiry_of_debouncing hst, hv] at h
    cases b
    case false => cases h; rfl
    case true =>
      simp only [if_true, decide_eq_true_eq, SwView.press] at h ⊢
      split_ifs at h ⊢ <;> cases h <;> rfl
  case swHold => cases b <;> cases h <;> rfl
  all_goals
    rw [swExpiry_of_timed (by rw [hst]; rfl), hv] at h
    simp only [decide_eq_true_eq] at h
    split_ifs at h ⊢ <;> cases h <;> simp [hst]

/-- A turn of SWITCH performs the operation of its control state and its samples (R77, R81). -/
theorem Inv.step_switch {s : State} (h : Inv s) (hd : s.boot = .done) (hb : s.cfg.switchSource = .button)
    (hg : s.nextTurn.agent = .switch) :
    step s = exec (switchInstr (variantBit s.takeTurn) s.takeTurn.swState (btn s.takeTurn) (swExpiry s.takeTurn))
      s.takeTurn := by
  have hw : selectorOf s.takeTurn s.nextTurn.agent = some (.swf (swfSelector s.takeTurn)) := by
    rw [hg]; exact if_pos ⟨hd, hb⟩
  have htwo := (h.takeTurn.steady (by rw [takeTurn_boot, hd]; rfl)).two_phase_only
  rw [step_eq_exec h.admitted hw (decode_swfWord fun hst => variantBit_eq_true.2 (htwo hst)), hg]
  rfl

/-- A turn of SWITCH makes of its registers what its button sample does. -/
theorem Inv.swView_of_switch {s t : State} (h : Inv s) (hd : s.boot = .done) (hb : s.cfg.switchSource = .button)
    (hst : step s = .next t) (hg : s.nextTurn.agent = .switch) :
    t.swView = s.swView.next s.cfg (wordLevel s.cfg s.nextTurn.lines s.cfg.lBtn) :=
  swView_of_exec (s := s.takeTurn) ((h.step_switch hd hb hg).symm.trans hst)

/-- After startup, with the button, no other agent writes the registers of SWITCH (R38). -/
theorem swView_of_other {s t : State} (hd : s.boot = .done) (hb : s.cfg.switchSource = .button)
    (hst : step s = .next t) (hg : s.nextTurn.agent ≠ .switch) : t.swView = s.swView := by
  cases ha : s.nextTurn.agent with
  | startup => rw [step_of_no_agent hst (.inl ⟨hd, ha⟩)]; rfl
  | engine =>
    have hf := EngineFrame.of_step hst ha
    have hcur : t.curImg = s.curImg := hf.selector hb
    rw [hf.only, State.swView, hcur]
    rfl
  | switch => exact absurd ha hg
  | ipg => rw [(IpgFrame.of_step hst ha).only]; rfl
  | host => rw [step_of_no_agent hst (.inr ha)]; rfl

/-- The button samples SWITCH still takes in the turns `us` lead its registers to `goal`. -/
structure SampledTo (c : Config) (goal : SwView) (us : List Turn) (s : State) : Prop where
  inv : Inv s
  cfg : s.cfg = c
  boot : s.boot = .done
  source : c.switchSource = .button
  goal : (buttonSamples c us).foldl (SwView.next c) s.swView = goal

section
variable {c : Config} {goal : SwView} {us : List Turn} {s : State}

theorem SampledTo.withSched (h : SampledTo c goal us s) (ts : List Turn) :
    SampledTo c goal us { s with sched := ts } :=
  { h with inv := h.inv.withTurns _ _ _ }

/-- A turn takes the first sample of those left if it is SWITCH's, and none otherwise. -/
theorem SampledTo.turn (h : SampledTo c goal (s.nextTurn :: us) s) :
    ∃ m, step s = .next m ∧ SampledTo c goal us m := by
  obtain ⟨m, hm, hmi⟩ := h.inv.step_next
  obtain ⟨hcfg, hboot⟩ := step_cfg_boot hm
  have hgoal := h.goal
  obtain rfl := h.cfg
  have hdone : m.boot = .done := by rw [hboot, h.boot]; split <;> rfl
  refine ⟨m, hm, hmi, hcfg, hdone, h.source, ?_⟩
  by_cases hg : s.nextTurn.agent = .switch
  · rw [h.inv.swView_of_switch h.boot h.source hm hg, ← hgoal]
    simp [buttonSamples, hg]
  · rw [swView_of_other h.boot h.source hm hg, ← hgoal]
    simp [buttonSamples, hg]

end

/-- A run after startup, with the button, leads the registers of SWITCH where its button samples do, whatever turns
other agents take. -/
theorem Inv.run_samples {s : State} (h : Inv s) (hd : s.boot = .done) (hb : s.cfg.switchSource = .button)
    (ts : List Turn) :
    ∃ t, runTurns ts s = .next t ∧ t.swView = (buttonSamples s.cfg ts).foldl (SwView.next s.cfg) s.swView ∧
      Steady t := by
  obtain ⟨t, ht, hend⟩ := runTurns_of_kept (fun _ _ ts h => h.withSched ts) (fun _ _ h => h.turn) ts
    (⟨h, rfl, hd, hb, rfl⟩ : SampledTo s.cfg _ ts s)
  exact ⟨t, ht, hend.goal, hend.inv.steady (by rw [hend.boot]; rfl)⟩

end Sys2Proof.Machine
end

section
/-!
Asserted samples (spec/42_switch_fsm.md R159): they only count until Q of them stand in a row, and the Q-th qualifies
the press, once.
-/

namespace Sys2Proof.Machine

/-- The registers v with k asserted samples counted: `Idle` for none, else `Debouncing` (R143, R144). -/
def SwView.counted (v : SwView) (k : Nat) : SwView :=
  { v with st := if k = 0 then .idle else .debouncing, cnt := k }

section
variable {c : Config} {v : SwView} {k : Nat}

/-- R143, R144: an asserted sample below the threshold is counted. -/
theorem SwView.next_counted_true (h : k + 1 < c.q) :
    (v.counted k).next c true = v.counted (k + 1) := by
  cases k with
  | zero => rfl
  | succ k => simp [counted, next, Nat.not_le_of_lt h]

/-- R146, R147: an asserted sample at the threshold qualifies the press. -/
theorem SwView.next_threshold (hst : v.st = .debouncing) (h : c.q ≤ v.cnt + 1) : v.next c true = v.press c := by
  simp [next, hst, h]

/-- R142, R145: a released sample clears the count. -/
theorem SwView.next_counted_false : (v.counted k).next c false = v.counted 0 := by
  cases k <;> rfl

/-- R143, R144: asserted samples below the threshold are counted. -/
theorem SwView.foldl_below (h : k < c.q) :
    (List.replicate k true).foldl (next c) (v.counted 0) = v.counted k := by
  induction k with
  | zero => rfl
  | succ k ih =>
    rw [List.replicate_succ', List.foldl_append, ih (by omega)]
    exact next_counted_true h

/-- R148: an asserted sample changes nothing in the hold. -/
theorem SwView.next_held (h : v.st = .swHold) : v.next c true = v := by
  simp [next, h]

theorem SwView.foldl_held (h : v.st = .swHold) : (List.replicate k true).foldl (next c) v = v := by
  induction k with
  | zero => rfl
  | succ k ih => rw [List.replicate_succ, List.foldl_cons, next_held h, ih]

theorem SwView.press_st : (v.press c).st = .swHold := by
  unfold press; split <;> rfl

/-- R146 to R148: a press of Q asserted samples or more switches once. -/
theorem SwView.foldl_press (hq : 2 ≤ c.q) (h : c.q ≤ k) :
    (List.replicate k true).foldl (next c) (v.counted 0) = v.press c := by
  obtain ⟨j, rfl⟩ : ∃ j, k = (c.q - 1) + (1 + j) := ⟨k - c.q, by omega⟩
  rw [← List.replicate_append_replicate, ← List.replicate_append_replicate, List.foldl_append, List.foldl_append,
    foldl_below (by omega)]
  have hthreshold : (v.counted (c.q - 1)).next c true = v.press c :=
    next_threshold (v := v.counted (c.q - 1)) (if_neg (by omega)) (Nat.le_add_of_sub_le (Nat.le_refl _))
  exact (congrArg (List.foldl _ · _) hthreshold).trans (foldl_held press_st)

/-- R159: k samples counted and then samples `l` without Q asserted ones in a row never qualify; if the last of them
all is released, none is left counted. -/
theorem SwView.foldl_short {l : List Bool} :
    ¬(List.replicate c.q true <:+: List.replicate k true ++ l) →
    ∃ j, l.foldl (next c) (v.counted k) = v.counted j ∧
      ((List.replicate k true ++ l).getLast? ≠ some true → j = 0) := by
  induction l generalizing k with
  | nil =>
    refine fun _ => ⟨k, rfl, fun hlast => ?_⟩
    cases k with
    | zero => rfl
    | succ k => simp [List.replicate_succ'] at hlast
  | cons b l ih =>
    intro hshort
    cases b with
    | true =>
      have hrun : List.replicate k true ++ true :: l = List.replicate (k + 1) true ++ l := by
        rw [List.replicate_succ', List.append_assoc]; rfl
      rw [hrun] at hshort ⊢
      have hlt : k + 1 < c.q := by
        by_contra hge
        obtain ⟨j, hj⟩ : ∃ j, k + 1 = c.q + j := ⟨k + 1 - c.q, by omega⟩
        rw [hj, ← List.replicate_append_replicate, List.append_assoc] at hshort
        exact hshort (List.prefix_append _ _).isInfix
      rw [List.foldl_cons, next_counted_true hlt]
      exact ih hshort
    | false =>
      have hsuffix : l <:+ List.replicate k true ++ false :: l := ⟨List.replicate k true ++ [false], by simp⟩
      obtain ⟨j, hj, hlast⟩ := ih (k := 0) fun h => hshort (h.trans hsuffix.isInfix)
      rw [List.foldl_cons, next_counted_false]
      refine ⟨j, hj, fun h => hlast ?_⟩
      cases l <;> simp_all

/-- Bounce leaves no sample counted (R159). -/
theorem SwView.foldl_noPress {l : List Bool} (h : NoPress c l) :
    l.foldl (next c) (v.counted 0) = v.counted 0 := by
  obtain ⟨hshort, hlast⟩ := h
  obtain ⟨j, hj, hzero⟩ := foldl_short (v := v) (k := 0) hshort
  rw [hj, hzero hlast]

end

/-- In `Idle` no sample is counted (R40(e)). -/
theorem Steady.swView_idle {s : State} (hs : Steady s) (h : s.swState = .idle) : s.swView = s.swView.counted 0 := by
  have hcnt := hs.not_counting (by simp [h])
  simp [State.swView, SwView.counted, h, hcnt]

/-- While samples are only counted the host runs (R40(c)). -/
theorem Steady.of_counted {s : State} (hs : Steady s) {v : SwView} {k : Nat} (h : s.swView = v.counted k) :
    s.curImg = v.cur ∧ s.resetOut = false ∧ s.dbCnt = k ∧ s.swState = if k = 0 then .idle else .debouncing := by
  have hst : s.swState = if k = 0 then .idle else .debouncing := congrArg SwView.st h
  refine ⟨congrArg SwView.cur h, ?_, congrArg SwView.cnt h, hst⟩
  rw [hs.reset_held, hst]
  split <;> rfl

/-- A qualified press holds the host in reset with the bank advanced, or its label selected (R146, R147). -/
theorem Steady.of_press {s : State} (hs : Steady s) {c : Config} {v : SwView} (h : s.swView = v.press c) :
    s.swState = .swHold ∧ s.resetOut = true ∧ s.btnState = .pressed ∧ s.dbCnt = 0 ∧
      (c.switchVariant = .immediate → s.curImg = nextBank c v.cur) ∧
      (c.switchVariant = .twoPhase → s.curImg = c.n ∧ s.pendIdx = nextBank c v.cur) := by
  have hst : s.swState = .swHold := (congrArg SwView.st h).trans SwView.press_st
  have hcur : s.curImg = (v.press c).cur := congrArg SwView.cur h
  have hpend : s.pendIdx = (v.press c).pend := congrArg SwView.pend h
  refine ⟨hst, ?_, hs.button_pressed.2 hst, hs.not_counting (by simp [hst]), fun hv => ?_, fun hv => ?_⟩
  · rw [hs.reset_held, hst]; rfl
  · simp [hcur, SwView.press, hv]
  · simp [hcur, hpend, SwView.press, hv]

/-- Settles O54: the samples are counted below the threshold (`SwView.foldl_below`), and qualify the press once from
there on (`SwView.foldl_press`). -/
theorem pressQualifiesAtTheThreshold : Obligations.PressQualifiesAtTheThreshold := by
  unfold Obligations.PressQualifiesAtTheThreshold
  intro s ts k h hd hb hst hsamples
  have hs := h.steady (by rw [hd]; rfl)
  have hq := (Config.admits_of_admitted h.admitted).q_ge
  obtain ⟨t, hrun, hview, ht⟩ := h.run_samples hd hb ts
  rw [hsamples, hs.swView_idle hst] at hview
  refine ⟨t, hrun, fun hk => ?_, fun hk => ?_⟩
  · obtain ⟨hcur, hreset, hcnt, -⟩ := ht.of_counted (hview.trans (SwView.foldl_below hk))
    exact ⟨hcur, hreset, hcnt⟩
  · exact ht.of_press (hview.trans (SwView.foldl_press hq hk))

/-- Settles O55: such samples are only ever counted (`SwView.foldl_short`). -/
theorem shortPressesNeverQualify : Obligations.ShortPressesNeverQualify := by
  unfold Obligations.ShortPressesNeverQualify
  intro s ts h hd hb hst hshort
  have hs := h.steady (by rw [hd]; rfl)
  obtain ⟨t, hrun, hview, ht⟩ := h.run_samples hd hb ts
  obtain ⟨j, hj, -⟩ := SwView.foldl_short (v := s.swView) (k := 0) (l := buttonSamples s.cfg ts) hshort
  rw [hs.swView_idle hst, hj] at hview
  obtain ⟨hcur, hreset, -, hstate⟩ := ht.of_counted hview
  refine ⟨t, hrun, hcur, hreset, ?_⟩
  rw [hstate]
  split
  · exact .inl rfl
  · exact .inr rfl

end Sys2Proof.Machine
end

section
/-!
The answer to a press (spec/42_switch_fsm.md R146 to R157): from the sample that qualifies it the FSM runs down to
`Idle` with the bank of the press selected, one sample of what is due at a time.
-/

namespace Sys2Proof.Machine

/-- The bank selected on the next return to `Idle`: the pending one while its label is shown (R155). -/
def SwView.upcoming (c : Config) (v : SwView) : Nat :=
  if c.switchVariant = .twoPhase ∧ v.st.mayLabel = true then v.pend else v.cur

/-- A qualified press for the bank `b` is being answered, or has been: the FSM is in `SwHold`, in a timed state or back
in `Idle`. -/
structure SwView.Answers (c : Config) (b : Nat) (v : SwView) : Prop where
  not_debouncing : v.st ≠ .debouncing
  cnt : v.cnt = 0
  running : v.st.timed = true → 1 ≤ v.rem
  two_phase_only : v.st = .labelShow ∨ v.st = .finalHold → c.switchVariant = .twoPhase
  bank : v.upcoming c = b

/-- How many samples there are still to the return to `Idle`, the released one that ends the hold among them. -/
def SwView.due (c : Config) (v : SwView) : Nat :=
  match v.st with
  | .swHold => delays c + 1
  | .swSettle => v.rem + if c.switchVariant = .twoPhase then c.labelDisplay + c.resetHold else 0
  | .labelShow => v.rem + c.resetHold
  | .finalHold => v.rem
  | .idle => 0
  | .debouncing => 0

section
variable {c : Config} {b : Nat} {v : SwView}

theorem SwView.press_answers : (v.press c).Answers c (nextBank c v.cur) := by
  refine ⟨by simp [press_st], ?_, by simp [press_st, SwState.timed], by simp [press_st], ?_⟩
  · unfold press; split <;> rfl
  · by_cases h2 : c.switchVariant = .twoPhase <;> simp [press, upcoming, h2, SwState.mayLabel]

theorem SwView.Answers.eq_idle_of_due (h : v.Answers c b) (hdue : v.due c = 0) : v.st = .idle := by
  have hrun := h.running
  have hno := h.not_debouncing
  cases hst : v.st <;> simp_all [due, SwState.timed]

/-- R151: a timer that does not expire counts down, whatever the sample. -/
theorem SwView.next_tick (ht : v.st.timed = true) (hr : v.rem ≠ 1) (x : Bool) :
    v.next c x = { v with rem := v.rem - 1 } := by
  cases hst : v.st <;> simp_all [next, SwState.timed]

theorem SwView.due_tick (ht : v.st.timed = true) (hr : 1 ≤ v.rem) :
    due c { v with rem := v.rem - 1 } + 1 = v.due c := by
  cases hst : v.st <;> simp_all [due, SwState.timed] <;> omega

theorem SwView.Answers.tick (h : v.Answers c b) (ht : v.st.timed = true) (hr : v.rem ≠ 1) :
    Answers c b { v with rem := v.rem - 1 } :=
  { h with running := fun _ => Nat.le_sub_one_of_lt (Nat.lt_of_le_of_ne (h.running ht) hr.symm) }

/-- R153 to R156: a timer that expires leads to the next timed state or to `Idle`. -/
theorem SwView.Answers.expire (h : v.Answers c b) (hc : c.Admits) (ht : v.st.timed = true) (hr : v.rem = 1)
    (x : Bool) :
    (v.next c x).Answers c b ∧ (v.next c x).st ≠ .swHold ∧ (v.next c x).due c + 1 = v.due c := by
  obtain ⟨-, hcnt, -, htwo, hbank⟩ := h
  obtain ⟨st, cnt, rem, cur, pend⟩ := v
  obtain rfl : rem = 1 := hr
  cases st with
  | idle | debouncing | swHold => exact nomatch ht
  | swSettle =>
    by_cases h2 : c.switchVariant = .twoPhase
    · have hn : next c ⟨.swSettle, cnt, 1, cur, pend⟩ x = ⟨.labelShow, cnt, c.labelDisplay, cur, pend⟩ := if_pos h2
      rw [hn]
      exact ⟨⟨nofun, hcnt, fun _ => hc.display_pos, fun _ => h2, hbank⟩, nofun, by simp [due, h2]; omega⟩
    · have hn : next c ⟨.swSettle, cnt, 1, cur, pend⟩ x = ⟨.idle, cnt, 1, cur, pend⟩ := if_neg h2
      rw [hn]
      exact ⟨⟨nofun, hcnt, nofun, nofun, by simpa [upcoming, h2] using hbank⟩, nofun, by simp [due, h2]⟩
  | labelShow =>
    have h2 := htwo (.inl rfl)
    exact ⟨⟨nofun, hcnt, fun _ => hc.hold_pos, fun _ => h2,
      by simpa [upcoming, h2, next, SwState.mayLabel] using hbank⟩, nofun, Nat.add_comm _ _⟩
  | finalHold => exact ⟨⟨nofun, hcnt, nofun, nofun, hbank⟩, nofun, rfl⟩

/-- R149, R151 to R156: outside `Idle` each sample brings it nearer, but for asserted ones in the hold. -/
theorem SwView.Answers.next (h : v.Answers c b) (hc : c.Admits) (hi : v.st ≠ .idle) {x : Bool}
    (hx : v.st = .swHold → x = false) :
    (v.next c x).Answers c b ∧ (v.next c x).st ≠ .swHold ∧ (v.next c x).due c + 1 = v.due c := by
  by_cases ht : v.st.timed = true
  · by_cases hr : v.rem = 1
    · exact h.expire hc ht hr x
    · rw [next_tick ht hr]
      exact ⟨h.tick ht hr, fun hst => by simp [show v.st = .swHold from hst, SwState.timed] at ht,
        due_tick ht (h.running ht)⟩
  · obtain ⟨hno, hcnt, -, -, hbank⟩ := h
    obtain ⟨st, cnt, rem, cur, pend⟩ := v
    cases st with
    | idle => exact absurd rfl hi
    | debouncing => exact absurd rfl hno
    | swSettle | labelShow | finalHold => exact absurd rfl ht
    | swHold =>
      obtain rfl := hx rfl
      exact ⟨⟨nofun, hcnt, fun _ => hc.settle_pos, nofun, hbank⟩, nofun, rfl⟩

/-- While the press is answered each sample but those in `Idle` leaves it so. -/
theorem SwView.Answers.next_answers (h : v.Answers c b) (hc : c.Admits) (hi : v.st ≠ .idle) (x : Bool) :
    (v.next c x).Answers c b := by
  by_cases hx : v.st = .swHold ∧ x = true
  · obtain ⟨hst, rfl⟩ := hx
    rwa [next_held hst]
  · obtain ⟨hn, -, -⟩ := h.next hc hi fun hst => Bool.eq_false_of_not_eq_true fun htrue => hx ⟨hst, htrue⟩
    exact hn

/-- Back in `Idle` the bank of the press is selected. -/
theorem SwView.Answers.cur_of_idle (h : v.Answers c b) (hi : v.st = .idle) : v.cur = b := by
  have hbank := h.bank
  rwa [upcoming, if_neg (by simp [hi, SwState.mayLabel])] at hbank

/-- R151: from the release on, whatever the samples, the FSM is back in `Idle` when they are as many as are due. -/
theorem SwView.Answers.foldl_due (hc : c.Admits) {l : List Bool} (h : v.Answers c b) (hst : v.st ≠ .swHold)
    (hl : l.length = v.due c) : (l.foldl (SwView.next c) v).Answers c b ∧ (l.foldl (SwView.next c) v).st = .idle := by
  induction l generalizing v with
  | nil => exact ⟨h, h.eq_idle_of_due hl.symm⟩
  | cons x l ih =>
    have hi : v.st ≠ .idle := fun hi => by simp [due, hi] at hl
    obtain ⟨hn, hns, hdue⟩ := h.next hc hi (x := x) fun hhold => absurd hhold hst
    exact ih hn hns (Nat.succ_inj.1 (hl.trans hdue.symm))

/-- R158: the samples of one complete press advance one bank and end in `Idle`. -/
theorem SwView.foldl_samples (hc : c.Admits) {p : Press} (hp : p.wf c) :
    ∃ w : SwView, (p.samples c).foldl (SwView.next c) (v.counted 0) = w.counted 0 ∧ w.cur = nextBank c v.cur := by
  obtain ⟨hbefore, htimed⟩ := hp
  have hpress := press_answers (c := c) (v := v)
  obtain ⟨hrel, hst, hdue⟩ := hpress.next hc (by simp [press_st]) (x := false) fun _ => rfl
  have hlen : p.timed.length = ((v.press c).next c false).due c :=
    htimed.trans (Nat.succ_inj.1 (hdue.trans (by simp [due, press_st]))).symm
  obtain ⟨hend, hidle⟩ := hrel.foldl_due hc hst hlen
  refine ⟨p.timed.foldl (SwView.next c) ((v.press c).next c false), ?_, ?_⟩
  · rw [Press.samples, List.foldl_append, List.foldl_append, foldl_noPress hbefore,
      foldl_press hc.q_ge (Nat.le_add_right _ _), List.foldl_cons]
    simp [counted, ← hidle, ← hend.cnt]
  · exact hend.cur_of_idle hidle

/-- R158: any number of complete presses advance as many banks, modulo N. -/
theorem SwView.foldl_presses (hc : c.Admits) {ps : List Press} (hps : ∀ p ∈ ps, p.wf c) (hv : v.cur < c.n) :
    ∃ w : SwView, (ps.flatMap (Press.samples c)).foldl (SwView.next c) (v.counted 0) = w.counted 0 ∧
      w.cur = (v.cur + ps.length) % c.n := by
  induction ps generalizing v with
  | nil => exact ⟨v, rfl, (Nat.mod_eq_of_lt hv).symm⟩
  | cons p ps ih =>
    obtain ⟨hp, hps⟩ := List.forall_mem_cons.1 hps
    obtain ⟨u, hu, hucur⟩ := foldl_samples (v := v) hc hp
    obtain ⟨w, hw, hwcur⟩ := ih hps (hucur.trans_lt (nextBank_lt hc _))
    refine ⟨w, by rw [List.flatMap_cons, List.foldl_append, hu, hw], ?_⟩
    rw [hwcur, hucur, nextBank, Nat.mod_add_mod, List.length_cons]
    congr 1
    omega

end

/-- Settles O56: press by press (`SwView.foldl_presses`), and the samples after the last leave none counted. -/
theorem pressesCycleTheBanks : Obligations.PressesCycleTheBanks := by
  unfold Obligations.PressesCycleTheBanks
  intro s ts ps rest h hd hb hst hps hrest hsamples
  have hs := h.steady (by rw [hd]; rfl)
  have hc := Config.admits_of_admitted h.admitted
  have hbank : s.curImg < s.cfg.n := hs.curImg_lt (by rw [hst]; rfl)
  obtain ⟨t, hrun, hview, ht⟩ := h.run_samples hd hb ts
  obtain ⟨w, hw, hcur⟩ := SwView.foldl_presses (v := s.swView) hc hps hbank
  rw [hsamples, hs.swView_idle hst, List.foldl_append, hw, SwView.foldl_noPress hrest] at hview
  obtain ⟨htcur, hreset, -, hidle⟩ := ht.of_counted hview
  exact ⟨t, hrun, hidle, hreset, htcur.trans hcur⟩

end Sys2Proof.Machine
end

section
/-!
What weak fairness brings about (spec/70_reset_and_hazards.md R236): a qualified press is answered and a pulse ends,
because what each of the two agents has still to do grows less at its own steps and is left alone by the other agents.
-/

namespace Sys2Proof.Machine

/-- A turn of IPG performs the operation of its control state and its samples (R78, R81). -/
theorem step_ipg {s : State} (ha : s.cfg.admitted = true) (hv : s.cfg.ipgVariant = .autonomous)
    (hg : s.nextTurn.agent = .ipg) :
    step s = exec (ipgOp s.ipgState (syncSeen s.takeTurn) (widthDone s)) s.takeTurn := by
  have hw : selectorOf s.takeTurn s.nextTurn.agent = some (.ipg (ipgSelector s.takeTurn)) := by
    rw [hg]; exact if_pos hv
  rw [step_eq_exec ha hw (decode_ipgSelector _), hg]
  rfl

/-- R176: a transition seen in `Armed` asserts the line. -/
theorem ipgState_of_sync {s t : State} (ha : s.cfg.admitted = true) (hv : s.cfg.ipgVariant = .autonomous)
    (hg : s.nextTurn.agent = .ipg) (hst : s.ipgState = .armed)
    (he : edge s.cfg.syncEdge s.intPrev (wordLevel s.cfg s.nextTurn.lines s.cfg.lInt) = true)
    (h : step s = .next t) : t.ipgState = .asserted := by
  have hseen : syncSeen s.takeTurn = true := by
    rw [syncSeen, takeTurn_ipgState, hst]
    exact he
  rw [step_ipg ha hv hg, hst, hseen] at h
  cases h
  rfl

/-- R177, R178: a tick of the pulse ends it, or counts. -/
theorem ipgState_of_asserted {s t : State} (ha : s.cfg.admitted = true) (hv : s.cfg.ipgVariant = .autonomous)
    (hg : s.nextTurn.agent = .ipg) (hst : s.ipgState = .asserted) (h : step s = .next t) :
    t.ipgState = .armed ∨ t.ipgState = .asserted ∧ t.wCnt = s.wCnt + 1 := by
  rw [step_ipg ha hv hg, hst] at h
  cases hx : widthDone s <;> rw [hx] at h <;> cases h
  · exact .inr ⟨rfl, rfl⟩
  · exact .inl rfl

/-- After startup no other agent writes the registers of IPG (R38). -/
theorem ipg_kept_by_others {s t : State} (hd : s.boot = .done) (hst : step s = .next t)
    (hg : s.nextTurn.agent ≠ .ipg) : (t.ipgState, t.wCnt) = (s.ipgState, s.wCnt) := by
  cases ha : s.nextTurn.agent with
  | startup => rw [step_of_no_agent hst (.inl ⟨hd, ha⟩)]; rfl
  | engine => rw [(EngineFrame.of_step hst ha).only]; rfl
  | switch =>
    obtain ⟨-, rfl⟩ | ⟨-, i, -, hf⟩ := SwitchFrame.of_step hst ha
    · rfl
    · rw [hf.only]; rfl
  | ipg => exact absurd ha hg
  | host => rw [step_of_no_agent hst (.inr ha)]; rfl

section
variable {turn : Nat → Turn} {r : Nat → State}

/-- In a weakly fair run an agent that always has a step has a next turn, and up to it what the other agents leave alone
is as it was. -/
theorem WeaklyFair.next_turn {α : Type} {f : State → α} {g : Agent} {j : Nat} (hfair : WeaklyFair turn r)
    (hen : ∀ m, j ≤ m → selectorOf (r m) g ≠ none)
    (hkeep : ∀ m, j ≤ m → (turn m).agent ≠ g → f (r (m + 1)) = f (r m)) :
    ∃ m, j ≤ m ∧ (turn m).agent = g ∧ f (r m) = f (r j) ∧ ∀ i, j ≤ i → i < m → (turn i).agent ≠ g := by
  classical
  have hex := hfair g j hen
  obtain ⟨hj, hg⟩ := Nat.find_spec hex
  have hfirst (i : Nat) (hi : j ≤ i) (hlt : i < Nat.find hex) : (turn i).agent ≠ g := fun he =>
    Nat.find_min hex hlt ⟨hi, he⟩
  have hsame (m : Nat) (hm : j ≤ m) : m ≤ Nat.find hex → f (r m) = f (r j) := by
    induction m, hm using Nat.le_induction with
    | base => exact fun _ => rfl
    | succ m hm ih => exact fun hle => (hkeep m hm (hfirst m hm hle)).trans (ih (Nat.le_of_succ_le hle))
  exact ⟨_, hj, hg, hsame _ hj (Nat.le_refl _), hfirst⟩

/-- A first moment after n with a property, when there is one. -/
theorem exists_first_after {P : Nat → Prop} {n : Nat} (h : ∃ m, n < m ∧ P m) :
    ∃ m, n < m ∧ P m ∧ ∀ j, n < j → j < m → ¬P j := by
  classical
  obtain ⟨hn, hp⟩ := Nat.find_spec h
  exact ⟨_, hn, hp, fun j hj hlt hpj => Nat.find_min h hlt ⟨hj, hpj⟩⟩

/-- R177, R178, R236: in a weakly fair run a pulse ends. -/
theorem WeaklyFair.pulse_ends {j : Nat} (hfair : WeaklyFair turn r) (hrun : InfiniteRun turn r) (h0 : Inv (r 0))
    (hv : (r 0).cfg.ipgVariant = .autonomous) (hd : (r j).boot = .done) (d : Nat)
    (hleft : (r 0).cfg.pulseWidth ≤ (r j).wCnt + d) : ∃ m, j ≤ m ∧ (r m).ipgState ≠ .asserted := by
  induction d generalizing j with
  | zero =>
    have hlt := ((hrun.inv h0 j).steady (by rw [hd]; rfl)).width_range
    rw [hrun.cfg_eq] at hlt
    exact absurd hleft (Nat.not_le_of_lt hlt)
  | succ d ih =>
    obtain ⟨m, hm, hg, hsame, -⟩ := hfair.next_turn (f := fun s => (s.ipgState, s.wCnt)) (g := .ipg) (j := j)
      (fun m _ => by simp [selectorOf_ipg_eq_none, hrun.cfg_eq m, hv])
      (fun m hm hg => ipg_kept_by_others (s := (r m).given (turn m)) (hrun.done_of_le hd hm) (hrun m) hg)
    obtain ⟨-, hcnt⟩ := Prod.mk.inj hsame
    by_cases hst : (r m).ipgState = .asserted
    · obtain harmed | ⟨-, hmore⟩ := ipgState_of_asserted (s := (r m).given (turn m)) (hrun.inv h0 m).admitted
        ((congrArg Config.ipgVariant (hrun.cfg_eq m)).trans hv) hg hst (hrun m)
      · exact ⟨m + 1, Nat.le_succ_of_le hm, by simp [harmed]⟩
      · have hmore : (r (m + 1)).wCnt = (r j).wCnt + 1 := hmore.trans (congrArg (· + 1) hcnt)
        obtain ⟨k, hk, hend⟩ := ih (j := m + 1) (hrun.done_of_le hd (Nat.le_succ_of_le hm)) (by omega)
        exact ⟨k, by omega, hend⟩
    · exact ⟨m, hm, hst⟩

/-- R176, R178, R236: a transition observed in `Armed` is followed by a pulse that ends. -/
theorem WeaklyFair.transition_answered {n : Nat} (hfair : WeaklyFair turn r) (hrun : InfiniteRun turn r)
    (h0 : Inv (r 0)) (hv : (r n).cfg.ipgVariant = .autonomous) (harmed : (r n).ipgState = .armed)
    (hg : (turn n).agent = .ipg)
    (he : edge (r n).cfg.syncEdge (r n).intPrev (wordLevel (r n).cfg (turn n).lines (r n).cfg.lInt) = true) :
    ∃ m, n + 1 < m ∧ (r m).nmiOut = true ∧ (r m).ipgState = .armed ∧ ∀ j, n < j → j < m → (r j).nmiOut = false := by
  have hd : (r n).boot = .done := by
    by_contra hd
    exact nomatch harmed.symm.trans ((hrun.inv h0 n).stopped (.inl hd))
  have hv0 : (r 0).cfg.ipgVariant = .autonomous := hrun.cfg_eq n ▸ hv
  have hvj (j : Nat) : (r j).cfg.ipgVariant = .autonomous := (hrun.cfg_eq j).symm ▸ hv0
  have hdone (j : Nat) (hj : n < j) : (r j).boot = .done := hrun.done_of_le hd hj.le
  have hout (j : Nat) (hj : n < j) : (r j).nmiOut = false ↔ (r j).ipgState = .asserted :=
    ((hrun.inv h0 j).steady (by rw [hdone j hj]; rfl)).pulse_autonomous (hvj j)
  have hfirst : (r (n + 1)).ipgState = .asserted :=
    ipgState_of_sync (s := (r n).given (turn n)) (hrun.inv h0 n).admitted hv hg harmed he (hrun n)
  obtain ⟨m, hm, hend⟩ := hfair.pulse_ends hrun h0 hv0 (hdone (n + 1) n.lt_succ_self) _ (Nat.le_add_left _ _)
  obtain ⟨m, hm, hend, hbefore⟩ := exists_first_after (P := fun m => (r m).ipgState ≠ .asserted) ⟨m, hm, hend⟩
  refine ⟨m, Nat.lt_of_le_of_ne hm ?_, ?_, ?_, fun j hj hlt => (hout j hj).2 (not_not.1 (hbefore j hj hlt))⟩
  · rintro rfl
    exact hend hfirst
  · exact eq_true_of_ne_false (mt (hout m hm).1 hend)
  · have hlaunched := ((hrun.inv h0 m).launched (hdone m hm) (hvj m)).1
    cases hst : (r m).ipgState with
    | stopped => exact absurd hst hlaunched
    | armed => rfl
    | asserted => exact absurd hst hend

/-- R236: in a weakly fair run a press being answered comes back to `Idle`, once the button is released if it is still
held. -/
theorem WeaklyFair.returns_to_idle {j b : Nat} (hfair : WeaklyFair turn r) (hrun : InfiniteRun turn r) (h0 : Inv (r 0))
    (hb : (r 0).cfg.switchSource = .button) (hd : (r j).boot = .done) (d : Nat)
    (h : (r j).swView.Answers (r 0).cfg b) (hdue : (r j).swView.due (r 0).cfg = d)
    (hrel : (r j).swState = .swHold → ReleasedFrom (r 0).cfg turn j) : ∃ m, j ≤ m ∧ (r m).swState = .idle := by
  have hbj (m : Nat) : (r m).cfg.switchSource = .button := (hrun.cfg_eq m).symm ▸ hb
  induction d generalizing j with
  | zero => exact ⟨j, Nat.le_refl j, h.eq_idle_of_due hdue⟩
  | succ d ih =>
    have hi : (r j).swView.st ≠ .idle := fun hi => by simp [SwView.due, hi] at hdue
    obtain ⟨m, hm, hg, hsame, hquiet⟩ := hfair.next_turn (f := State.swView) (g := .switch) (j := j)
      (fun m hm => by simp [selectorOf_switch_eq_none, hrun.done_of_le hd hm, hbj m])
      (fun m hm hg =>
        swView_of_other (s := (r m).given (turn m)) (hrun.done_of_le hd hm) (hbj m) (hrun m) hg)
    have hview : (r (m + 1)).swView =
        (r j).swView.next (r 0).cfg (wordLevel (r 0).cfg (turn m).lines (r 0).cfg.lBtn) := by
      have hnext := ((hrun.inv h0 m).given (turn m)).swView_of_switch (hrun.done_of_le hd hm) (hbj m) (hrun m) hg
      rwa [given_cfg, hrun.cfg_eq, show ((r m).given (turn m)).swView = (r j).swView from hsame] at hnext
    obtain ⟨hn, hst, hless⟩ := h.next (Config.admits_of_admitted (hrun.inv h0 0).admitted) hi
      (fun hhold => hrel hhold m hm hquiet)
    rw [← hview] at hn hst hless
    obtain ⟨k, hk, hidle⟩ := ih (j := m + 1) (hrun.done_of_le hd (Nat.le_succ_of_le hm)) hn (by omega)
      fun hhold => absurd hhold hst
    exact ⟨k, by omega, hidle⟩

/-- After a press has qualified it is being answered for as long as `Idle` has not been reached. -/
theorem InfiniteRun.answers_until_idle {n m b : Nat} (hrun : InfiniteRun turn r) (h0 : Inv (r 0))
    (hb : (r 0).cfg.switchSource = .button) (hd : (r n).boot = .done) (h : (r n).swView.Answers (r 0).cfg b)
    (hm : n ≤ m) (hno : ∀ j, n ≤ j → j < m → (r j).swState ≠ .idle) : (r m).swView.Answers (r 0).cfg b := by
  have hc := Config.admits_of_admitted (hrun.inv h0 0).admitted
  induction m, hm using Nat.le_induction with
  | base => exact h
  | succ m hm ih =>
    have hA := ih fun j hj hlt => hno j hj (Nat.lt_succ_of_lt hlt)
    have hdm : (r m).boot = .done := hrun.done_of_le hd hm
    have hbm : (r m).cfg.switchSource = .button := (hrun.cfg_eq m).symm ▸ hb
    by_cases hg : (turn m).agent = .switch
    · have hnext := ((hrun.inv h0 m).given (turn m)).swView_of_switch hdm hbm (hrun m) hg
      rw [given_cfg, hrun.cfg_eq] at hnext
      rw [hnext]
      exact hA.next_answers hc (hno m hm m.lt_succ_self) _
    · rwa [swView_of_other (s := (r m).given (turn m)) hdm hbm (hrun m) hg]

/-- R157, R236: a press that qualifies, of a button eventually released, is answered on the first return to `Idle`. -/
theorem WeaklyFair.press_answered {n : Nat} (hfair : WeaklyFair turn r) (hrun : InfiniteRun turn r) (h0 : Inv (r 0))
    (hd : (r n).boot = .done) (hb : (r n).cfg.switchSource = .button) (hst : (r n).swState = .debouncing)
    (hq : (r n).cfg.q ≤ (r n).dbCnt + 1) (hg : (turn n).agent = .switch)
    (hbtn : wordLevel (r n).cfg (turn n).lines (r n).cfg.lBtn = true)
    (hrel : ∃ k, n < k ∧ ReleasedFrom (r n).cfg turn k) :
    ∃ m, n < m ∧ (r m).swState = .idle ∧ (r m).resetOut = false ∧
      (r m).curImg = ((r n).curImg + 1) % (r n).cfg.n ∧ ∀ j, n < j → j < m → (r j).swState ≠ .idle := by
  obtain ⟨k, hk, hrel⟩ := hrel
  have hdone (j : Nat) (hj : n < j) : (r j).boot = .done := hrun.done_of_le hd hj.le
  have hpress : (r (n + 1)).swView = (r n).swView.press (r n).cfg := by
    have hnext := ((hrun.inv h0 n).given (turn n)).swView_of_switch hd hb (hrun n) hg
    rw [hnext, given_cfg, given_nextTurn, hbtn]
    exact SwView.next_threshold hst hq
  have hfirst : (r (n + 1)).swView.Answers (r 0).cfg (nextBank (r n).cfg (r n).curImg) := by
    rw [hpress, ← hrun.cfg_eq n]
    exact SwView.press_answers (v := (r n).swView)
  have hb0 : (r 0).cfg.switchSource = .button := hrun.cfg_eq n ▸ hb
  have hanswers {m : Nat} (hm : n < m) (hno : ∀ j, n < j → j < m → (r j).swState ≠ .idle) :=
    hrun.answers_until_idle h0 hb0 (hdone _ n.lt_succ_self) hfirst hm hno
  have hreturns : ∃ m, n < m ∧ (r m).swState = .idle := by
    by_cases hearly : ∃ j, n < j ∧ j < k ∧ (r j).swState = .idle
    · obtain ⟨j, hj, -, hidle⟩ := hearly
      exact ⟨j, hj, hidle⟩
    · have hA := hanswers hk fun j hj hlt hidle => hearly ⟨j, hj, hlt, hidle⟩
      obtain ⟨m, hm, hidle⟩ := hfair.returns_to_idle hrun h0 hb0 (hdone k hk) _ hA rfl
        fun _ => hrun.cfg_eq n ▸ hrel
      exact ⟨m, hk.trans_le hm, hidle⟩
  obtain ⟨m, hm, hidle, hno⟩ := exists_first_after (P := fun m => (r m).swState = .idle) hreturns
  have hreset := ((hrun.inv h0 m).steady (by rw [hdone m hm]; rfl)).reset_held
  exact ⟨m, hm, hidle, by rw [hreset, hidle]; rfl, (hanswers hm hno).cur_of_idle hidle, hno⟩

end

/-- Settles O60: `WeaklyFair.press_answered` and `WeaklyFair.transition_answered`. -/
theorem fairRunsAnswerPressesAndTransitions : Obligations.FairRunsAnswerPressesAndTransitions := by
  unfold Obligations.FairRunsAnswerPressesAndTransitions
  exact fun turn r n h0 hrun hfair => ⟨hfair.press_answered hrun h0, hfair.transition_answered hrun h0⟩

end Sys2Proof.Machine
end

section
/-!
What IPG performs (spec/43_interrupt_pulse.md R172 to R178): the operation by its control state, its sample and the bits
R78 forms, and the whole next state of each.
-/

namespace Sys2Proof.Machine

/-- In the autonomous variant IPG performs the operation of its control state and its samples (R78, R81). -/
theorem performs_ipgOp {s : State} {st : IpgState} {e x : Bool} (hv : s.cfg.ipgVariant = .autonomous)
    (hst : s.ipgState = st) (he : syncSeen s = e) (hx : widthDone s = x) : Performs .ipg s (ipgOp st e x) := by
  subst hst he hx
  exact ⟨_, if_pos hv, decode_ipgSelector s⟩

/-- R173, by polarity: what a transition is. -/
theorem edge_eq_true_iff {k : SyncEdge} {p b : Bool} : edge k p b = true ↔
    (k = .falling → p = true ∧ b = false) ∧ (k = .rising → p = false ∧ b = true) ∧ (k = .both → p ≠ b) := by
  cases k <;> simp [edge]

/-- R173, by polarity: what no transition is. -/
theorem edge_eq_false_iff {k : SyncEdge} {p b : Bool} : edge k p b = false ↔
    (k = .falling → ¬(p = true ∧ b = false)) ∧ (k = .rising → ¬(p = false ∧ b = true)) ∧ (k = .both → p = b) := by
  cases k <;> simp [edge]

theorem syncSeen_of_stopped {s : State} (h : s.ipgState = .stopped) : syncSeen s = false := by
  simp [syncSeen, h]

theorem syncSeen_of_armed {s : State} (h : s.ipgState = .armed) :
    syncSeen s = edge s.cfg.syncEdge s.intPrev (intIn s) := by
  simp [syncSeen, h]

/-- Settles O13. -/
theorem ipgStartResult : Obligations.IpgStartResult := by
  unfold Obligations.IpgStartResult
  exact fun s => ⟨fun hb => performs_of_bootOp (by rw [hb]; rfl), fun hv => if_pos hv, fun hv => if_neg hv⟩

/-- Settles O29: in `Stopped` the `e` bit is formed as 0 (R78). -/
theorem pulseOffResult : Obligations.PulseOffResult := by
  unfold Obligations.PulseOffResult
  exact fun s e x => ⟨rfl, fun hv hst => performs_ipgOp hv hst (syncSeen_of_stopped hst) rfl⟩

/-- Settles O30. -/
theorem pulseWaitResult : Obligations.PulseWaitResult := by
  unfold Obligations.PulseWaitResult
  exact fun s x => ⟨rfl, fun hv hst hfall hrise hboth =>
    performs_ipgOp hv hst ((syncSeen_of_armed hst).trans (edge_eq_false_iff.2 ⟨hfall, hrise, hboth⟩)) rfl⟩

/-- Settles O31. -/
theorem pulseSyncResult : Obligations.PulseSyncResult := by
  unfold Obligations.PulseSyncResult
  exact fun s x => ⟨rfl, fun hv hst hfall hrise hboth =>
    performs_ipgOp hv hst ((syncSeen_of_armed hst).trans (edge_eq_true_iff.2 ⟨hfall, hrise, hboth⟩)) rfl⟩

/-- Settles O32. -/
theorem pulseHoldResult : Obligations.PulseHoldResult := by
  unfold Obligations.PulseHoldResult
  exact fun s e => ⟨rfl, fun hv hst hw => performs_ipgOp hv hst rfl (decide_eq_false (Nat.not_le_of_lt hw))⟩

/-- Settles O33. -/
theorem pulseEndResult : Obligations.PulseEndResult := by
  unfold Obligations.PulseEndResult
  exact fun s e => ⟨rfl, fun hv hst hw => performs_ipgOp hv hst rfl (decide_eq_true hw)⟩

end Sys2Proof.Machine
end

section
/-!
SUPPORT. The pulse sequencer as its sync samples drive it (spec/43_interrupt_pulse.md R175 to R178): the registers its
transitions read, what one sample makes of them, and that a turn of IPG does just that to the state while a turn of any
other agent leaves them alone.
-/

namespace Sys2Proof.Machine

/-- The registers the transitions of the sequencer read: its control state, `W_CNT` and `INT_PREV`. -/
structure IpgView where
  st : IpgState
  cnt : Nat
  prev : Bool

/-- The registers of the sequencer in a state. -/
def State.ipgView (s : State) : IpgView := ⟨s.ipgState, s.wCnt, s.intPrev⟩

/-- What one sync sample does (R174 to R178). -/
def IpgView.next (c : Config) (v : IpgView) (b : Bool) : IpgView :=
  match v.st with
  | .stopped => v
  | .armed => if edge c.syncEdge v.prev b then ⟨.asserted, 0, b⟩ else ⟨.armed, v.cnt, b⟩
  | .asserted => if c.pulseWidth ≤ v.cnt + 1 then ⟨.armed, 0, b⟩ else ⟨.asserted, v.cnt + 1, b⟩

/-- The operation of IPG makes of the registers what the sample does. -/
theorem ipgView_of_exec {s t : State} (h : exec (ipgOp s.ipgState (syncSeen s) (widthDone s)) s = .next t) :
    t.ipgView = s.ipgView.next s.cfg (intIn s) := by
  cases hst : s.ipgState <;> rw [hst] at h <;> simp only [IpgView.next, State.ipgView, hst]
  case stopped =>
    cases h
    rw [hst]
  case armed =>
    rw [syncSeen_of_armed hst] at h
    simp only [ipgOp] at h
    split_ifs at h ⊢ <;> cases h <;> rfl
  case asserted =>
    simp only [ipgOp, widthDone, decide_eq_true_eq] at h
    split_ifs at h ⊢ <;> cases h <;> rfl

/-- A turn of IPG makes of its registers what its sync sample does. -/
theorem Inv.ipgView_of_ipg {s t : State} (h : Inv s) (hv : s.cfg.ipgVariant = .autonomous) (hst : step s = .next t)
    (hg : s.nextTurn.agent = .ipg) :
    t.ipgView = s.ipgView.next s.cfg (wordLevel s.cfg s.nextTurn.lines s.cfg.lInt) :=
  ipgView_of_exec (s := s.takeTurn) ((step_ipg h.admitted hv hg).symm.trans hst)

/-- After startup no other agent writes the registers of IPG (`agentsWriteOnlyTheirOwn`). -/
theorem ipgView_of_other {s t : State} (hd : s.boot = .done) (hst : step s = .next t)
    (hg : s.nextTurn.agent ≠ .ipg) : t.ipgView = s.ipgView := by
  obtain ⟨hengine, hswitch, -, hnone⟩ := agentsWriteOnlyTheirOwn s t hd hst
  cases ha : s.nextTurn.agent with
  | startup => rw [hnone (.inl ha)]; rfl
  | engine => rw [(hengine ha).1]; rfl
  | switch => rw [(hswitch ha).1]; rfl
  | ipg => exact absurd ha hg
  | host => rw [hnone (.inr ha)]; rfl

/-- The sync samples IPG still takes in the turns `us` lead its registers to `goal`. -/
structure SyncedTo (c : Config) (goal : IpgView) (us : List Turn) (s : State) : Prop where
  inv : Inv s
  cfg : s.cfg = c
  boot : s.boot = .done
  variant : c.ipgVariant = .autonomous
  goal : (syncSamples c us).foldl (IpgView.next c) s.ipgView = goal

section
variable {c : Config} {goal : IpgView} {us : List Turn} {s : State}

theorem SyncedTo.withSched (h : SyncedTo c goal us s) (ts : List Turn) : SyncedTo c goal us { s with sched := ts } :=
  { h with inv := h.inv.withTurns _ _ _ }

/-- A turn takes the first sample of those left if it is IPG's, and none otherwise. -/
theorem SyncedTo.turn (h : SyncedTo c goal (s.nextTurn :: us) s) : ∃ m, step s = .next m ∧ SyncedTo c goal us m := by
  obtain ⟨m, hm, hmi⟩ := h.inv.step_next
  obtain ⟨hcfg, hboot⟩ := step_cfg_boot hm
  have hgoal := h.goal
  obtain rfl := h.cfg
  have hdone : m.boot = .done := by rw [hboot, h.boot]; split <;> rfl
  refine ⟨m, hm, hmi, hcfg, hdone, h.variant, ?_⟩
  by_cases hg : s.nextTurn.agent = .ipg
  · rw [h.inv.ipgView_of_ipg h.variant hm hg, ← hgoal]
    simp [syncSamples, hg]
  · rw [ipgView_of_other h.boot hm hg, ← hgoal]
    simp [syncSamples, hg]

end

/-- A run after startup, in the autonomous variant, leads the registers of IPG where its sync samples do, whatever turns
other agents take; `NMI_OUT` is asserted exactly in `Asserted` (R40(f)). -/
theorem Inv.run_sync {s : State} (h : Inv s) (hd : s.boot = .done) (hv : s.cfg.ipgVariant = .autonomous)
    (ts : List Turn) :
    ∃ t, runTurns ts s = .next t ∧ t.ipgView = (syncSamples s.cfg ts).foldl (IpgView.next s.cfg) s.ipgView ∧
      (t.nmiOut = false ↔ t.ipgView.st = .asserted) := by
  obtain ⟨t, ht, hend⟩ := runTurns_of_kept (fun _ _ ts h => h.withSched ts) (fun _ _ h => h.turn) ts
    (⟨h, rfl, hd, hv, rfl⟩ : SyncedTo s.cfg _ ts s)
  exact ⟨t, ht, hend.goal, (hend.inv.steady (by rw [hend.boot]; rfl)).pulse_autonomous (by rw [hend.cfg, hv])⟩

end Sys2Proof.Machine
end

section
/-!
The pulse contract (spec/43_interrupt_pulse.md R171, R179): the phase of the sequencer after any samples, by their
transitions.  By induction on the samples, the last one taken last.
-/

namespace Sys2Proof.Machine

/-- A transition is seen at one of the ticks. -/
theorem lt_length_of_edgeAt {k : SyncEdge} {p : Bool} {l : List Bool} {n : Nat} (h : edgeAt k p l n = true) :
    n < l.length := by
  by_contra hn
  simp [edgeAt, List.getElem?_eq_none (Nat.le_of_not_lt hn)] at h

/-- One sample more: the transitions seen before, and the one it may show against the last sample before it. -/
theorem edgeAt_concat_eq_true_iff {k : SyncEdge} {p b : Bool} {l : List Bool} {n : Nat} :
    edgeAt k p (l ++ [b]) n = true ↔
      edgeAt k p l n = true ∨ n = l.length ∧ edge k (l.getLastD p) b = true := by
  obtain hlt | rfl | hgt := Nat.lt_trichotomy n l.length
  · have hbefore : edgeAt k p (l ++ [b]) n = edgeAt k p l n := by
      simp only [edgeAt, List.getElem?_append_left hlt, List.getD_append _ _ _ _ ((Nat.sub_le n 1).trans_lt hlt)]
    simp [hbefore, hlt.ne]
  · have hlast : edgeAt k p (l ++ [b]) l.length = edge k (l.getLastD p) b := by
      cases l using List.reverseRecOn <;> simp [edgeAt]
    simp [hlast, mt lt_length_of_edgeAt (Nat.lt_irrefl _)]
  · have hnone (l' : List Bool) (hl : l'.length ≤ n) : ¬edgeAt k p l' n = true := fun h =>
      Nat.not_lt_of_le hl (lt_length_of_edgeAt h)
    simp [hnone l hgt.le, hnone (l ++ [b]) (by simpa using hgt), hgt.ne']

/-- The premise of R171: the transitions are more than `PULSE_WIDTH` ticks apart. -/
def Spaced (c : Config) (p : Bool) (l : List Bool) : Prop :=
  ∀ m n, m < n → edgeAt c.syncEdge p l m = true → edgeAt c.syncEdge p l n = true → m + c.pulseWidth < n

/-- The phase of the sequencer after the samples `l`, `p` being the one before them (R179): `Armed` when every pulse has
ended, and `Asserted` with the ticks since its transition counted while one lasts. -/
inductive PulsePhase (c : Config) (p : Bool) (l : List Bool) : IpgView → Prop
  | armed (cnt : Nat) (ended : ∀ e, edgeAt c.syncEdge p l e = true → e + c.pulseWidth < l.length) :
      PulsePhase c p l ⟨.armed, cnt, l.getLastD p⟩
  | asserted (e cnt : Nat) (seen : edgeAt c.syncEdge p l e = true) (since : e + cnt + 1 = l.length)
      (lasts : cnt < c.pulseWidth) : PulsePhase c p l ⟨.asserted, cnt, l.getLastD p⟩

section
variable {c : Config} {p b : Bool} {l : List Bool} {v : IpgView}

theorem Spaced.of_concat (h : Spaced c p (l ++ [b])) : Spaced c p l := fun m n hlt hm hn =>
  h m n hlt (edgeAt_concat_eq_true_iff.2 (.inl hm)) (edgeAt_concat_eq_true_iff.2 (.inl hn))

/-- The sample that ends a pulse shows no transition of its own, and neither did any since the pulse began: all pulses
have ended. -/
theorem Spaced.ended {e : Nat} (h : Spaced c p l) (he : edgeAt c.syncEdge p l e = true)
    (hlen : e + c.pulseWidth + 1 = l.length) (n : Nat) (hn : edgeAt c.syncEdge p l n = true) :
    n + c.pulseWidth < l.length := by
  have hlt := lt_length_of_edgeAt hn
  have hle : n ≤ e := by
    by_contra hgt
    have hgap := h e n (Nat.lt_of_not_le hgt) he hn
    omega
  omega

/-- One more sample takes the sequencer to the phase of the longer list. -/
theorem PulsePhase.next (hw : 1 ≤ c.pulseWidth) (hs : Spaced c p (l ++ [b])) (h : PulsePhase c p l v) :
    PulsePhase c p (l ++ [b]) (v.next c b) := by
  have hlast : (l ++ [b]).getLastD p = b := by simp
  have hlen : (l ++ [b]).length = l.length + 1 := by simp
  cases h with
  | armed cnt ended =>
    by_cases he : edge c.syncEdge (l.getLastD p) b = true
    · have hphase := PulsePhase.asserted (c := c) (p := p) l.length 0
        (edgeAt_concat_eq_true_iff.2 (.inr ⟨rfl, he⟩)) hlen.symm hw
      simpa only [IpgView.next, if_pos he, hlast] using hphase
    · have hphase := PulsePhase.armed (c := c) (p := p) (l := l ++ [b]) cnt fun n hn => by
        obtain hold | ⟨-, hnew⟩ := edgeAt_concat_eq_true_iff.1 hn
        · exact hlen ▸ Nat.lt_succ_of_lt (ended n hold)
        · exact absurd hnew he
      simpa only [IpgView.next, if_neg he, hlast] using hphase
  | asserted e cnt seen since lasts =>
    have hseen : edgeAt c.syncEdge p (l ++ [b]) e = true := edgeAt_concat_eq_true_iff.2 (.inl seen)
    by_cases hdone : c.pulseWidth ≤ cnt + 1
    · have hphase := PulsePhase.armed 0 (hs.ended hseen (by omega))
      simpa only [IpgView.next, if_pos hdone, hlast] using hphase
    · have hphase := PulsePhase.asserted e (cnt + 1) hseen (by omega) (Nat.lt_of_not_le hdone)
      simpa only [IpgView.next, if_neg hdone, hlast] using hphase

/-- From `Armed`, after any samples with transitions so far apart, the sequencer is in the phase of the samples. -/
theorem PulsePhase.foldl (hw : 1 ≤ c.pulseWidth) (hst : v.st = .armed) (hs : Spaced c v.prev l) :
    PulsePhase c v.prev l (l.foldl (IpgView.next c) v) := by
  induction l using List.reverseRecOn with
  | nil =>
    obtain ⟨st, cnt, prev⟩ := v
    obtain rfl : st = .armed := hst
    exact .armed cnt fun e he => absurd (lt_length_of_edgeAt he) (Nat.not_lt_zero e)
  | append_singleton l b ih =>
    rw [List.foldl_concat]
    exact (ih hs.of_concat).next hw hs

/-- `Asserted` says that the last tick is fewer than `PULSE_WIDTH` ticks after a transition. -/
theorem PulsePhase.asserted_iff (h : PulsePhase c p l v) : v.st = .asserted ↔
    ∃ e < l.length, edgeAt c.syncEdge p l e = true ∧ l.length ≤ e + c.pulseWidth := by
  cases h with
  | armed cnt ended => exact ⟨nofun, fun ⟨e, _, he, hle⟩ => absurd (ended e he) (Nat.not_lt_of_le hle)⟩
  | asserted e cnt seen since lasts => exact ⟨fun _ => ⟨e, lt_length_of_edgeAt seen, seen, by omega⟩, fun _ => rfl⟩

end

/-- Settles O57: `PulsePhase.foldl` along the sync samples of the run (`Inv.run_sync`). -/
theorem pulseContractHolds : Obligations.PulseContractHolds := by
  unfold Obligations.PulseContractHolds
  intro s ts h hd hv harmed hspaced
  have hw := (Config.admits_of_admitted h.admitted).width_pos
  obtain ⟨t, hrun, hview, hout⟩ := h.run_sync hd hv ts
  have hphase := PulsePhase.foldl (v := s.ipgView) hw harmed hspaced
  exact ⟨t, hrun, hout.trans (hview ▸ hphase.asserted_iff)⟩

end Sys2Proof.Machine
end

section
/-!
Where a serve stops (spec/20_memory.md R56, spec/93_implementation_defined.md U19): the two faults of the fetch, and the
serve that passes them on.
-/

namespace Sys2Proof.Machine

/-- R56: a slot of the image store must exist to be read. -/
theorem fetchByte_of_slotCount_le {s : State} {i : Nat} {a : Addr} (hi : slotCount s.cfg ≤ i) :
    fetchByte s i a = .error (.noSuchSlot i) :=
  if_neg (Nat.not_lt_of_le hi)

/-- U19: a byte of an existing slot that nothing has written has no value to drive. -/
theorem fetchByte_of_unwritten {s : State} {i : Nat} {a : Addr} (hi : i < slotCount s.cfg)
    (h : imgRead s i a = none) : fetchByte s i a = .error (.unspecifiedByte i a.toNat) := by
  simp [fetchByte, hi, h]

/-- A serve whose fetch fails stops with the fetch's fault, and drives nothing (R114). -/
theorem execBreServe_of_fetchByte_error {s : State} {a : Addr} {f : Fault}
    (ha : lookup s (pack s.cfg (sample s)) = a) (hf : fetchByte s (serveSlot s a) a = .error f) :
    execBreServe s = .fault f := by
  simp [execBreServe, ha, hf]

/-- Settles O16: each of the two ways a fetch fails is the serve's fault (`execBreServe_of_fetchByte_error`). -/
theorem serveStopsOutsideTheStore : Obligations.ServeStopsOutsideTheStore := by
  unfold Obligations.ServeStopsOutsideTheStore
  intro s a
  exact ⟨fun hslot => execBreServe_of_fetchByte_error rfl (fetchByte_of_slotCount_le hslot),
    fun hslot hnone => execBreServe_of_fetchByte_error rfl (fetchByte_of_unwritten hslot hnone)⟩

end Sys2Proof.Machine
end
